-- ==== Sys2Proof/Word.lean ====
section
/-! DEFINITION. The word and byte types: the host side moves 32-bit values (R43), the port moves octets (R54). -/

namespace Sys2Proof

/-- One CORE register or one command word as the host moves it (R43, R67). -/
abbrev Word := BitVec 32

/-- One octet of a transfer (R31, R32, R54). -/
abbrev Byte := BitVec 8

end Sys2Proof
end

