-- ==== Sys2Proof/Config.lean ====
section
/-! DEFINITION. The implementation parameters of R7 and the free values: what an implementation or the environment fixes
and the spec leaves open. The opaque constants have no body, so no proof can learn a value of one. -/

namespace Sys2Proof

/-- The OPEN parameters of R7 that a rule reads. They are fixed for one machine; the state carries them unchanged, so that
a claim about every state is a claim about every choice of them (PRESUMED at reset, log 1). -/
structure Params where
  /-- DIVW: width of each divider field of the bus controller, bits. -/
  divw : Nat
  /-- RXCNTW: width of the receive byte counter field, bits. -/
  rxcntw : Nat
  /-- NBUF: capacity of WBUF and of RBUF, bytes. -/
  nbuf : Nat
  /-- TO_RESET: reset value of each of the four reload registers. -/
  toReset : Word
  deriving DecidableEq, Repr

/-- The ranges R7 gives: 4 <= DIVW <= 16 and 1 <= NBUF <= min(2^LENW - 1, 2^RXCNTW). -/
abbrev Params.Legal (p : Params) : Prop :=
  4 ≤ p.divw ∧ p.divw ≤ 16 ∧ 1 ≤ p.nbuf ∧ p.nbuf ≤ min (2 ^ 16 - 1) (2 ^ p.rxcntw)

/-- TO_RESET, the OPEN reset value of the reload registers (R7, R30; 93 U23). Free (log 2). -/
opaque Config.toReset : Word

/-- The environment's answer to a port read past the answers the state lists, applied to the counter `draws`
(R50, R52; 93 U3). Free (log 4). -/
opaque Config.portAnswer : Nat → Byte

/-- What a host read of a buffer entry that nothing has written since reset returns, applied to the counter `draws`
(R44; 93 U12). Free (log 6). -/
opaque Config.unwrittenByte : Nat → Byte

/-- PortMap, the address and lowest bit of each port field of the real bus controller, by field id (R7, R48, R65).
OPEN; no rule reads it, and neither does the model (log 3). -/
opaque Config.portMap : Nat → Nat × Nat

/-- The parameters at reset: the defaults R7 states for DIVW, RXCNTW and NBUF, and the free TO_RESET
(PRESUMED, log 1). -/
def Config.default : Params := { divw := 8, rxcntw := 8, nbuf := 256, toReset := Config.toReset }

/-- ERRATUM_THRESHOLD: the largest divider sum that is rejected (R7, R98). -/
def Config.erratumThreshold : Nat := 15

end Sys2Proof
end

