-- ==== Sys2Proof/Syntax.lean ====
section
/-! DEFINITION. The three operations of the opcode table (R69), as syntax. -/

namespace Sys2Proof

/-- One command of the CORE, one constructor per row of the opcode table; the numbers are the fields of CMD32 (R68). -/
inductive Instr where
  /-- `CFG`, the source's `configure` (R70, R103). -/
  | cfg
  /-- `WR n, STOP` or `WR n, NOSTOP`, the source's `write`: `len` is LEN, `stop` is STOP (R71, R113). -/
  | wr (len : BitVec 16) (stop : Bool)
  /-- `RD c`, the source's `read`: `len` is LEN (R72, R127). -/
  | rd (len : BitVec 16)
  deriving DecidableEq, Repr

end Sys2Proof
end

