-- ==== Sys2Proof/WellFormed.lean ====
section
/-! DEFINITION. Which commands are well formed: the LEN range of WR and RD (R71, R72, R74). -/

namespace Sys2Proof

/-- LEN of a WR or an RD lies in 1 to NBUF (R71, R72). -/
def lenInRange (nbuf : Nat) (len : BitVec 16) : Bool :=
  decide (1 ≤ len.toNat) && decide (len.toNat ≤ nbuf)

/-- A command is well formed for a CORE with buffers of `nbuf` bytes (R70 to R72). -/
def WellFormed (nbuf : Nat) : Instr → Bool
  | .cfg => true
  | .wr len _ => lenInRange nbuf len
  | .rd len => lenInRange nbuf len

end Sys2Proof
end

