-- ==== Sys2Proof/Decode.lean ====
section
/-! DEFINITION. The decoder and the encoder of CMD32 (R67 to R74). -/

namespace Sys2Proof

/-- Why a 32-bit word is no legal command: the illegal words of R74, each by its own name. -/
inductive DecodeError where
  /-- OP = 0b11. -/
  | reservedOp
  /-- A nonzero bit in 15:3. -/
  | reservedBits
  /-- OP = 0b00 with STOP = 1. -/
  | cfgStop
  /-- OP = 0b00 with LEN not 0. -/
  | cfgLen
  /-- OP = 0b10 with STOP = 1. -/
  | rdStop
  /-- OP = 0b01 or 0b10 with LEN = 0. -/
  | lenZero
  /-- OP = 0b01 or 0b10 with LEN > NBUF. -/
  | lenAboveNbuf
  deriving DecidableEq, Repr

/-- What reading a word gives: a command, or the reason it is none. -/
inductive Decoded where
  | command (i : Instr)
  | illegal (why : DecodeError)
  deriving DecidableEq, Repr

/-- OP, bits 1:0 (R68). -/
def fieldOp (w : Word) : BitVec 2 := w.extractLsb' 0 2

/-- STOP, bit 2 (R68). -/
def fieldStop (w : Word) : Bool := w.getLsbD 2

/-- The bits 15:3 that must be zero (R68). -/
def fieldZero (w : Word) : BitVec 13 := w.extractLsb' 3 13

/-- LEN, bits 31:16 (R68). -/
def fieldLen (w : Word) : BitVec 16 := w.extractLsb' 16 16

/-- The row of the opcode table a word matches (R69 to R72): the fixed bits of each row, the LEN range apart. -/
def decode (w : Word) : Decoded :=
  if fieldZero w ≠ 0#13 then .illegal .reservedBits
  else if fieldOp w = 0b00#2 then
    if fieldStop w then .illegal .cfgStop
    else if fieldLen w ≠ 0#16 then .illegal .cfgLen
    else .command .cfg
  else if fieldOp w = 0b01#2 then .command (.wr (fieldLen w) (fieldStop w))
  else if fieldOp w = 0b10#2 then
    if fieldStop w then .illegal .rdStop else .command (.rd (fieldLen w))
  else .illegal .reservedOp

/-- The LEN range of WR and RD as R74 names its two violations. -/
def checkLen (nbuf : Nat) (len : BitVec 16) (i : Instr) : Decoded :=
  if len = 0#16 then .illegal .lenZero
  else if nbuf < len.toNat then .illegal .lenAboveNbuf
  else .command i

/-- The command of a word the host writes to CMD: legal CFG, legal WR, legal RD, or illegal by name (R74). -/
def readCommand (nbuf : Nat) (w : Word) : Decoded :=
  match decode w with
  | .illegal e => .illegal e
  | .command .cfg => .command .cfg
  | .command (.wr len stop) => checkLen nbuf len (.wr len stop)
  | .command (.rd len) => checkLen nbuf len (.rd len)

/-- The word of a command (R70 to R72). -/
def encode : Instr → Word
  | .cfg => 0x00000000#32
  | .wr len stop => len ++ 0#13 ++ BitVec.ofBool stop ++ 0b01#2
  | .rd len => len ++ 0#13 ++ 0#1 ++ 0b10#2

/-- The command word of an opcode-table row whose `nbits` bits are `w`; the bits above are 0. The table numbers bits as
R8 does, and one host write moves the whole word (R43, R67), so no byte order arises. -/
def tableWord (nbits w : Nat) : Word := BitVec.ofNat 32 (w % 2 ^ nbits)

/-- The instruction the decoder reads from an instruction whose bits are `w`. The LEN range is checked when the command
is written (`readCommand`), not here: it needs NBUF (DESIGN CHOICE, log 10). -/
def decodeTableWord (nbits w : Nat) : Option Instr :=
  match decode (tableWord nbits w) with
  | .command i => some i
  | .illegal _ => none

end Sys2Proof
end

