-- ==== Sys2Proof/Machine/State.lean ====
section
/-! DEFINITION. The state of the CORE (R13 to R37), of its port as the model records it (R10, R50), and of the order in
which host and CORE act (R12, R62); the reasons a step can stop; the state after reset (R36, R159). -/

namespace Sys2Proof.Machine

/-- PHASE (R22). Code 7 is reserved and never produced, so it has no name here. -/
inductive Phase where
  | idle
  | masterEnabled
  | addressPhase
  | byteTransferLoop
  | stopPhase
  | busFreeWait
  | held
  deriving DecidableEq, Repr

/-- TransactionResult, the four values of RESULT (R26, R141). -/
inductive TxResult where
  | success
  | failure
  | wrongFrequency
  | siliconAnomaly
  deriving DecidableEq, Repr

/-- The thirteen fields of the peripheral port (R51). -/
inductive PortField where
  | masen
  | txflush
  | tx
  | rx
  | addr1
  | addr2
  | rxcnt
  | div
  | tcomp
  | txreq
  | rxreq
  | stopdet
  | busfree
  deriving DecidableEq, Repr

/-- One port event (R10): a `PWrite`, a `PRead` with the environment's answer, or the pin event of CFG (R76, R104).
A value is the field's value with zeros above; R54 bounds every field by 32 bits for DIV and R7 for RXCNT. -/
inductive PortEvent where
  | write (f : PortField) (v : Word)
  | read (f : PortField) (v : Word)
  | pin (v : Word)
  deriving DecidableEq, Repr

/-- The four timeout flags (R28). -/
inductive Flag where
  | byte
  | stop
  | free
  | tcomp
  deriving DecidableEq, Repr

/-- The six wait sites (R86). -/
inductive Site where
  /-- CFG, TCOMP clear. -/
  | w1
  /-- WR, TXREQ set. -/
  | w2
  /-- WR with STOP, STOPDET set. -/
  | w3
  /-- WR with STOP, BUSFREE set. -/
  | w4
  /-- RD, RXREQ set. -/
  | w5
  /-- RD, BUSFREE set. -/
  | w6
  deriving DecidableEq, Repr

/-- What a wait returns (R88). -/
inductive WaitResult where
  | ok
  | timeout
  deriving DecidableEq, Repr

/-- The steps of the pseudocode of R108, R121 and R134 that neither wait nor end an operation. -/
inductive Prim where
  /-- `PHASE <- p`. -/
  | phase (p : Phase)
  /-- `IDX <- i`. -/
  | idx (i : Nat)
  /-- `PinSetup(PINCFG)`. -/
  | pin
  /-- `PWrite(MASEN, on)`. -/
  | masen (on : Bool)
  /-- `PWrite(TXFLUSH, on)`. -/
  | txflush (on : Bool)
  /-- `PWrite(TX, WBUF[i])`. -/
  | stage (i : Nat)
  /-- `PWrite(ADDR1, (SADDR << 1) | d)`, `d = 1` for a read. -/
  | addr1 (read : Bool)
  /-- `PWrite(ADDR2, 0x00)`. -/
  | addr2
  /-- `PWrite(RXCNT, LEN - 1)`. -/
  | rxcnt
  /-- `RBUF[i] <- PRead(RX)`. -/
  | drain (i : Nat)
  deriving DecidableEq, Repr

/-- One step of an operation's program (R10). -/
inductive Micro where
  | prim (p : Prim)
  /-- `if Wait(...) = TIMEOUT: TOF_x <- 1` at a site, not begun (R86, R91). -/
  | wait (w : Site)
  /-- The same wait under way: TOCNT is loaded and at least one poll made (R88). -/
  | poll (w : Site)
  /-- Steps 4 and 5 of CFG: `DivCalc`, program the pair on Success, and end with the verdict (R107). -/
  | divide
  /-- `finish(r)` (R27). -/
  | finish (r : TxResult)
  /-- The last step of WR and RD: `finish` with the result the flags give (R121, R134). -/
  | conclude
  deriving DecidableEq, Repr

/-- One move in the total order of host accesses and CORE steps (R43, R62). -/
inductive Turn where
  /-- The host writes the word to CMD and then waits until BUSY = 0 and DONE = 1 (R84 `WAIT`, R24): the whole operation
  passes before its next move. -/
  | call (w : Word)
  /-- The host writes `v` at byte offset `off` with an access of `size` bytes. -/
  | write (size off : Nat) (v : Word)
  /-- The host reads at byte offset `off` with an access of `size` bytes. -/
  | read (size off : Nat)
  /-- The CORE is reset (R159, R160). -/
  | reset
  /-- The CORE takes its next step; the host does nothing (R12). -/
  | core
  deriving DecidableEq, Repr

/-- A byte buffer: the entries written since reset, as pairs of index and byte, the indices strictly rising. An index that
is not listed holds no value (R36; log 6). -/
abbrev Memory := List Host.Cell

/-- The machine. The first group is the CORE's state, exactly R13; then the parameters R7, which no step changes; then
the model's own fields: the place in the operation in flight, the port's record, and the host's moves. -/
structure State where
  /-- INCLK (R14). -/
  inclk : Word
  /-- FREQ (R15). -/
  freq : Word
  /-- SADDR (R16). -/
  saddr : BitVec 7
  /-- PINCFG (R17). -/
  pincfg : Word
  /-- DIVH, DIVW bits held in 16 (R19; log 24). -/
  divh : BitVec 16
  /-- DIVL, DIVW bits held in 16 (R19; log 24). -/
  divl : BitVec 16
  /-- DIVVALID (R20). -/
  divvalid : Bool
  /-- OPC (R21). -/
  opc : BitVec 2
  /-- LEN (R21). -/
  len : BitVec 16
  /-- STOPF (R21). -/
  stopf : Bool
  /-- PHASE (R22). -/
  phase : Phase
  /-- IDX (R23). -/
  idx : BitVec 16
  /-- BUSY (R24). -/
  busy : Bool
  /-- DONE (R25). -/
  done : Bool
  /-- RESULT (R26). -/
  result : TxResult
  /-- TOF_BYTE (R28). -/
  tofByte : Bool
  /-- TOF_STOP (R28). -/
  tofStop : Bool
  /-- TOF_FREE (R28). -/
  tofFree : Bool
  /-- TOF_TCOMP (R28). -/
  tofTcomp : Bool
  /-- TOCNT (R29). -/
  tocnt : Word
  /-- TO_BYTE (R30). -/
  toByte : Word
  /-- TO_STOP (R30). -/
  toStop : Word
  /-- TO_FREE (R30). -/
  toFree : Word
  /-- TO_TCOMP (R30). -/
  toTcomp : Word
  /-- WBUF (R31). -/
  wbuf : Memory
  /-- RBUF (R32). -/
  rbuf : Memory
  /-- The parameters of R7 (log 1). -/
  params : Params
  /-- MODEL: what is left of the operation in flight (R10, R22). -/
  prog : List Micro
  /-- MODEL: the port events so far, oldest first (R10; log 5). -/
  trace : List PortEvent
  /-- MODEL: the environment's answers to the next port reads, first one first (R50, R52; log 4). -/
  answers : List Byte
  /-- MODEL: how many free values have been drawn (log 4, 6). -/
  draws : Nat
  /-- MODEL: the moves still to come (R62; log 7). -/
  turns : List Turn
  /-- MODEL: the value the host's last read returned (R42; log 15). -/
  readData : Word
  deriving DecidableEq, Repr

/-- The reasons the machine stops with a fault. The spec gives the CORE none (R140); the one below is the model's. -/
inductive Fault where
  /-- Raised by the CORE's turn when BUSY = 1 and nothing is left of any operation. No run from reset reaches such a state.
  Safe (log 14). -/
  | noProgram
  deriving DecidableEq, Repr

/-- The cases the spec refuses (R11): it gives them no meaning. All are safe. -/
inductive Refusal where
  /-- An instruction the model has no meaning for. Raised by `exec` only; no arm does now. Safe. -/
  | notModelled (mnemonic : String)
  /-- An illegal command word, or LEN out of range (R74). Raised by a command turn, and by WR and RD on LEN. Safe. -/
  | illegalCommand (why : DecodeError)
  /-- An operation issued while BUSY = 1 (R74, R114, R128). Raised by CFG, WR and RD. Safe. -/
  | commandWhileBusy
  /-- CFG while FREQ = 0 (R102). Raised by CFG. Safe. -/
  | freqZero
  /-- WR that would stage a WBUF entry nothing has written (R74, R114). Raised by WR. Safe. -/
  | wbufUnwritten
  /-- A host write, CMD included, while BUSY = 1 (R45). Raised by a write turn and a call turn. Safe. -/
  | hostWriteWhileBusy
  /-- A host access that is not an aligned 32-bit access (R43). Raised by a read turn and a write turn. Safe. -/
  | hostAccessShape
  deriving DecidableEq, Repr

/-- The state right after reset (R36, R159), the machine being the default one of R7 and nothing having happened at the
port. The reload registers hold TO_RESET; the buffers hold no value; the model's own fields are empty
(DESIGN CHOICE, log 15). -/
def State.reset : State where
  inclk := 0#32
  freq := 0#32
  saddr := 0#7
  pincfg := 0#32
  divh := 0#16
  divl := 0#16
  divvalid := false
  opc := 0#2
  len := 0#16
  stopf := false
  phase := .idle
  idx := 0#16
  busy := false
  done := false
  result := .success
  tofByte := false
  tofStop := false
  tofFree := false
  tofTcomp := false
  tocnt := 0#32
  toByte := Config.default.toReset
  toStop := Config.default.toReset
  toFree := Config.default.toReset
  toTcomp := Config.default.toReset
  wbuf := []
  rbuf := []
  params := Config.default
  prog := []
  trace := []
  answers := []
  draws := 0
  turns := []
  readData := 0#32

end Sys2Proof.Machine
end

