-- ==== Sys2Proof/Machine/Flags.lean ====
section
/-! DEFINITION. The four timeout flags: which site sets which (R86), setting one (R91), clearing all at acceptance (R27),
and the result WR and RD compute from them (R121, R122, R134, R136). -/

namespace Sys2Proof.Machine

/-- The flag an exhausted wait of a site sets (R86). -/
def Site.flag : Site → Flag
  | .w1 => .tcomp
  | .w2 => .byte
  | .w3 => .stop
  | .w4 => .free
  | .w5 => .byte
  | .w6 => .free

/-- `TOF_x <- 1` (R28, R91). -/
def State.raise (s : State) (f : Flag) : State :=
  match f with
  | .byte => { s with tofByte := true }
  | .stop => { s with tofStop := true }
  | .free => { s with tofFree := true }
  | .tcomp => { s with tofTcomp := true }

/-- The value of a flag. -/
def State.flag (s : State) (f : Flag) : Bool :=
  match f with
  | .byte => s.tofByte
  | .stop => s.tofStop
  | .free => s.tofFree
  | .tcomp => s.tofTcomp

/-- All four flags to 0 (R27). -/
def State.clearFlags (s : State) : State :=
  { s with tofByte := false, tofStop := false, tofFree := false, tofTcomp := false }

/-- The result of WR and RD: Failure if TOF_BYTE, TOF_STOP or TOF_FREE is set, else Success (R121 step 6, R134 step 5).
An RD never sets TOF_STOP, so the one test serves both. -/
def State.transferResult (s : State) : TxResult :=
  if s.tofByte || s.tofStop || s.tofFree then .failure else .success

end Sys2Proof.Machine
end

