-- ==== Sys2Proof/Machine/Operands.lean ====
section
/-! DEFINITION. Operand assembly and the values the CORE programs or shows: R77 to R79, the codes of R75 and R76, the
field widths of R51, the sites of R86, and the layouts of STAT and DIV (R42). -/

namespace Sys2Proof.Machine

/-- PHASE codes (R22, R76). -/
def Phase.code : Phase → BitVec 3
  | .idle => 0#3
  | .masterEnabled => 1#3
  | .addressPhase => 2#3
  | .byteTransferLoop => 3#3
  | .stopPhase => 4#3
  | .busFreeWait => 5#3
  | .held => 6#3

/-- The two values PHASE can have while BUSY = 0 (R22). -/
def Phase.quiescent : Phase → Bool
  | .idle => true
  | .held => true
  | .masterEnabled => false
  | .addressPhase => false
  | .byteTransferLoop => false
  | .stopPhase => false
  | .busFreeWait => false

/-- Result codes (R75). -/
def TxResult.code : TxResult → BitVec 2
  | .success => 0#2
  | .failure => 1#2
  | .wrongFrequency => 2#2
  | .siliconAnomaly => 3#2

/-- The id of a port field (R51). -/
def PortField.id : PortField → Nat
  | .masen => 0
  | .txflush => 1
  | .tx => 2
  | .rx => 3
  | .addr1 => 4
  | .addr2 => 5
  | .rxcnt => 6
  | .div => 7
  | .tcomp => 8
  | .txreq => 9
  | .rxreq => 10
  | .stopdet => 11
  | .busfree => 12

/-- The width of a port field in bits (R51). -/
def PortField.width (p : Params) : PortField → Nat
  | .masen => 1
  | .txflush => 1
  | .tx => 8
  | .rx => 8
  | .addr1 => 8
  | .addr2 => 8
  | .rxcnt => p.rxcntw
  | .div => 2 * p.divw
  | .tcomp => 1
  | .txreq => 1
  | .rxreq => 1
  | .stopdet => 1
  | .busfree => 1

/-- Whether the CORE reads the field; every other field it writes (R51, "Dir"). -/
def PortField.readable : PortField → Bool
  | .masen => false
  | .txflush => false
  | .tx => false
  | .rx => true
  | .addr1 => false
  | .addr2 => false
  | .rxcnt => false
  | .div => false
  | .tcomp => true
  | .txreq => true
  | .rxreq => true
  | .stopdet => true
  | .busfree => true

/-- The status field a site polls (R86). -/
def Site.field : Site → PortField
  | .w1 => .tcomp
  | .w2 => .txreq
  | .w3 => .stopdet
  | .w4 => .busfree
  | .w5 => .rxreq
  | .w6 => .busfree

/-- The value a site waits for (R86, R105). -/
def Site.want : Site → Bool
  | .w1 => false
  | .w2 => true
  | .w3 => true
  | .w4 => true
  | .w5 => true
  | .w6 => true

/-- The reload register a site's budget comes from (R86). -/
def Site.budget (w : Site) (s : State) : Word :=
  match w with
  | .w1 => s.toTcomp
  | .w2 => s.toByte
  | .w3 => s.toStop
  | .w4 => s.toFree
  | .w5 => s.toByte
  | .w6 => s.toFree

/-- Whether an exhausted wait ends the operation: W1 only (R91, R105). -/
def Site.aborts : Site → Bool
  | .w1 => true
  | .w2 => false
  | .w3 => false
  | .w4 => false
  | .w5 => false
  | .w6 => false

/-- A value of a 1-bit field. -/
def bitValue (b : Bool) : Word := (BitVec.ofBool b).setWidth 32

/-- ADDR1 for a transfer in direction `read`: `(SADDR << 1) | d` (R77). -/
def addr1Value (saddr : BitVec 7) (read : Bool) : Byte :=
  (saddr.setWidth 8 <<< 1) ||| (BitVec.ofBool read).setWidth 8

/-- ADDR2 of a 7-bit transfer (R77). -/
def addr2Value : Byte := 0x00#8

/-- RXCNT of an RD: LEN - 1 truncated to RXCNTW bits (R78). -/
def rxcntValue (p : Params) (len : BitVec 16) : Word :=
  BitVec.ofNat 32 ((len.toNat - 1) % 2 ^ p.rxcntw)

/-- DIV of a pair: HIGH in the upper DIVW bits, LOW in the lower (R79). -/
def divValue (p : Params) (h l : BitVec 16) : Word :=
  BitVec.ofNat 32 (h.toNat * 2 ^ p.divw + l.toNat)

/-- The STAT register as the host reads it (R42). -/
def State.statWord (s : State) : Word :=
  s.idx ++ BitVec.ofBool s.tofTcomp ++ BitVec.ofBool s.tofFree ++ BitVec.ofBool s.tofStop ++ BitVec.ofBool s.tofByte
    ++ 0#2 ++ s.result.code ++ 0#1 ++ s.phase.code ++ BitVec.ofBool s.divvalid ++ 0#1 ++ BitVec.ofBool s.done
    ++ BitVec.ofBool s.busy

/-- The DIV register as the host reads it (R42). -/
def State.divWord (s : State) : Word := s.divh ++ s.divl

end Sys2Proof.Machine
end

