-- ==== Sys2Proof/Machine/Ops.lean ====
section
/-! DEFINITION. The named operations: the byte buffers, the port primitives of R9, command acceptance and `finish` (R27),
the `Wait` primitive (R88) and reset (R159, R160). The CORE takes no exception (R140): its error path is `raise` (Flags)
and `finish`, and there is no return (R149). -/

namespace Sys2Proof.Machine

/-! ### Byte buffers (R31, R32) -/

/-- The byte at an index, if one was written since reset (R36). -/
def Memory.read : Memory → Nat → Option Byte
  | [], _ => none
  | (k, b) :: m, a => if k = a then some b else Memory.read m a

/-- Write a byte at an index, keeping the indices strictly rising. -/
def Memory.write : Memory → Nat → Byte → Memory
  | [], a, v => [(a, v)]
  | (k, b) :: m, a, v =>
    if a < k then (a, v) :: (k, b) :: m
    else if a = k then (a, v) :: m
    else (k, b) :: Memory.write m a v

/-- The canonical form: the indices strictly rise. -/
def Memory.wf : Memory → Bool
  | [] => true
  | (k, _) :: m => m.all (fun c => decide (k < c.1)) && Memory.wf m

/-- Every listed index is below `n` (R31, R32: a buffer has NBUF entries). -/
def Memory.below (n : Nat) (m : Memory) : Bool := m.all (fun c => decide (c.1 < n))

/-- Every entry below `n` has been written since reset (R114). -/
def Memory.written (m : Memory) : Nat → Bool
  | 0 => true
  | n + 1 => (m.read n).isSome && Memory.written m n

/-- The value of a buffer entry as a read of it sees it: the byte written, or a free value, the draw counted
(R44; log 6). -/
def State.entry (s : State) (m : Memory) (i : Nat) : Byte × State :=
  match m.read i with
  | some b => (b, s)
  | none => (Config.unwrittenByte s.draws, { s with draws := s.draws + 1 })

/-! ### Setting single registers -/

def State.setPhase (s : State) (p : Phase) : State := { s with phase := p }

def State.setIdx (s : State) (i : Nat) : State := { s with idx := BitVec.ofNat 16 i }

def State.setTocnt (s : State) (v : Word) : State := { s with tocnt := v }

def State.setProg (s : State) (p : List Micro) : State := { s with prog := p }

def State.setTurns (s : State) (ts : List Turn) : State := { s with turns := ts }

def State.setRbuf (s : State) (m : Memory) : State := { s with rbuf := m }

/-! ### The port (R48 to R55) -/

/-- Append one port event to the record (R10, R62). -/
def State.emit (s : State) (e : PortEvent) : State := { s with trace := s.trace ++ [e] }

/-- `PWrite(F, v)` (R53). -/
def State.pwrite (s : State) (f : PortField) (v : Word) : State := s.emit (.write f v)

/-- `PinSetup(PINCFG)` (R104). -/
def State.pinSetup (s : State) : State := s.emit (.pin s.pincfg)

/-- The environment's next answer: the next listed one, or a free value, the draw counted (R50, R52; log 4). -/
def State.answer (s : State) : Byte × State :=
  match s.answers with
  | a :: rest => (a, { s with answers := rest })
  | [] => (Config.portAnswer s.draws, { s with draws := s.draws + 1 })

/-- `PRead(F)` of a 1-bit status field: bit 0 of the answer (R52, R54; log 17). -/
def State.preadBit (s : State) (f : PortField) : Bool × State :=
  match s.answer with
  | (a, s1) => (a.getLsbD 0, s1.emit (.read f (bitValue (a.getLsbD 0))))

/-- `PRead(RX)` (R52). -/
def State.preadRx (s : State) : Byte × State :=
  match s.answer with
  | (a, s1) => (a, s1.emit (.read .rx (a.setWidth 32)))

/-! ### Acceptance and the end of an operation (R27) -/

/-- Command acceptance: the latches, BUSY, DONE and the flags; nothing else (R27). -/
def State.accept (s : State) (opc : BitVec 2) (len : BitVec 16) (stop : Bool) : State :=
  { s.clearFlags with opc := opc, len := len, stopf := stop, busy := true, done := false }

/-- `finish(r)` (R27). -/
def State.finish (s : State) (r : TxResult) : State := { s with result := r, busy := false, done := true }

/-! ### The Wait primitive (R88) -/

/-- The loop of `Wait` with at most `n` polls left: poll, return `OK` on a match, else take DEC = 1 from TOCNT (R88).
Called with `n` the number TOCNT holds. -/
def State.pollLoop (w : Site) : Nat → State → WaitResult × State
  | 0, s => (.timeout, s)
  | n + 1, s =>
    match s.preadBit w.field with
    | (v, s1) => if v = w.want then (.ok, s1) else State.pollLoop w n (s1.setTocnt (s1.tocnt - 1#32))

/-- `Wait(F, want, B)` at a site: load TOCNT with the site's reload register, then the loop (R87, R88). -/
def State.wait (s : State) (w : Site) : WaitResult × State :=
  State.pollLoop w (w.budget s).toNat (s.setTocnt (w.budget s))

/-! ### Reset (R159, R160) -/

/-- Reset of the CORE: every CORE register as R36 says, the reload registers at this machine's TO_RESET; an operation in
flight is abandoned; no port event. The parameters, the port's record, the environment's answers and the host's moves
are not the CORE's and stay (log 18). -/
def State.coreReset (s : State) : State :=
  { State.reset with
    toByte := s.params.toReset
    toStop := s.params.toReset
    toFree := s.params.toReset
    toTcomp := s.params.toReset
    params := s.params
    trace := s.trace
    answers := s.answers
    draws := s.draws
    turns := s.turns
    readData := s.readData }

end Sys2Proof.Machine
end

