-- ==== Sys2Proof/Machine/Divider.lean ====
section
/-! DEFINITION. The clock-divider calculator `DivCalc` (R95 to R102). -/

namespace Sys2Proof.Machine

/-- The verdict of the calculator, with the pair on Success (R95). -/
inductive Verdict where
  | success (h l : BitVec 16)
  | wrongFrequency
  | siliconAnomaly
  deriving DecidableEq, Repr

/-- The rounded quotient `q = floor((c + f) / (2 f))` (R96), exact. -/
def roundedQuotient (c f : Word) : Nat := (c.toNat + f.toNat) / (2 * f.toNat)

/-- `DivCalc(c, f)` for divider fields of `divw` bits, for `f >= 1` (R98, R99). CFG is refused while FREQ = 0 (R102), so
no run evaluates it at `f = 0` (log 13). -/
def divCalc (divw : Nat) (c f : Word) : Verdict :=
  let q := roundedQuotient c f
  if q ≤ 1 then .wrongFrequency
  else if (q - 2) + (q - 1) ≤ Config.erratumThreshold then .siliconAnomaly
  else if 2 ^ divw < q then .wrongFrequency
  else .success (BitVec.ofNat 16 (q - 2)) (BitVec.ofNat 16 (q - 1))

/-- The result code a verdict stands for (R107, R141). -/
def Verdict.result : Verdict → TxResult
  | .success _ _ => .success
  | .wrongFrequency => .wrongFrequency
  | .siliconAnomaly => .siliconAnomaly

/-- `PWrite(DIV, h || l)` and then the mirror: DIVH, DIVL, DIVVALID (R107). -/
def State.programDivider (s : State) (h l : BitVec 16) : State :=
  { s.pwrite .div (divValue s.params h l) with divh := h, divl := l, divvalid := true }

end Sys2Proof.Machine
end

