-- ==== Sys2Proof/Machine/Sequencer.lean ====
section
/-! DEFINITION. How the CORE runs an operation's program (R10): `run` to its end, and `tick`, one port event at a time
(R12). The programs themselves are in Configure, WriteEngine and ReadEngine. -/

namespace Sys2Proof.Machine

/-- One step of the pseudocode that neither waits nor ends the operation (R9). -/
def State.prim (s : State) (p : Prim) : State :=
  match p with
  | .phase p => s.setPhase p
  | .idx i => s.setIdx i
  | .pin => s.pinSetup
  | .masen on => s.pwrite .masen (bitValue on)
  | .txflush on => s.pwrite .txflush (bitValue on)
  | .stage i =>
    match s.entry s.wbuf i with
    | (b, s1) => s1.pwrite .tx (b.setWidth 32)
  | .addr1 read => s.pwrite .addr1 ((addr1Value s.saddr read).setWidth 32)
  | .addr2 => s.pwrite .addr2 (addr2Value.setWidth 32)
  | .rxcnt => s.pwrite .rxcnt (rxcntValue s.params s.len)
  | .drain i =>
    match s.preadRx with
    | (b, s1) => s1.setRbuf (s1.rbuf.write i b)

/-- Whether a step only writes CORE registers and makes no port event (R10). -/
def Prim.silent : Prim → Bool
  | .phase _ => true
  | .idx _ => true
  | .pin => false
  | .masen _ => false
  | .txflush _ => false
  | .stage _ => false
  | .addr1 _ => false
  | .addr2 => false
  | .rxcnt => false
  | .drain _ => false

/-- Steps 4 and 5 of CFG: compute, program the pair on Success, end with the verdict (R107). -/
def State.divide (s : State) : State :=
  match divCalc s.params.divw s.inclk s.freq with
  | .success h l => (s.programDivider h l).finish .success
  | .wrongFrequency => s.finish .wrongFrequency
  | .siliconAnomaly => s.finish .siliconAnomaly

/-- Run a program from its head to the end of the operation. An exhausted wait sets its flag and the program goes on, but
at W1, where the operation ends with Failure (R91, R105). -/
def run : List Micro → State → State
  | [], s => s
  | .prim p :: rest, s => run rest (s.prim p)
  | .wait w :: rest, s =>
    match s.wait w with
    | (.ok, s1) => run rest s1
    | (.timeout, s1) => if w.aborts then (s1.raise w.flag).finish .failure else run rest (s1.raise w.flag)
  | .poll w :: rest, s =>
    match s.pollLoop w s.tocnt.toNat with
    | (.ok, s1) => run rest s1
    | (.timeout, s1) => if w.aborts then (s1.raise w.flag).finish .failure else run rest (s1.raise w.flag)
  | .divide :: _, s => s.divide
  | .finish r :: _, s => s.finish r
  | .conclude :: _, s => s.finish s.transferResult

/-- One poll of a wait whose TOCNT is not 0 (R88): on a match the program goes on; else DEC is taken, and at 0 the flag
is set and the program goes on, or at W1 only `finish(Failure)` is left. -/
def State.pollOnce (s : State) (w : Site) (rest : List Micro) : State :=
  match s.preadBit w.field with
  | (v, s1) =>
    if v = w.want then s1.setProg rest
    else
      let s2 := s1.setTocnt (s1.tocnt - 1#32)
      if s2.tocnt = 0#32 then (s2.raise w.flag).setProg (if w.aborts then [.finish .failure] else rest)
      else s2.setProg (.poll w :: rest)

/-- One step of the operation in flight: the register writes that lead to its next port event, then that event; or, where
no event is left, the register writes up to `finish` (R10, R12, R27; DESIGN CHOICE, log 9). -/
def tick : List Micro → State → State
  | [], s => s
  | .prim p :: rest, s => if p.silent then tick rest (s.prim p) else (s.prim p).setProg rest
  | .wait w :: rest, s =>
    let s1 := s.setTocnt (w.budget s)
    if w.budget s = 0#32 then
      if w.aborts then ((s1.raise w.flag).finish .failure).setProg [] else tick rest (s1.raise w.flag)
    else s1.pollOnce w rest
  | .poll w :: rest, s =>
    if s.tocnt = 0#32 then
      if w.aborts then ((s.raise w.flag).finish .failure).setProg [] else tick rest (s.raise w.flag)
    else s.pollOnce w rest
  | .divide :: _, s =>
    match divCalc s.params.divw s.inclk s.freq with
    | .success h l => (s.programDivider h l).setProg [.finish .success]
    | .wrongFrequency => (s.finish .wrongFrequency).setProg []
    | .siliconAnomaly => (s.finish .siliconAnomaly).setProg []
  | .finish r :: _, s => (s.finish r).setProg []
  | .conclude :: _, s => (s.finish s.transferResult).setProg []

/-- The CORE's turn: its next step while an operation is in flight; while it is not, nothing (R177). -/
def coreTurn (s : State) : Host.Outcome State Fault Refusal :=
  if s.busy then
    match s.prog with
    | [] => .fault .noProgram
    | m :: rest => .next (tick (m :: rest) s)
  else .next s

/-- An operation issued and run to its end: refused, or accepted and then its whole program (R10, R27). -/
def operate (guard : Option Refusal) (prog : List Micro) (accepted : State) : Host.Outcome State Fault Refusal :=
  match guard with
  | some r => .refused r
  | none => .next (run prog accepted)

/-- An operation issued and only accepted, its program left to the CORE's turns (R27). -/
def post (guard : Option Refusal) (prog : List Micro) (accepted : State) : Host.Outcome State Fault Refusal :=
  match guard with
  | some r => .refused r
  | none => .next (accepted.setProg prog)

end Sys2Proof.Machine
end

