-- ==== Sys2Proof/Machine/Configure.lean ====
section
/-! DEFINITION. CFG, the configure operation (R103 to R111). -/

namespace Sys2Proof.Machine

/-- When CFG is refused (R102, R108). -/
def cfgGuard (s : State) : Option Refusal :=
  if s.busy then some .commandWhileBusy
  else if s.freq = 0#32 then some .freqZero
  else none

/-- Acceptance of CFG: OPC = 0b00, LEN = 0, STOPF = 0 (R27, R70). -/
def cfgAccept (s : State) : State := s.accept 0b00#2 0#16 false

/-- The program of CFG (R108). -/
def cfgProgram : List Micro :=
  [.prim .pin, .wait .w1, .prim (.masen false), .prim (.phase .idle), .divide]

/-- CFG (R108). -/
def execCfg (s : State) : Host.Outcome State Fault Refusal :=
  operate (cfgGuard s) cfgProgram (cfgAccept s)

/-- CFG accepted only (R27). -/
def postCfg (s : State) : Host.Outcome State Fault Refusal :=
  post (cfgGuard s) cfgProgram (cfgAccept s)

end Sys2Proof.Machine
end

