-- ==== Sys2Proof/Machine/ReadEngine.lean ====
section
/-! DEFINITION. RD, the read engine (R127 to R139). -/

namespace Sys2Proof.Machine

/-- When RD is refused (R74, R128). -/
def rdGuard (len : BitVec 16) (s : State) : Option Refusal :=
  if s.busy then some .commandWhileBusy
  else if len = 0#16 then some (.illegalCommand .lenZero)
  else if s.params.nbuf < len.toNat then some (.illegalCommand .lenAboveNbuf)
  else none

/-- Acceptance of RD: OPC = 0b10, STOPF = 0 (R27, R72). -/
def rdAccept (len : BitVec 16) (s : State) : State := s.accept 0b10#2 len false

/-- Steps 1 and 2 of RD: the receive counter, the address (R131, R132). The master is not enabled (R129). -/
def rdHead : List Micro :=
  [.prim (.phase .addressPhase), .prim .rxcnt, .prim (.addr1 true), .prim .addr2, .prim (.phase .byteTransferLoop)]

/-- The byte loop of RD, `k` iterations from index `i` on (R133). -/
def rdLoop (i : Nat) : Nat → List Micro
  | 0 => []
  | k + 1 => .prim (.idx i) :: .wait .w5 :: .prim (.drain i) :: rdLoop (i + 1) k

/-- Steps 4 and 5 of RD (R135, R136). -/
def rdTail : List Micro :=
  [.prim (.phase .busFreeWait), .wait .w6, .prim (.masen false), .prim (.phase .idle), .conclude]

/-- The program of RD of `c` bytes (R134). -/
def rdProgram (c : Nat) : List Micro := rdHead ++ (rdLoop 0 c ++ rdTail)

/-- RD (R134). -/
def execRd (len : BitVec 16) (s : State) : Host.Outcome State Fault Refusal :=
  operate (rdGuard len s) (rdProgram len.toNat) (rdAccept len s)

/-- RD accepted only (R27). -/
def postRd (len : BitVec 16) (s : State) : Host.Outcome State Fault Refusal :=
  post (rdGuard len s) (rdProgram len.toNat) (rdAccept len s)

end Sys2Proof.Machine
end

