-- ==== Sys2Proof/Machine/WriteEngine.lean ====
section
/-! DEFINITION. WR, the write engine (R113 to R126). -/

namespace Sys2Proof.Machine

/-- When WR is refused (R74, R114). -/
def wrGuard (len : BitVec 16) (s : State) : Option Refusal :=
  if s.busy then some .commandWhileBusy
  else if len = 0#16 then some (.illegalCommand .lenZero)
  else if s.params.nbuf < len.toNat then some (.illegalCommand .lenAboveNbuf)
  else if s.wbuf.written len.toNat then none
  else some .wbufUnwritten

/-- Acceptance of WR: OPC = 0b01 (R27, R71). -/
def wrAccept (len : BitVec 16) (stop : Bool) (s : State) : State := s.accept 0b01#2 len stop

/-- Steps 1 to 3 of WR: enable and flush, the first byte, the address (R116 to R118). -/
def wrHead : List Micro :=
  [.prim (.phase .masterEnabled), .prim (.masen true), .prim (.txflush true), .prim (.txflush false),
    .prim (.phase .addressPhase), .prim (.idx 0), .prim (.stage 0), .prim (.addr1 false), .prim .addr2,
    .prim (.phase .byteTransferLoop)]

/-- The byte loop of WR, `k` iterations from index `i` on (R119). -/
def wrLoop (i : Nat) : Nat → List Micro
  | 0 => []
  | k + 1 => .prim (.idx i) :: .wait .w2 :: .prim (.stage i) :: wrLoop (i + 1) k

/-- Step 5 of WR: stop, or hold (R120), and then the result (R122). -/
def wrTail (stop : Bool) : List Micro :=
  if stop then
    [.prim (.phase .stopPhase), .wait .w3, .prim (.phase .busFreeWait), .wait .w4, .prim (.masen false),
      .prim (.phase .idle), .conclude]
  else [.prim (.phase .held), .conclude]

/-- The program of WR of `n` bytes (R121). -/
def wrProgram (n : Nat) (stop : Bool) : List Micro := wrHead ++ (wrLoop 1 (n - 1) ++ wrTail stop)

/-- WR (R121). -/
def execWr (len : BitVec 16) (stop : Bool) (s : State) : Host.Outcome State Fault Refusal :=
  operate (wrGuard len s) (wrProgram len.toNat stop) (wrAccept len stop s)

/-- WR accepted only (R27). -/
def postWr (len : BitVec 16) (stop : Bool) (s : State) : Host.Outcome State Fault Refusal :=
  post (wrGuard len s) (wrProgram len.toNat stop) (wrAccept len stop s)

end Sys2Proof.Machine
end

