-- ==== Sys2Proof/Machine/Dispatch.lean ====
section
/-! DEFINITION. One arm per instruction of the opcode table (R69). -/

namespace Sys2Proof.Machine

def exec (i : Instr) (s : State) : Host.Outcome State Fault Refusal :=
  match i with
  | .cfg => Sys2Proof.Machine.execCfg s
  | .wr len stop => Sys2Proof.Machine.execWr len stop s
  | .rd len => Sys2Proof.Machine.execRd len s

end Sys2Proof.Machine
end

