-- ==== Sys2Proof/Machine/HostPort.lean ====
section
/-! DEFINITION. The host side: the register map (R42), access shape (R43), reserved and read-only places (R44), accesses
while BUSY (R45), reads without side effects (R46), and a command word written to CMD (R27, R74). -/

namespace Sys2Proof.Machine

/-- The register a byte offset names (R42). -/
inductive HostReg where
  | cmd
  | stat
  | inclk
  | freq
  | saddr
  | pincfg
  | div
  | tocnt
  | toByte
  | toStop
  | toFree
  | toTcomp
  | reserved
  | wbuf (i : Nat)
  | rbuf (i : Nat)
  deriving DecidableEq, Repr

/-- The host register map (R42). An offset past the last RBUF entry counts as a buffer offset with `i >= NBUF`
(DEDUCED, log 11). -/
def regAt (off : Nat) : HostReg :=
  if off = 0x00 then .cmd
  else if off = 0x04 then .stat
  else if off = 0x08 then .inclk
  else if off = 0x0C then .freq
  else if off = 0x10 then .saddr
  else if off = 0x14 then .pincfg
  else if off = 0x18 then .div
  else if off = 0x1C then .tocnt
  else if off = 0x20 then .toByte
  else if off = 0x24 then .toStop
  else if off = 0x28 then .toFree
  else if off = 0x2C then .toTcomp
  else if off < 0x40000 then .reserved
  else if off < 0x80000 then .wbuf ((off - 0x40000) / 4)
  else .rbuf ((off - 0x80000) / 4)

/-- An aligned 32-bit access (R43). -/
def accessShape (size off : Nat) : Bool := decide (size = 4) && decide (off % 4 = 0)

/-- A host read of a buffer entry: the byte, 0 past the buffer, a free value where nothing was written (R42, R44). -/
def State.readEntry (s : State) (m : Memory) (i : Nat) : Word × State :=
  if i < s.params.nbuf then
    match s.entry m i with
    | (b, s1) => (b.setWidth 32, s1)
  else (0#32, s)

/-- The value a host read of a register returns (R42, R44). -/
def State.readReg (s : State) (r : HostReg) : Word × State :=
  match r with
  | .cmd => (0#32, s)
  | .stat => (s.statWord, s)
  | .inclk => (s.inclk, s)
  | .freq => (s.freq, s)
  | .saddr => (s.saddr.setWidth 32, s)
  | .pincfg => (s.pincfg, s)
  | .div => (s.divWord, s)
  | .tocnt => (s.tocnt, s)
  | .toByte => (s.toByte, s)
  | .toStop => (s.toStop, s)
  | .toFree => (s.toFree, s)
  | .toTcomp => (s.toTcomp, s)
  | .reserved => (0#32, s)
  | .wbuf i => s.readEntry s.wbuf i
  | .rbuf i => s.readEntry s.rbuf i

/-- A host read (R43 to R46): the value goes to the host and nothing else changes. -/
def hostRead (size off : Nat) (s : State) : Host.Outcome State Fault Refusal :=
  if accessShape size off then
    match s.readReg (regAt off) with
    | (v, s1) => .next { s1 with readData := v }
  else .refused .hostAccessShape

/-- The effect of a host write on a register other than CMD; a read-only or reserved place ignores it (R42, R44). -/
def State.writeReg (s : State) (r : HostReg) (v : Word) : State :=
  match r with
  | .cmd => s
  | .stat => s
  | .inclk => { s with inclk := v }
  | .freq => { s with freq := v }
  | .saddr => { s with saddr := v.setWidth 7 }
  | .pincfg => { s with pincfg := v }
  | .div => s
  | .tocnt => s
  | .toByte => { s with toByte := v }
  | .toStop => { s with toStop := v }
  | .toFree => { s with toFree := v }
  | .toTcomp => { s with toTcomp := v }
  | .reserved => s
  | .wbuf i => if i < s.params.nbuf then { s with wbuf := s.wbuf.write i (v.setWidth 8) } else s
  | .rbuf _ => s

/-- A command accepted only, by its instruction (R27). -/
def postCommand (i : Instr) (s : State) : Host.Outcome State Fault Refusal :=
  match i with
  | .cfg => postCfg s
  | .wr len stop => postWr len stop s
  | .rd len => postRd len s

/-- A host write (R43 to R45): refused for its shape, refused while BUSY = 1 (log 12), a command word at CMD (R27, R74),
else the register's write. -/
def hostWrite (size off : Nat) (v : Word) (s : State) : Host.Outcome State Fault Refusal :=
  if accessShape size off then
    if s.busy then .refused .hostWriteWhileBusy
    else
      match regAt off with
      | .cmd =>
        match readCommand s.params.nbuf v with
        | .illegal e => .refused (.illegalCommand e)
        | .command i => postCommand i s
      | r => .next (s.writeReg r v)
  else .refused .hostAccessShape

/-- The instruction of the command word the machine takes next: a host's blocking call while BUSY = 0 (R24, R84). -/
def fetch (w : Word) (s : State) : Except Refusal Instr :=
  if s.busy then .error .hostWriteWhileBusy
  else
    match readCommand s.params.nbuf w with
    | .illegal e => .error (.illegalCommand e)
    | .command i => .ok i

/-- Place a command so that the very next step takes it: a blocking call before all other moves (log 8). -/
def State.place (s : State) (w : Word) : State := { s with turns := .call w :: s.turns }

end Sys2Proof.Machine
end

