-- ==== Sys2Proof/Machine/Step.lean ====
section
/-! DEFINITION. One step of the machine: the next move of the total order of host and CORE (R12, R43, R62). -/

namespace Sys2Proof.Machine

/-- One step: the first move of `turns`, or, where none is left, the CORE's turn. -/
def step (s : State) : Host.Outcome State Fault Refusal :=
  match s.turns with
  | [] => coreTurn s
  | .core :: ts => coreTurn (s.setTurns ts)
  | .reset :: ts => .next (s.setTurns ts).coreReset
  | .read size off :: ts => hostRead size off (s.setTurns ts)
  | .write size off v :: ts => hostWrite size off v (s.setTurns ts)
  | .call w :: ts =>
    match fetch w (s.setTurns ts) with
    | .error r => .refused r
    | .ok i => exec i (s.setTurns ts)

/-- The state with the table word placed as the next command (log 8). -/
def State.withFetchWord (s : State) (nbits w : Nat) : State := s.place (tableWord nbits w)

end Sys2Proof.Machine
end

