-- ==== Sys2Proof/Safety.lean ====
section
/-! DEFINITION. The terms claims use: projections of the port record, the shape of waits and of the byte loops, and the
invariant of the machine. Nothing here is part of the machine. -/

namespace Sys2Proof.Safety

open Sys2Proof.Machine

/-! ### Projections of the port record (R76) -/

/-- The event is a `PWrite`. -/
def isWrite : PortEvent → Bool
  | .write _ _ => true
  | .read _ _ => false
  | .pin _ => false

/-- The event is one poll: a `PRead` of a status field (R51, R88). -/
def isPoll : PortEvent → Bool
  | .write _ _ => false
  | .read f _ => decide (f ≠ .rx)
  | .pin _ => false

/-- The port writes of a record, in order. -/
def writes (t : List PortEvent) : List PortEvent := t.filter isWrite

/-- The number of polls of a record. -/
def pollCount (t : List PortEvent) : Nat := t.countP isPoll

/-- The value of the event if it is a write of MASEN. -/
def masenValue : PortEvent → Option Word
  | .write .masen v => some v
  | .write _ _ => none
  | .read _ _ => none
  | .pin _ => none

/-- The master enable as the CORE last wrote it, if it ever did (R34 a, R150). -/
def masterEnable (t : List PortEvent) : Option Word := (t.filterMap masenValue).getLast?

/-- The value of the event if it is a write of DIV. -/
def divWritten : PortEvent → Option Word
  | .write .div v => some v
  | .write _ _ => none
  | .read _ _ => none
  | .pin _ => none

/-- The event respects the port: the CORE reads only R fields and writes only W fields (R51), and the value fits the
field's width (R52, R53). -/
def eventFits (p : Params) : PortEvent → Bool
  | .write f v => !f.readable && decide (v.toNat < 2 ^ f.width p)
  | .read f v => f.readable && decide (v.toNat < 2 ^ f.width p)
  | .pin _ => true

/-! ### Shapes of the record -/

/-- A poll of the site's field that returned `v`. -/
def pollOf (w : Site) (v : Bool) : PortEvent := .read w.field (bitValue v)

/-- The polls of one wait with budget `budget` and result `r`, and what it leaves in TOCNT (R89 b, c): on OK, fewer than
`budget` misses and then a match; on TIMEOUT, exactly `budget` misses. -/
def Polls (w : Site) (budget : Nat) (r : WaitResult) (left : Nat) (evs : List PortEvent) : Prop :=
  match r with
  | .ok => ∃ k, k < budget ∧ left = budget - k ∧ evs = List.replicate k (pollOf w (!w.want)) ++ [pollOf w w.want]
  | .timeout => left = 0 ∧ evs = List.replicate budget (pollOf w (!w.want))

/-- WBUF[i] as a port value, for an entry that is written. -/
def wbufWord (m : Memory) (i : Nat) : Word := ((m.read i).getD 0#8).setWidth 32

/-- The record of the byte loop of WR (R119, R123), `k` iterations from `i` on with byte budget `budget`: `late` says
whether some wait was exhausted, `before` and `after` are what TOCNT holds around the loop. -/
def WrLoopTrace (m : Memory) (budget : Nat) : Nat → Nat → Bool → Nat → Nat → List PortEvent → Prop
  | _, 0, late, before, after, evs => late = false ∧ after = before ∧ evs = []
  | i, k + 1, late, _, after, evs =>
    ∃ r left polls late' rest, Polls .w2 budget r left polls ∧ WrLoopTrace m budget (i + 1) k late' left after rest ∧
      late = (decide (r = .timeout) || late') ∧ evs = polls ++ .write .tx (wbufWord m i) :: rest

/-- The record of the byte loop of RD (R133, R137), with the octets drained. -/
def RdLoopTrace (budget : Nat) : Nat → Bool → List Byte → List PortEvent → Prop
  | 0, late, bytes, evs => late = false ∧ bytes = [] ∧ evs = []
  | k + 1, late, bytes, evs =>
    ∃ r left polls late' b bytes' rest, Polls .w5 budget r left polls ∧ RdLoopTrace budget k late' bytes' rest ∧
      late = (decide (r = .timeout) || late') ∧ bytes = b :: bytes' ∧
      evs = polls ++ .read .rx (b.setWidth 32) :: rest

/-- The port values of the TX writes of a record, in order (R47). -/
def txValue : PortEvent → Option Word
  | .write .tx v => some v
  | .write _ _ => none
  | .read _ _ => none
  | .pin _ => none

/-- The octets a record's RX reads returned, in order (R47). -/
def rxValue : PortEvent → Option Byte
  | .read .rx v => some (v.setWidth 8)
  | .read _ _ => none
  | .write _ _ => none
  | .pin _ => none

/-- Bit 0 of an answer, what a status read sees of it (log 17). -/
def answerBit (a : Byte) : Bool := a.getLsbD 0

/-- The answer the environment gives to the `j`-th port read from now on: the listed one, or past the list the free value
(log 4). -/
def upcoming (s : State) (j : Nat) : Byte :=
  match s.answers[j]? with
  | some a => a
  | none => Config.portAnswer (s.draws + (j - s.answers.length))

/-! ### When an operation executes -/

/-- The conditions under which the spec gives an operation its meaning: BUSY = 0 and a legal command (R74), FREQ not 0 for
CFG (R102), every byte to be staged written for WR (R114). -/
def Ready (i : Instr) (s : State) : Prop :=
  s.busy = false ∧ WellFormed s.params.nbuf i = true ∧
    match i with
    | .cfg => s.freq ≠ 0#32
    | .wr len _ => ∀ j < len.toNat, (s.wbuf.read j).isSome = true
    | .rd _ => True

/-! ### What the host can see of a running operation (R45, R155) -/

/-- Moves that leave an operation in flight alone: turns of the CORE and host reads (R45). -/
def OnlyReads (ts : List Turn) : Prop := ∀ m ∈ ts, m = .core ∨ ∃ size off, m = .read size off

/-- In `s` the word of command `i` is written to CMD and accepted, and `u` is a state reached from there by turns of the
CORE and host reads, in any order, while the operation still runs. -/
def InFlight (i : Instr) (s u : State) : Prop :=
  Ready i s ∧ ∃ ts k, s.turns = .write 4 0 (encode i) :: ts ∧ OnlyReads ts ∧
    Host.Core.run Sys2Proof.core (k + 1) s = .next u ∧ u.busy = true

/-- The event moves one octet: a write of TX or a read of RX. -/
def isOctet : PortEvent → Bool
  | .write f _ => decide (f = .tx)
  | .read f _ => decide (f = .rx)
  | .pin _ => false

/-- The octets moved so far by the events of an operation. -/
def octets (evs : List PortEvent) : Nat := evs.countP isOctet

/-- The PHASE in which WR makes an event (R115, R121), the `moved`-th octet being the last one moved. The first byte is
staged in AddressPhase, the others in ByteTransferLoop; the disable comes before Idle is set. -/
def wrPhaseAt (moved : Nat) : PortEvent → Phase
  | .write .masen v => if v = 1#32 then .masterEnabled else .busFreeWait
  | .write .txflush _ => .masterEnabled
  | .write .tx _ => if moved = 1 then .addressPhase else .byteTransferLoop
  | .write .addr1 _ => .addressPhase
  | .write .addr2 _ => .addressPhase
  | .read .txreq _ => .byteTransferLoop
  | .read .stopdet _ => .stopPhase
  | .read .busfree _ => .busFreeWait
  | _ => .idle

/-- IDX as WR makes an event (R23, R121): as before the operation until the first byte is staged, the byte waited for at a
poll of TXREQ, else the byte last staged. -/
def wrIdxAt (before : BitVec 16) (moved : Nat) : PortEvent → BitVec 16
  | .read .txreq _ => BitVec.ofNat 16 moved
  | _ => if moved = 0 then before else BitVec.ofNat 16 (moved - 1)

/-- The PHASE in which RD makes an event (R130, R134). The disable comes before Idle is set. -/
def rdPhaseAt : PortEvent → Phase
  | .write .rxcnt _ => .addressPhase
  | .write .addr1 _ => .addressPhase
  | .write .addr2 _ => .addressPhase
  | .read .rxreq _ => .byteTransferLoop
  | .read .rx _ => .byteTransferLoop
  | .read .busfree _ => .busFreeWait
  | .write .masen _ => .busFreeWait
  | _ => .idle

/-- IDX as RD makes an event (R23, R134): as before the operation until the loop, the byte waited for at a poll of RXREQ,
else the byte last drained. -/
def rdIdxAt (before : BitVec 16) (moved : Nat) : PortEvent → BitVec 16
  | .read .rxreq _ => BitVec.ofNat 16 moved
  | _ => if moved = 0 then before else BitVec.ofNat 16 (moved - 1)

/-- The PHASE in which CFG makes an event (R22, R108): as before the operation until the master is disabled, then Idle. -/
def cfgPhaseAt (before : Phase) : PortEvent → Phase
  | .write .div _ => .idle
  | _ => before

/-- The event is a poll, or a read, of the field. -/
def isReadOf (f : PortField) : PortEvent → Bool
  | .read g _ => decide (g = f)
  | .write _ _ => false
  | .pin _ => false

/-- How many reads of the field the events end with. -/
def trailing (f : PortField) (evs : List PortEvent) : Nat := (evs.reverse.takeWhile (isReadOf f)).length

/-! ### The invariant -/

/-- The divider mirror: while DIVVALID = 1 it holds a pair the calculator accepts (R19); before, it is 0 (R36). -/
def MirrorSound (s : State) : Prop :=
  if s.divvalid then
    s.divl.toNat = s.divh.toNat + 1 ∧ 8 ≤ s.divh.toNat ∧ 17 ≤ s.divh.toNat + s.divl.toNat ∧
      s.divl.toNat < 2 ^ s.params.divw
  else s.divh = 0#16 ∧ s.divl = 0#16

/-- The buffers are in canonical form and hold entries below NBUF only (R31, R32; log 6). -/
def BuffersSound (s : State) : Prop :=
  s.wbuf.wf = true ∧ s.rbuf.wf = true ∧ s.wbuf.below s.params.nbuf = true ∧ s.rbuf.below s.params.nbuf = true

/-- From PHASE `p` the program ends, and wherever it can end PHASE is Idle or Held (R22, R149). -/
def settles : Phase → List Micro → Bool
  | _, [] => false
  | _, .prim (.phase p) :: rest => settles p rest
  | p, .prim _ :: rest => settles p rest
  | p, .wait w :: rest => (!w.aborts || p.quiescent) && settles p rest
  | p, .poll w :: rest => (!w.aborts || p.quiescent) && settles p rest
  | p, .divide :: _ => p.quiescent
  | p, .finish _ :: _ => p.quiescent
  | p, .conclude :: _ => p.quiescent

/-- Every buffer index a program uses is below `n` (R114, R128). -/
def indicesBelow (n : Nat) : List Micro → Bool
  | [] => true
  | .prim (.stage i) :: rest => decide (i < n) && indicesBelow n rest
  | .prim (.drain i) :: rest => decide (i < n) && indicesBelow n rest
  | .prim _ :: rest => indicesBelow n rest
  | .wait _ :: rest => indicesBelow n rest
  | .poll _ :: rest => indicesBelow n rest
  | .divide :: rest => indicesBelow n rest
  | .finish _ :: rest => indicesBelow n rest
  | .conclude :: rest => indicesBelow n rest

/-- The sequencer: while BUSY = 0 nothing is left to do and PHASE is Idle or Held; while BUSY = 1, DONE = 0 and a program
that settles is left (R22, R24, R25, R177). -/
def SequencerSound (s : State) : Prop :=
  if s.busy then
    s.done = false ∧ settles s.phase s.prog = true ∧ indicesBelow s.params.nbuf s.prog = true
  else s.prog = [] ∧ s.phase.quiescent = true

/-- Every port event so far respects the port (R51 to R53). -/
def TraceSound (s : State) : Prop := ∀ e ∈ s.trace, eventFits s.params e = true

/-- The invariant of the machine. -/
def Inv (s : State) : Prop :=
  s.params.Legal ∧ MirrorSound s ∧ BuffersSound s ∧ SequencerSound s ∧ TraceSound s

end Sys2Proof.Safety
end

