-- ==== Sys2Proof/Certificates/Slice0/Obligations.lean ====
section
/-! DEFINITION. The statements for the provers, each from the numbered rules of spec/. -/

open Sys2Proof Sys2Proof.Machine Sys2Proof.Safety

/-! ### Encoding (30_encoding.md) -/

/-- R70 to R72 and R74 on words of 95_test_vectors.md 2.1, with NBUF = 256. -/
def Obligations.SampleCommandWordsRead : Prop :=
  readCommand 256 0x00000000#32 = .command .cfg ∧
  readCommand 256 0x00010001#32 = .command (.wr 1#16 false) ∧
  readCommand 256 0x00030005#32 = .command (.wr 3#16 true) ∧
  readCommand 256 0x01000001#32 = .command (.wr 256#16 false) ∧
  readCommand 256 0x00070002#32 = .command (.rd 7#16) ∧
  readCommand 256 0x01000002#32 = .command (.rd 256#16) ∧
  readCommand 256 0x00000001#32 = .illegal .lenZero ∧
  readCommand 256 0x00000004#32 = .illegal .cfgStop ∧
  readCommand 256 0x00010000#32 = .illegal .cfgLen ∧
  readCommand 256 0x00020006#32 = .illegal .rdStop ∧
  readCommand 256 0x00030003#32 = .illegal .reservedOp ∧
  readCommand 256 0x00030009#32 = .illegal .reservedBits ∧
  readCommand 256 0x01010001#32 = .illegal .lenAboveNbuf

/-- R70 to R73: reading the word of a well-formed command gives that command back, for every LEN and STOP.
The LEN range is checked in `readCommand`, the model's choice (log 10). -/
def Obligations.EncodedCommandReadsBack : Prop :=
  ∀ (nbuf : Nat) (i : Instr), WellFormed nbuf i = true →
    decode (encode i) = .command i ∧ readCommand nbuf (encode i) = .command i

/-- R70 to R72: a command has one word only. -/
def Obligations.CommandHasOneWord : Prop :=
  ∀ (w : Word) (i : Instr), decode w = .command i → encode i = w

/-- R74, with the words of R70 to R72 written as those rules give them: which words are legal, which are illegal, and that
an illegal word, a WR over an unwritten entry and a command while BUSY = 1 are refused. -/
def Obligations.CommandWordsLegalOrRefused : Prop :=
  (∀ (nbuf : Nat) (w : Word),
    ((∃ i, readCommand nbuf w = .command i) ↔
      w = 0x00000000#32 ∨
      (∃ (n : BitVec 16) (st : Bool), 1 ≤ n.toNat ∧ n.toNat ≤ nbuf ∧
        w = (n.setWidth 32 <<< 16) ||| ((BitVec.ofBool st).setWidth 32 <<< 2) ||| 1#32) ∨
      (∃ c : BitVec 16, 1 ≤ c.toNat ∧ c.toNat ≤ nbuf ∧ w = (c.setWidth 32 <<< 16) ||| 2#32)) ∧
    ((∃ e, readCommand nbuf w = .illegal e) ↔
      fieldOp w = 0b11#2 ∨ fieldZero w ≠ 0#13 ∨
      (fieldOp w = 0b00#2 ∧ (fieldStop w = true ∨ fieldLen w ≠ 0#16)) ∨
      (fieldOp w = 0b10#2 ∧ fieldStop w = true) ∨
      ((fieldOp w = 0b01#2 ∨ fieldOp w = 0b10#2) ∧ (fieldLen w = 0#16 ∨ nbuf < (fieldLen w).toNat)))) ∧
  (∀ (s : State) (w : Word) (e : DecodeError) (ts : List Turn), s.busy = false →
    readCommand s.params.nbuf w = .illegal e →
    (s.turns = .call w :: ts ∨ s.turns = .write 4 0 w :: ts) → step s = .refused (.illegalCommand e)) ∧
  (∀ (s : State) (w : Word) (len : BitVec 16) (stop : Bool) (j : Nat) (ts : List Turn), s.busy = false →
    readCommand s.params.nbuf w = .command (.wr len stop) → j < len.toNat → s.wbuf.read j = none →
    (s.turns = .call w :: ts ∨ s.turns = .write 4 0 w :: ts) → step s = .refused .wbufUnwritten) ∧
  (∀ (s : State) (w : Word) (ts : List Turn), s.busy = true →
    (s.turns = .call w :: ts ∨ s.turns = .write 4 0 w :: ts) → step s = .refused .hostWriteWhileBusy)

/-! ### Operand values (R77 to R79) -/

/-- R77: bits 7:1 of ADDR1 are SADDR, bit 0 is the direction, and ADDR2 is 0. -/
def Obligations.AddressValuesCarrySaddr : Prop :=
  ∀ (saddr : BitVec 7) (d : Bool),
    (addr1Value saddr d).extractLsb' 1 7 = saddr ∧ (addr1Value saddr d).getLsbD 0 = d ∧
    (addr1Value saddr d).toNat = 2 * saddr.toNat + d.toNat ∧ addr2Value = 0x00#8

/-- R78: RXCNT of a legal RD is LEN - 1 and fits the field. -/
def Obligations.ReceiveCounterIsCountLessOne : Prop :=
  ∀ (p : Params) (len : BitVec 16), p.Legal → WellFormed p.nbuf (.rd len) = true →
    (rxcntValue p len).toNat = len.toNat - 1 ∧ len.toNat - 1 < 2 ^ p.rxcntw

/-- R79: the upper DIVW bits of the DIV value are HIGH, the lower LOW, and the value fits 2 * DIVW bits. -/
def Obligations.DividerValueHoldsBothHalves : Prop :=
  ∀ (p : Params) (h l : BitVec 16), p.Legal → h.toNat < 2 ^ p.divw → l.toNat < 2 ^ p.divw →
    (divValue p h l).toNat / 2 ^ p.divw = h.toNat ∧ (divValue p h l).toNat % 2 ^ p.divw = l.toNat ∧
    (divValue p h l).toNat < 2 ^ (2 * p.divw)

/-! ### The Wait primitive (40_timeout_countdown.md) -/

/-- R89: a wait makes at most B polls and returns. In every state it returns OK exactly after fewer than B misses and then
a match, and TIMEOUT exactly after B misses (`Polls`), with TOCNT as the rule says; TOCNT = 0 afterwards exactly on TIMEOUT.
And by the environment's answers: a match at poll k <= B gives OK after exactly k polls with TOCNT = B - k + 1 and no
further answer asked for; B misses, none for B = 0, give TIMEOUT with TOCNT = 0 and no further answer asked for. -/
def Obligations.WaitCountsPolls : Prop :=
  ∀ (s : State) (w : Site),
    (∃ left polls, Polls w (w.budget s).toNat (s.wait w).1 left polls ∧ polls.length ≤ (w.budget s).toNat ∧
      (s.wait w).2.tocnt.toNat = left ∧ (s.wait w).2.trace = s.trace ++ polls) ∧
    ((s.wait w).2.tocnt = 0#32 ↔ (s.wait w).1 = .timeout) ∧
    (∀ (misses rest : List Byte) (hit : Byte), s.answers = misses ++ hit :: rest →
      (∀ a ∈ misses, answerBit a ≠ w.want) → answerBit hit = w.want → misses.length < (w.budget s).toNat →
      s.wait w = (.ok, { s with
        tocnt := BitVec.ofNat 32 ((w.budget s).toNat - (misses.length + 1) + 1)
        trace := s.trace ++ List.replicate misses.length (pollOf w (!w.want)) ++ [pollOf w w.want]
        answers := rest })) ∧
    (∀ (misses rest : List Byte), s.answers = misses ++ rest → (∀ a ∈ misses, answerBit a ≠ w.want) →
      misses.length = (w.budget s).toNat →
      s.wait w = (.timeout, { s with
        tocnt := 0#32
        trace := s.trace ++ List.replicate misses.length (pollOf w (!w.want))
        answers := rest }))

/-- R92: a wait depends on its own budget and on the answers to its own polls only: where two states agree on the site's
budget and the environment's answers agree on the polls the wait makes in the first, whatever comes after them, it makes
the same polls in the second, with the same result and TOCNT (the answers as log 4 and 17 hold them). -/
def Obligations.WaitIndependentOfEarlierWaits : Prop :=
  ∀ (s u : State) (w : Site) (evs : List PortEvent), w.budget s = w.budget u → (s.wait w).2.trace = s.trace ++ evs →
    (∀ j < evs.length, answerBit (upcoming s j) = answerBit (upcoming u j)) →
    (u.wait w).1 = (s.wait w).1 ∧ (u.wait w).2.tocnt = (s.wait w).2.tocnt ∧ (u.wait w).2.trace = u.trace ++ evs

/-- R93: every accepted operation ends, and how many polls it can make. -/
def Obligations.OperationPollsBounded : Prop :=
  ∀ s : State,
    (Ready .cfg s → ∃ t, exec .cfg s = .next t ∧ t.busy = false ∧ t.done = true ∧
      pollCount t.trace ≤ pollCount s.trace + s.toTcomp.toNat) ∧
    (∀ len stop, Ready (.wr len stop) s → ∃ t, exec (.wr len stop) s = .next t ∧ t.busy = false ∧ t.done = true ∧
      pollCount t.trace ≤ pollCount s.trace + (len.toNat - 1) * s.toByte.toNat +
        (if stop then s.toStop.toNat + s.toFree.toNat else 0)) ∧
    (∀ len, Ready (.rd len) s → ∃ t, exec (.rd len) s = .next t ∧ t.busy = false ∧ t.done = true ∧
      pollCount t.trace ≤ pollCount s.trace + len.toNat * s.toByte.toNat + s.toFree.toNat)

/-! ### The divider calculator (41_configure_divider.md) -/

/-- R99: the verdict by the quotient and by the ratio of the inputs. -/
def Obligations.DividerVerdictByRatio : Prop :=
  ∀ (divw : Nat) (c f : Word), 4 ≤ divw → divw ≤ 16 → f ≠ 0#32 →
    let q := (c.toNat + f.toNat) / (2 * f.toNat)
    (q ≤ 1 → divCalc divw c f = .wrongFrequency) ∧
    (2 ≤ q → q ≤ 9 → divCalc divw c f = .siliconAnomaly) ∧
    (10 ≤ q → 2 ^ divw < q → divCalc divw c f = .wrongFrequency) ∧
    (10 ≤ q → q ≤ 2 ^ divw → ∃ h l, divCalc divw c f = .success h l ∧ h.toNat = q - 2 ∧ l.toNat = q - 1) ∧
    (q ≤ 1 ↔ c.toNat < 3 * f.toNat) ∧ (q ≤ 9 ↔ c.toNat < 19 * f.toNat) ∧
    (2 ^ divw < q ↔ (2 ^ (divw + 1) + 1) * f.toNat ≤ c.toNat) ∧
    ((∃ h l, divCalc divw c f = .success h l) ↔
      19 * f.toNat ≤ c.toNat ∧ c.toNat < (2 ^ (divw + 1) + 1) * f.toNat)

/-- R97, R98, R100, E5: an accepted pair has low = high + 1, a sum above the erratum threshold, and fits the fields. -/
def Obligations.AcceptedPairClearsErratum : Prop :=
  ∀ (divw : Nat) (c f : Word) (h l : BitVec 16), 4 ≤ divw → divw ≤ 16 → divCalc divw c f = .success h l →
    l.toNat = h.toNat + 1 ∧ 15 < h.toNat + l.toNat ∧ 0 < h.toNat ∧ 0 < l.toNat ∧ l.toNat < 2 ^ divw

/-- R101: the corner cases (a) to (h), over all inputs where the rule speaks of all. -/
def Obligations.DividerCornerCases : Prop :=
  (∀ divw (f : Word), f ≠ 0#32 → roundedQuotient 0#32 f = 0 ∧ divCalc divw 0#32 f = .wrongFrequency) ∧
  (∀ divw (c f : Word), c.toNat < f.toNat → roundedQuotient c f = 0 ∧ divCalc divw c f = .wrongFrequency) ∧
  (∀ divw (c f : Word), f ≠ 0#32 → f.toNat ≤ c.toNat → c.toNat < 3 * f.toNat →
    roundedQuotient c f = 1 ∧ divCalc divw c f = .wrongFrequency) ∧
  (∀ divw (c f : Word), f ≠ 0#32 → c.toNat = 3 * f.toNat →
    roundedQuotient c f = 2 ∧ roundedQuotient c f - 2 = 0 ∧ roundedQuotient c f - 1 = 1 ∧
    divCalc divw c f = .siliconAnomaly) ∧
  (∀ divw (c f : Word), f ≠ 0#32 → c.toNat + 1 = 19 * f.toNat →
    roundedQuotient c f = 9 ∧ roundedQuotient c f - 2 = 7 ∧ roundedQuotient c f - 1 = 8 ∧
    (roundedQuotient c f - 2) + (roundedQuotient c f - 1) = 15 ∧ divCalc divw c f = .siliconAnomaly) ∧
  (∀ divw (c f : Word), 4 ≤ divw → f ≠ 0#32 → c.toNat = 19 * f.toNat →
    roundedQuotient c f = 10 ∧ (roundedQuotient c f - 2) + (roundedQuotient c f - 1) = 17 ∧
    divCalc divw c f = .success 8#16 9#16) ∧
  (∀ divw (c f : Word) (h l : BitVec 16), divw ≤ 16 → divCalc divw c f = .success h l →
    8 ≤ h.toNat ∧ 9 ≤ l.toNat ∧ (h.toNat + l.toNat) % 2 = 1 ∧ h.toNat + l.toNat ≠ 16) ∧
  (roundedQuotient 26000000#32 400000#32 = 33 ∧ divCalc 8 26000000#32 400000#32 = .success 31#16 32#16) ∧
  (∀ (c f : Word), roundedQuotient c f = 256 → divCalc 8 c f = .success 254#16 255#16) ∧
  (∀ (c f : Word), roundedQuotient c f = 257 → divCalc 8 c f = .wrongFrequency)

/-! ### CFG (41_configure_divider.md) -/

/-- R108: CFG executes whenever BUSY = 0 and FREQ is not 0, and this is the whole next state: on TIMEOUT the pin event and the
polls and Failure; otherwise the disable, Idle, and the verdict, with the divider and its mirror written on Success only. -/
def Obligations.CfgRunsItsStepList : Prop :=
  ∀ s : State, Ready .cfg s → ∃ (r : WaitResult) (c : Word) (polls : List PortEvent) (as : List Byte) (d : Nat),
    Polls .w1 s.toTcomp.toNat r c.toNat polls ∧
    let base : State := { s with
      opc := 0b00#2, len := 0#16, stopf := false, busy := false, done := true, tofByte := false, tofStop := false,
      tofFree := false, tofTcomp := decide (r = .timeout), tocnt := c, answers := as, draws := d }
    exec .cfg s = .next (match r with
      | .timeout => { base with result := .failure, trace := s.trace ++ [.pin s.pincfg] ++ polls }
      | .ok =>
        match divCalc s.params.divw s.inclk s.freq with
        | .success h l => { base with
            result := .success, phase := .idle, divh := h, divl := l, divvalid := true,
            trace := s.trace ++ [.pin s.pincfg] ++ polls ++ [.write .masen 0#32, .write .div (divValue s.params h l)] }
        | .wrongFrequency => { base with
            result := .wrongFrequency, phase := .idle,
            trace := s.trace ++ [.pin s.pincfg] ++ polls ++ [.write .masen 0#32] }
        | .siliconAnomaly => { base with
            result := .siliconAnomaly, phase := .idle,
            trace := s.trace ++ [.pin s.pincfg] ++ polls ++ [.write .masen 0#32] })

/-- R37, R110 f: what CFG leaves unchanged, the buffers entry by entry among it. -/
def Obligations.CfgFrame : Prop :=
  ∀ s t : State, exec .cfg s = .next t →
    t.inclk = s.inclk ∧ t.freq = s.freq ∧ t.saddr = s.saddr ∧ t.pincfg = s.pincfg ∧ t.idx = s.idx ∧
    t.toByte = s.toByte ∧ t.toStop = s.toStop ∧ t.toFree = s.toFree ∧ t.toTcomp = s.toTcomp ∧
    t.params = s.params ∧ t.prog = s.prog ∧ t.turns = s.turns ∧ t.readData = s.readData ∧
    t.tofByte = false ∧ t.tofStop = false ∧ t.tofFree = false ∧
    (∀ j, t.wbuf.read j = s.wbuf.read j) ∧ (∀ j, t.rbuf.read j = s.rbuf.read j) ∧
    (t.result ≠ .success → t.divh = s.divh ∧ t.divl = s.divl ∧ t.divvalid = s.divvalid) ∧
    (t.result = .failure → t.phase = s.phase)

/-- R111: the worked examples, from any state with BUSY = 0 whose environment's first answer reads as TCOMP = 0. -/
def Obligations.CfgWorkedExamples : Prop :=
  ∀ (s : State) (a : Byte) (rest : List Byte), s.busy = false → s.params.divw = 8 → s.inclk = 26000000#32 →
    s.toTcomp ≠ 0#32 → s.answers = a :: rest → answerBit a = false →
    (s.freq = 400000#32 → ∃ t, exec .cfg s = .next t ∧
      t.trace = s.trace ++ [.pin s.pincfg, .read .tcomp 0#32, .write .masen 0#32, .write .div 0x1F20#32] ∧
      t.divh = 31#16 ∧ t.divl = 32#16 ∧ t.divvalid = true ∧ t.result = .success ∧ t.tocnt = s.toTcomp) ∧
    (s.freq = 3250000#32 → roundedQuotient s.inclk s.freq = 4 ∧ ∃ t, exec .cfg s = .next t ∧
      t.trace = s.trace ++ [.pin s.pincfg, .read .tcomp 0#32, .write .masen 0#32] ∧
      t.divh = s.divh ∧ t.divl = s.divl ∧ t.divvalid = s.divvalid ∧ t.result = .siliconAnomaly)

/-- R110 c, E7: configuring twice gives the same verdict, the same pair and the same port writes. -/
def Obligations.CfgTwiceGivesSamePair : Prop :=
  ∀ s t u : State, exec .cfg s = .next t → exec .cfg t = .next u → t.result ≠ .failure → u.result ≠ .failure →
    u.result = t.result ∧ u.divh = t.divh ∧ u.divl = t.divl ∧ u.divvalid = t.divvalid ∧
    ∃ ws, writes t.trace = writes s.trace ++ ws ∧ writes u.trace = writes t.trace ++ ws

/-- R105: a bus controller whose TCOMP never clears. CFG ends with Failure after exactly TO_TCOMP polls, with no port write
at all, the master not disabled and the phase and the divider mirror as they were. -/
def Obligations.CfgOnWedgedControllerFails : Prop :=
  ∀ (s : State) (misses rest : List Byte), Ready .cfg s → s.answers = misses ++ rest →
    (∀ a ∈ misses, answerBit a = true) → misses.length = s.toTcomp.toNat →
    ∃ t, exec .cfg s = .next t ∧ t.result = .failure ∧ t.tofTcomp = true ∧ t.tocnt = 0#32 ∧
      t.trace = s.trace ++ .pin s.pincfg :: List.replicate misses.length (.read .tcomp 1#32) ∧
      t.answers = rest ∧ t.phase = s.phase ∧ t.divh = s.divh ∧ t.divl = s.divl ∧ t.divvalid = s.divvalid

/-- R102: CFG while FREQ = 0 is refused however it is issued, the reset state among these. -/
def Obligations.CfgWithZeroFrequencyRefused : Prop :=
  (∀ s : State, s.busy = false → s.freq = 0#32 → exec .cfg s = .refused .freqZero) ∧
  (∀ (s : State) (ts : List Turn), s.busy = false → s.freq = 0#32 →
    (s.turns = .call 0x00000000#32 :: ts ∨ s.turns = .write 4 0 0x00000000#32 :: ts) → step s = .refused .freqZero) ∧
  State.reset.freq = 0#32

/-! ### WR (42_write_engine.md) -/

/-- R121, R123: WR executes whenever R114 holds, and this is the whole next state: the fixed writes, the byte loop with one
wait per byte and the byte staged whatever the wait returned, the stop sequence or the hold, the flags and the result. -/
def Obligations.WrRunsItsStepList : Prop :=
  ∀ (s : State) (len : BitVec 16) (stop : Bool), Ready (.wr len stop) s →
    ∃ (late : Bool) (after : Nat) (loop : List PortEvent) (r3 r4 : WaitResult) (left3 left4 : Nat)
      (polls3 polls4 : List PortEvent) (c : Word) (as : List Byte) (d : Nat),
      WrLoopTrace s.wbuf s.toByte.toNat 1 (len.toNat - 1) late s.tocnt.toNat after loop ∧
      (stop = true → Polls .w3 s.toStop.toNat r3 left3 polls3 ∧ Polls .w4 s.toFree.toNat r4 left4 polls4) ∧
      c.toNat = (if stop then left4 else after) ∧
      exec (.wr len stop) s = .next { s with
        opc := 0b01#2, len := len, stopf := stop, busy := false, done := true,
        phase := if stop then .idle else .held, idx := BitVec.ofNat 16 (len.toNat - 1),
        tofByte := late, tofStop := stop && decide (r3 = .timeout), tofFree := stop && decide (r4 = .timeout),
        tofTcomp := false, tocnt := c, answers := as, draws := d,
        result := if late || (stop && (decide (r3 = .timeout) || decide (r4 = .timeout))) then .failure else .success,
        trace := s.trace ++
          [.write .masen 1#32, .write .txflush 1#32, .write .txflush 0#32, .write .tx (wbufWord s.wbuf 0),
            .write .addr1 ((addr1Value s.saddr false).setWidth 32), .write .addr2 0#32] ++ loop ++
          (if stop then polls3 ++ polls4 ++ [.write .masen 0#32] else []) }

/-- R123: in every execution of WR, failed or not, the port writes are exactly these, WBUF[0] to WBUF[n-1] in order. -/
def Obligations.WrPortWritesInOrder : Prop :=
  ∀ (s t : State) (len : BitVec 16) (stop : Bool), exec (.wr len stop) s = .next t →
    writes t.trace = writes s.trace ++
      [.write .masen 1#32, .write .txflush 1#32, .write .txflush 0#32, .write .tx (wbufWord s.wbuf 0),
        .write .addr1 ((addr1Value s.saddr false).setWidth 32), .write .addr2 0#32] ++
      (List.range' 1 (len.toNat - 1)).map (fun i => .write .tx (wbufWord s.wbuf i)) ++
      (if stop then [.write .masen 0#32] else [])

/-- R37, R124 i: what WR leaves unchanged, the buffers entry by entry among it. -/
def Obligations.WrFrame : Prop :=
  ∀ (s t : State) (len : BitVec 16) (stop : Bool), exec (.wr len stop) s = .next t →
    t.inclk = s.inclk ∧ t.freq = s.freq ∧ t.saddr = s.saddr ∧ t.pincfg = s.pincfg ∧
    t.divh = s.divh ∧ t.divl = s.divl ∧ t.divvalid = s.divvalid ∧
    t.toByte = s.toByte ∧ t.toStop = s.toStop ∧ t.toFree = s.toFree ∧ t.toTcomp = s.toTcomp ∧
    t.params = s.params ∧ t.prog = s.prog ∧ t.turns = s.turns ∧ t.readData = s.readData ∧ t.tofTcomp = false ∧
    (stop = false → t.tofStop = false ∧ t.tofFree = false) ∧
    (len.toNat = 1 → stop = false → t.tocnt = s.tocnt) ∧
    (∀ j, t.wbuf.read j = s.wbuf.read j) ∧ (∀ j, t.rbuf.read j = s.rbuf.read j)

/-- R126 for every length: an environment whose status fields are 1 at every poll. -/
def Obligations.WrToReadyDeviceSucceeds : Prop :=
  ∀ (s : State) (len : BitVec 16) (ones rest : List Byte), Ready (.wr len true) s → s.answers = ones ++ rest →
    (∀ a ∈ ones, answerBit a = true) → ones.length = len.toNat + 1 → s.toByte ≠ 0#32 → s.toStop ≠ 0#32 →
    s.toFree ≠ 0#32 →
    ∃ t, exec (.wr len true) s = .next t ∧ t.result = .success ∧ t.phase = .idle ∧ t.busy = false ∧ t.done = true ∧
      t.tofByte = false ∧ t.tofStop = false ∧ t.tofFree = false ∧ t.tofTcomp = false ∧
      t.idx = BitVec.ofNat 16 (len.toNat - 1) ∧ t.tocnt = s.toFree ∧ t.answers = rest ∧
      t.trace = s.trace ++
        [.write .masen 1#32, .write .txflush 1#32, .write .txflush 0#32, .write .tx (wbufWord s.wbuf 0),
          .write .addr1 ((addr1Value s.saddr false).setWidth 32), .write .addr2 0#32] ++
        (List.range' 1 (len.toNat - 1)).flatMap (fun i => [.read .txreq 1#32, .write .tx (wbufWord s.wbuf i)]) ++
        [.read .stopdet 1#32, .read .busfree 1#32, .write .masen 0#32]

/-- R124 c, E9: an environment whose status fields never assert. WR stages every byte, makes every poll its budgets allow,
disables the master, and ends with Failure. -/
def Obligations.WrToDeadDeviceFailsAfterBudget : Prop :=
  ∀ (s : State) (len : BitVec 16) (zeros rest : List Byte), Ready (.wr len true) s → s.answers = zeros ++ rest →
    (∀ a ∈ zeros, answerBit a = false) →
    zeros.length = (len.toNat - 1) * s.toByte.toNat + s.toStop.toNat + s.toFree.toNat →
    ∃ t, exec (.wr len true) s = .next t ∧ t.result = .failure ∧ t.phase = .idle ∧ t.busy = false ∧ t.done = true ∧
      t.tofByte = decide (1 < len.toNat) ∧ t.tofStop = true ∧ t.tofFree = true ∧ t.tocnt = 0#32 ∧ t.answers = rest ∧
      t.trace = s.trace ++
        [.write .masen 1#32, .write .txflush 1#32, .write .txflush 0#32, .write .tx (wbufWord s.wbuf 0),
          .write .addr1 ((addr1Value s.saddr false).setWidth 32), .write .addr2 0#32] ++
        (List.range' 1 (len.toNat - 1)).flatMap
          (fun i => List.replicate s.toByte.toNat (.read .txreq 0#32) ++ [.write .tx (wbufWord s.wbuf i)]) ++
        List.replicate s.toStop.toNat (.read .stopdet 0#32) ++ List.replicate s.toFree.toNat (.read .busfree 0#32) ++
        [.write .masen 0#32]

/-- R124 a, E8: a write of one byte without STOP makes six port writes and no read, and always succeeds. -/
def Obligations.WrOneByteHoldMakesNoPoll : Prop :=
  ∀ s : State, Ready (.wr 1#16 false) s →
    ∃ t, exec (.wr 1#16 false) s = .next t ∧ t.result = .success ∧ t.phase = .held ∧ t.idx = 0#16 ∧
      t.tocnt = s.tocnt ∧ t.answers = s.answers ∧ t.draws = s.draws ∧
      t.trace = s.trace ++
        [.write .masen 1#32, .write .txflush 1#32, .write .txflush 0#32, .write .tx (wbufWord s.wbuf 0),
          .write .addr1 ((addr1Value s.saddr false).setWidth 32), .write .addr2 0#32]

/-- R114, R74: each broken precondition of WR is refused by its name. The names, and which comes first, are the model's
(log 23). -/
def Obligations.WrBrokenPreconditionsRefused : Prop :=
  ∀ (s : State) (len : BitVec 16) (stop : Bool),
    (s.busy = true → exec (.wr len stop) s = .refused .commandWhileBusy) ∧
    (s.busy = false → len = 0#16 → exec (.wr len stop) s = .refused (.illegalCommand .lenZero)) ∧
    (s.busy = false → len ≠ 0#16 → s.params.nbuf < len.toNat →
      exec (.wr len stop) s = .refused (.illegalCommand .lenAboveNbuf)) ∧
    (s.busy = false → len ≠ 0#16 → len.toNat ≤ s.params.nbuf → (∃ j < len.toNat, s.wbuf.read j = none) →
      exec (.wr len stop) s = .refused .wbufUnwritten)

/-! ### RD (43_read_engine.md) -/

/-- R134: RD executes whenever R128 holds, and this is the whole next state, RBUF entry by entry. That a failed RD too stores
the octets it was answered is the model's deduction from R134 and U1 (log 16); R136 gives those bytes no standing. -/
def Obligations.RdRunsItsStepList : Prop :=
  ∀ (s : State) (len : BitVec 16), Ready (.rd len) s →
    ∃ (late : Bool) (bytes : List Byte) (loop : List PortEvent) (r6 : WaitResult) (polls6 : List PortEvent) (c : Word)
      (as : List Byte) (d : Nat) (m : Memory),
      RdLoopTrace s.toByte.toNat len.toNat late bytes loop ∧ Polls .w6 s.toFree.toNat r6 c.toNat polls6 ∧
      bytes.length = len.toNat ∧
      (∀ j, m.read j = if j < len.toNat then bytes[j]? else s.rbuf.read j) ∧
      exec (.rd len) s = .next { s with
        opc := 0b10#2, len := len, stopf := false, busy := false, done := true, phase := .idle,
        idx := BitVec.ofNat 16 (len.toNat - 1), tofByte := late, tofStop := false,
        tofFree := decide (r6 = .timeout), tofTcomp := false, tocnt := c, answers := as, draws := d, rbuf := m,
        result := if late || decide (r6 = .timeout) then .failure else .success,
        trace := s.trace ++
          [.write .rxcnt (rxcntValue s.params len), .write .addr1 ((addr1Value s.saddr true).setWidth 32),
            .write .addr2 0#32] ++ loop ++ polls6 ++ [.write .masen 0#32] }

/-- R129, R137: in every execution of RD the port writes are exactly these four; none enables the master. -/
def Obligations.RdMakesFourPortWrites : Prop :=
  ∀ (s t : State) (len : BitVec 16), exec (.rd len) s = .next t →
    (∃ evs, t.trace = s.trace ++ evs ∧ writes evs =
      [.write .rxcnt (rxcntValue s.params len), .write .addr1 ((addr1Value s.saddr true).setWidth 32),
        .write .addr2 0#32, .write .masen 0#32] ∧
      PortEvent.write .masen 1#32 ∉ evs)

/-- R136, R138 f: after a successful RD, RBUF[i] is the i-th octet the environment returned to a read of RX; entries at or
above the count keep their values whatever the result. -/
def Obligations.RdBufferHoldsDrainedOctets : Prop :=
  ∀ (s t : State) (len : BitVec 16), exec (.rd len) s = .next t →
    (∀ j, len.toNat ≤ j → t.rbuf.read j = s.rbuf.read j) ∧
    (t.result = .success → ∃ evs, t.trace = s.trace ++ evs ∧ (evs.filterMap rxValue).length = len.toNat ∧
      ∀ j < len.toNat, t.rbuf.read j = (evs.filterMap rxValue)[j]?)

/-- R37, R138 g: what RD leaves unchanged, WBUF entry by entry among it. -/
def Obligations.RdFrame : Prop :=
  ∀ (s t : State) (len : BitVec 16), exec (.rd len) s = .next t →
    t.inclk = s.inclk ∧ t.freq = s.freq ∧ t.saddr = s.saddr ∧ t.pincfg = s.pincfg ∧
    t.divh = s.divh ∧ t.divl = s.divl ∧ t.divvalid = s.divvalid ∧
    t.toByte = s.toByte ∧ t.toStop = s.toStop ∧ t.toFree = s.toFree ∧ t.toTcomp = s.toTcomp ∧
    t.params = s.params ∧ t.prog = s.prog ∧ t.turns = s.turns ∧ t.readData = s.readData ∧
    t.tofStop = false ∧ t.tofTcomp = false ∧
    (∀ j, t.wbuf.read j = s.wbuf.read j) ∧ (∀ j, len.toNat ≤ j → t.rbuf.read j = s.rbuf.read j)

/-- R139 for every count: an environment whose answers read as RXREQ = 1 and BUSFREE = 1 at every poll. The pairs are the
answer to a poll of RXREQ and the octet read from RX after it. -/
def Obligations.RdFromReadyDeviceSucceeds : Prop :=
  ∀ (s : State) (len : BitVec 16) (pairs : List (Byte × Byte)) (free : Byte) (rest : List Byte), Ready (.rd len) s →
    pairs.length = len.toNat → (∀ p ∈ pairs, answerBit p.1 = true) → answerBit free = true →
    s.answers = pairs.flatMap (fun p => [p.1, p.2]) ++ free :: rest → s.toByte ≠ 0#32 → s.toFree ≠ 0#32 →
    ∃ t, exec (.rd len) s = .next t ∧ t.result = .success ∧ t.phase = .idle ∧ t.busy = false ∧ t.done = true ∧
      t.tofByte = false ∧ t.tofStop = false ∧ t.tofFree = false ∧ t.tofTcomp = false ∧
      t.idx = BitVec.ofNat 16 (len.toNat - 1) ∧ t.tocnt = s.toFree ∧ t.answers = rest ∧
      (∀ j < len.toNat, t.rbuf.read j = (pairs.map (fun p => p.2))[j]?) ∧
      t.trace = s.trace ++
        [.write .rxcnt (rxcntValue s.params len), .write .addr1 ((addr1Value s.saddr true).setWidth 32),
          .write .addr2 0#32] ++
        pairs.flatMap (fun p => [.read .rxreq 1#32, .read .rx (p.2.setWidth 32)]) ++
        [.read .busfree 1#32, .write .masen 0#32]

/-- R128, R74: each broken precondition of RD is refused by its name. The names, and which comes first, are the model's
(log 23). -/
def Obligations.RdBrokenPreconditionsRefused : Prop :=
  ∀ (s : State) (len : BitVec 16),
    (s.busy = true → exec (.rd len) s = .refused .commandWhileBusy) ∧
    (s.busy = false → len = 0#16 → exec (.rd len) s = .refused (.illegalCommand .lenZero)) ∧
    (s.busy = false → len ≠ 0#16 → s.params.nbuf < len.toNat →
      exec (.rd len) s = .refused (.illegalCommand .lenAboveNbuf))

/-- R47, E6: a WR and then an RD of the same length from an environment that echoes leave in RBUF the bytes of WBUF, in
the same order. -/
def Obligations.EchoedTransferKeepsByteOrder : Prop :=
  ∀ (s t u : State) (len : BitVec 16) (stop : Bool) (evs1 evs2 : List PortEvent),
    exec (.wr len stop) s = .next t → exec (.rd len) t = .next u → u.result = .success →
    t.trace = s.trace ++ evs1 → u.trace = t.trace ++ evs2 →
    evs1.filterMap txValue = (evs2.filterMap rxValue).map (fun b => b.setWidth 32) →
    ∀ j < len.toNat, u.rbuf.read j = s.wbuf.read j

/-! ### Results and what an operation leaves (60_exceptions.md) -/

/-- R141, R142, R147: which results each operation can give, and that Failure is exactly a set flag. -/
def Obligations.ResultsFollowFlags : Prop :=
  ∀ s t : State,
    (∀ len stop, exec (.wr len stop) s = .next t →
      (t.result = .failure ↔ t.tofByte = true ∨ t.tofStop = true ∨ t.tofFree = true) ∧
      (t.result = .success ∨ t.result = .failure)) ∧
    (∀ len, exec (.rd len) s = .next t →
      (t.result = .failure ↔ t.tofByte = true ∨ t.tofFree = true) ∧
      (t.result = .success ∨ t.result = .failure)) ∧
    (exec .cfg s = .next t →
      (t.result = .failure ↔ t.tofTcomp = true) ∧
      (t.tofTcomp = false → t.result = (divCalc s.params.divw s.inclk s.freq).result))

/-- R109, R121, R134, R150: the master enable as last written, read off the record (log 19), and PHASE, after each operation
and result. A failed CFG made no write of it at all. -/
def Obligations.MasterEnableAfterOperation : Prop :=
  ∀ s t : State,
    (exec .cfg s = .next t →
      if t.result = .failure then
        (∃ evs, t.trace = s.trace ++ evs ∧ evs.filterMap masenValue = []) ∧
          masterEnable t.trace = masterEnable s.trace ∧ t.phase = s.phase
      else masterEnable t.trace = some 0#32 ∧ t.phase = .idle) ∧
    (∀ len, exec (.wr len true) s = .next t → masterEnable t.trace = some 0#32 ∧ t.phase = .idle) ∧
    (∀ len, exec (.wr len false) s = .next t → masterEnable t.trace = some 1#32 ∧ t.phase = .held) ∧
    (∀ len, exec (.rd len) s = .next t → masterEnable t.trace = some 0#32 ∧ t.phase = .idle)

/-- R10, R74, R102, R114, R128: an operation executes exactly in the states its rules give it. -/
def Obligations.ExecutesExactlyWhenReady : Prop :=
  ∀ (i : Instr) (s : State), (∃ t, exec i s = .next t) ↔ Ready i s

/-! ### Acceptance, the host side and reset -/

/-- R27, R21: a legal command word written to CMD while the operation is ready is accepted in one step: the latches take the
word's fields, BUSY, DONE and the flags change, and nothing else of the CORE does. -/
def Obligations.CommandWriteOnlyAccepts : Prop :=
  ∀ (s : State) (w : Word) (i : Instr) (ts : List Turn), readCommand s.params.nbuf w = .command i → Ready i s →
    s.turns = .write 4 0 w :: ts →
    ∃ p, step s = .next { s with
      opc := fieldOp w, len := fieldLen w, stopf := fieldStop w, busy := true, done := false,
      tofByte := false, tofStop := false, tofFree := false, tofTcomp := false, prog := p, turns := ts }

/-- R42, R44: what an aligned read of each offset returns, in any state; STAT field by field. Offsets above the map read as
buffer entries past NBUF (log 11). -/
def Obligations.HostReadReturnsRegister : Prop :=
  ∀ (s : State) (off : Nat) (ts : List Turn), s.turns = .read 4 off :: ts → off % 4 = 0 →
    ∃ t, step s = .next t ∧
      (off = 0x00 → t.readData = 0#32) ∧
      (off = 0x04 → t.readData.getLsbD 0 = s.busy ∧ t.readData.getLsbD 1 = s.done ∧ t.readData.getLsbD 2 = false ∧
        t.readData.getLsbD 3 = s.divvalid ∧ t.readData.extractLsb' 4 3 = s.phase.code ∧ t.readData.getLsbD 7 = false ∧
        t.readData.extractLsb' 8 2 = s.result.code ∧ t.readData.extractLsb' 10 2 = 0#2 ∧
        t.readData.getLsbD 12 = s.tofByte ∧ t.readData.getLsbD 13 = s.tofStop ∧ t.readData.getLsbD 14 = s.tofFree ∧
        t.readData.getLsbD 15 = s.tofTcomp ∧ t.readData.extractLsb' 16 16 = s.idx) ∧
      (off = 0x08 → t.readData = s.inclk) ∧ (off = 0x0C → t.readData = s.freq) ∧
      (off = 0x10 → t.readData = s.saddr.setWidth 32) ∧ (off = 0x14 → t.readData = s.pincfg) ∧
      (off = 0x18 → t.readData.extractLsb' 16 16 = s.divh ∧ t.readData.extractLsb' 0 16 = s.divl) ∧
      (off = 0x1C → t.readData = s.tocnt) ∧ (off = 0x20 → t.readData = s.toByte) ∧
      (off = 0x24 → t.readData = s.toStop) ∧ (off = 0x28 → t.readData = s.toFree) ∧
      (off = 0x2C → t.readData = s.toTcomp) ∧
      (0x30 ≤ off → off < 0x40000 → t.readData = 0#32) ∧
      (∀ i b, s.params.Legal → i < s.params.nbuf → off = 0x40000 + 4 * i → s.wbuf.read i = some b →
        t.readData = b.setWidth 32) ∧
      (∀ i b, i < s.params.nbuf → off = 0x80000 + 4 * i → s.rbuf.read i = some b → t.readData = b.setWidth 32) ∧
      (∀ i, s.params.nbuf ≤ i → (off = 0x40000 + 4 * i ∧ off < 0x80000 ∨ off = 0x80000 + 4 * i) → t.readData = 0#32)

/-- R46: a host read changes no register, buffer, port record or answer: only the host's data, its queue of moves and the
model's draw counter. -/
def Obligations.HostReadHasNoSideEffect : Prop :=
  ∀ (s t : State) (size off : Nat) (ts : List Turn), s.turns = .read size off :: ts → step s = .next t →
    ∃ v d, t = { s with turns := ts, readData := v, draws := d }

/-- R42, R44: what an aligned host write while BUSY = 0 does at each offset but CMD's; read-only and reserved places
ignore it. Offsets above the map are taken as buffer entries past NBUF (log 11). -/
def Obligations.HostWriteChangesOneRegister : Prop :=
  ∀ (s : State) (off : Nat) (v : Word) (ts : List Turn), s.turns = .write 4 off v :: ts → off % 4 = 0 →
    s.busy = false → s.params.Legal →
    let u : State := { s with turns := ts }
    (off = 0x08 → step s = .next { u with inclk := v }) ∧
    (off = 0x0C → step s = .next { u with freq := v }) ∧
    (off = 0x10 → step s = .next { u with saddr := v.extractLsb' 0 7 }) ∧
    (off = 0x14 → step s = .next { u with pincfg := v }) ∧
    (off = 0x20 → step s = .next { u with toByte := v }) ∧
    (off = 0x24 → step s = .next { u with toStop := v }) ∧
    (off = 0x28 → step s = .next { u with toFree := v }) ∧
    (off = 0x2C → step s = .next { u with toTcomp := v }) ∧
    (∀ i, i < s.params.nbuf → off = 0x40000 + 4 * i → ∃ m, step s = .next { u with wbuf := m } ∧
      ∀ j, m.read j = if j = i then some (v.extractLsb' 0 8) else s.wbuf.read j) ∧
    ((off = 0x04 ∨ off = 0x18 ∨ off = 0x1C ∨ (0x30 ≤ off ∧ off < 0x40000) ∨
      (∃ i, s.params.nbuf ≤ i ∧ off = 0x40000 + 4 * i ∧ off < 0x80000) ∨ 0x80000 ≤ off) → step s = .next u)

/-- R45: while BUSY = 1 every aligned read still answers with the register's value at that instant, and every write, of
CMD too, is refused; that a write to a reserved or read-only place is refused as well is deduced (log 12). -/
def Obligations.BusyAllowsReadsRefusesWrites : Prop :=
  ∀ (s : State) (ts : List Turn), s.busy = true →
    (∀ off, off % 4 = 0 → s.turns = .read 4 off :: ts → ∃ d, step s = .next { s with
      turns := ts, readData := (s.readReg (regAt off)).1, draws := d }) ∧
    (∀ off v, off % 4 = 0 → s.turns = .write 4 off v :: ts → step s = .refused .hostWriteWhileBusy) ∧
    (∀ w, s.turns = .call w :: ts → step s = .refused .hostWriteWhileBusy)

/-- R43: a host access that is not 32 bits wide or not aligned is refused. -/
def Obligations.MisshapenHostAccessRefused : Prop :=
  ∀ (s : State) (size off : Nat) (v : Word) (ts : List Turn), (size ≠ 4 ∨ off % 4 ≠ 0) →
    (s.turns = .read size off :: ts ∨ s.turns = .write size off v :: ts) → step s = .refused .hostAccessShape

/-- R36, R159: the state after reset. The parameters are the model's default choice (log 1) and are not part of this. -/
def Obligations.ResetStateAsTabled : Prop :=
  let z := State.reset
  z.inclk = 0#32 ∧ z.freq = 0#32 ∧ z.saddr = 0#7 ∧ z.pincfg = 0#32 ∧ z.divh = 0#16 ∧ z.divl = 0#16 ∧
  z.divvalid = false ∧ z.opc = 0#2 ∧ z.len = 0#16 ∧ z.stopf = false ∧ z.phase = .idle ∧ z.idx = 0#16 ∧
  z.busy = false ∧ z.done = false ∧ z.result.code = 0#2 ∧ z.tofByte = false ∧ z.tofStop = false ∧
  z.tofFree = false ∧ z.tofTcomp = false ∧ z.tocnt = 0#32 ∧ z.toByte = z.params.toReset ∧
  z.toStop = z.params.toReset ∧ z.toFree = z.params.toReset ∧ z.toTcomp = z.params.toReset ∧
  (∀ i, z.wbuf.read i = none) ∧ (∀ i, z.rbuf.read i = none) ∧ z.trace = [] ∧ z.statWord = 0#32

/-- R160, R36: a reset, in flight or not, is one step that puts every CORE register at its reset value, makes no port event
and writes no result. The model's own fields stay, but for the program in flight (log 18). -/
def Obligations.ResetAbandonsOperation : Prop :=
  ∀ (s : State) (ts : List Turn), s.turns = .reset :: ts →
    step s = .next { State.reset with
      toByte := s.params.toReset, toStop := s.params.toReset, toFree := s.params.toReset, toTcomp := s.params.toReset,
      params := s.params, trace := s.trace, answers := s.answers, draws := s.draws, turns := ts,
      readData := s.readData }

/-! ### The machine (00_scope.md R10, R12; 70_reset_and_hazards.md R177) -/

/-- R64, R84: a step at a blocking call of a legal command is `exec` of the command the word reads as, on the state with that
move taken from the queue. That a call and its WAIT are one step is the model's choice (log 8). -/
def Obligations.StepRunsCommandRead : Prop :=
  ∀ (s : State) (w : Word) (i : Instr) (ts : List Turn), s.turns = .call w :: ts → s.busy = false →
    readCommand s.params.nbuf w = .command i → step s = exec i { s with turns := ts }

/-- R177: while no operation is in flight and the host makes no move, a step changes nothing (log 22). -/
def Obligations.QuiescentCoreStaysPut : Prop :=
  ∀ s : State, s.turns = [] → s.busy = false → step s = .next s

/-- R12, R62: each turn of the CORE with an operation in flight makes exactly one port event and leaves it in flight, or
makes none and is the operation's `finish`. That register writes between two events show with the next one is the
model's choice (log 9). -/
def Obligations.CoreTurnMakesOneEvent : Prop :=
  ∀ s t : State, SequencerSound s → s.busy = true → s.turns = [] → step s = .next t →
    (t.busy = true ∧ t.done = false ∧ t.result = s.result ∧ ∃ e, t.trace = s.trace ++ [e]) ∨
    (t.busy = false ∧ t.done = true ∧ t.prog = [] ∧ t.trace = s.trace)

/-- R22, R23, R27, R45, R115, R155: PHASE and IDX as the host can read them in the middle of a WR, after any number of its
port events, and RBUF and the result register as they were. That they change with the next event is log 9. -/
def Obligations.WrShowsPhaseAndIndex : Prop :=
  ∀ (s u : State) (len : BitVec 16) (stop : Bool), InFlight (.wr len stop) s u →
    ∃ evs, u.trace = s.trace ++ evs ∧ (∀ j, u.rbuf.read j = s.rbuf.read j) ∧ u.result = s.result ∧
      match evs.getLast? with
      | none => u.phase = s.phase ∧ u.idx = s.idx
      | some e => u.phase = wrPhaseAt (octets evs) e ∧ u.idx = wrIdxAt s.idx (octets evs) e

/-- R22, R23, R27, R32, R45, R130, R155: PHASE, IDX and the RBUF entries written so far as the host can read them in the
middle of an RD, after any number of its port events. That they change with the next event is log 9; that the octets of an
RD that ends with Failure are stored too is log 16. -/
def Obligations.RdShowsPhaseIndexAndBuffer : Prop :=
  ∀ (s u : State) (len : BitVec 16), InFlight (.rd len) s u →
    ∃ evs, u.trace = s.trace ++ evs ∧ u.result = s.result ∧
      (∀ j, u.rbuf.read j = if j < octets evs then (evs.filterMap rxValue)[j]? else s.rbuf.read j) ∧
      match evs.getLast? with
      | none => u.phase = s.phase ∧ u.idx = s.idx
      | some e => u.phase = rdPhaseAt e ∧ u.idx = rdIdxAt s.idx (octets evs) e

/-- R22, R23, R45, R108, R155: PHASE and IDX as the host can read them in the middle of a CFG: PHASE as before until the
master is disabled and Idle from then on, IDX as before. That PHASE changes with the next event is log 9. -/
def Obligations.CfgShowsPhaseAndIndex : Prop :=
  ∀ s u : State, InFlight .cfg s u →
    ∃ evs, u.trace = s.trace ++ evs ∧ (∀ j, u.rbuf.read j = s.rbuf.read j) ∧ u.result = s.result ∧ u.idx = s.idx ∧
      match evs.getLast? with
      | none => u.phase = s.phase
      | some e => u.phase = cfgPhaseAt s.phase e

/-- R29, R45, R87, R88, R155: TOCNT as the host can read it after each poll of a running operation: the site's whole budget
less the polls of this wait, the one that matched not taken off. That it is read after the decrement is log 9. -/
def Obligations.CountdownShowsPollsLeft : Prop :=
  ∀ (i : Instr) (s u : State), InFlight i s u →
    ∃ evs, u.trace = s.trace ++ evs ∧ ∀ (w : Site) (v : Bool), evs.getLast? = some (pollOf w v) →
      trailing w.field evs ≤ (w.budget s).toNat ∧
      u.tocnt.toNat = (w.budget s).toNat - trailing w.field evs + (if v = w.want then 1 else 0)

/-- R10, R12, R27, R177: a command written to CMD and then left to the CORE's turns, one port event a step, ends after one
step per event and one for `finish`, in exactly the state the whole operation gives in one step. The two ways to issue a
command are the model's (log 8, 9); the premise on the sequencer is part of `Inv`. -/
def Obligations.PostedCommandEndsAsCalled : Prop :=
  ∀ (s a t : State) (w : Word) (i : Instr), SequencerSound s → readCommand s.params.nbuf w = .command i →
    s.turns = [.write 4 0 w] → step s = .next a → exec i { s with turns := [] } = .next t →
    Host.Core.run Sys2Proof.core (t.trace.length - s.trace.length + 1) a = .next t

/-- R20, R19: outside reset, a step writes the divider mirror exactly when it writes DIV at the port, and with that pair. -/
def Obligations.MirrorFollowsDividerPort : Prop :=
  ∀ (s t : State) (evs : List PortEvent), step s = .next t → s.turns.head? ≠ some .reset →
    t.trace = s.trace ++ evs →
    (evs.filterMap divWritten = [] → t.divh = s.divh ∧ t.divl = s.divl ∧ t.divvalid = s.divvalid) ∧
    (∀ v ∈ evs.filterMap divWritten, t.divvalid = true ∧ v = divValue s.params t.divh t.divl)

/-- R33, R62: no step changes the parameters or takes back a port event. -/
def Obligations.StepKeepsParametersAndRecord : Prop :=
  ∀ s t : State, step s = .next t → t.params = s.params ∧ s.trace <+: t.trace

/-- R19, R22, R25, R31, R32, R51 to R53: the invariant (divider mirror, canonical buffers, quiescent phases, ports respected)
is kept by every step from every state that has it. -/
def Obligations.StepKeepsInvariant : Prop :=
  ∀ s t : State, Inv s → step s = .next t → Inv t

/-- The invariant holds after reset. -/
def Obligations.ResetMeetsInvariant : Prop := Inv State.reset

/-- R140: from every state that meets the invariant, a step ends in a next state or a refusal, never in the model's one
fault (log 14). -/
def Obligations.StepNeverFaults : Prop :=
  ∀ (s : State) (f : Fault), Inv s → step s ≠ .fault f
end

