-- ==== Sys2Proof/Laws/State.lean ====
section
/-! SUPPORT. One lemma per field per named update of State, each true by rfl, so that no proof unfolds a record update. -/

namespace Sys2Proof.Machine

variable (s : State)

@[simp] theorem State.pwrite_eq (f : PortField) (v : Word) : s.pwrite f v = s.emit (.write f v) := rfl
@[simp] theorem State.pinSetup_eq : s.pinSetup = s.emit (.pin s.pincfg) := rfl

/-! `setPhase` -/

@[simp] theorem State.setPhase_inclk (p : Phase) : (s.setPhase p).inclk = s.inclk := rfl
@[simp] theorem State.setPhase_freq (p : Phase) : (s.setPhase p).freq = s.freq := rfl
@[simp] theorem State.setPhase_saddr (p : Phase) : (s.setPhase p).saddr = s.saddr := rfl
@[simp] theorem State.setPhase_pincfg (p : Phase) : (s.setPhase p).pincfg = s.pincfg := rfl
@[simp] theorem State.setPhase_divh (p : Phase) : (s.setPhase p).divh = s.divh := rfl
@[simp] theorem State.setPhase_divl (p : Phase) : (s.setPhase p).divl = s.divl := rfl
@[simp] theorem State.setPhase_divvalid (p : Phase) : (s.setPhase p).divvalid = s.divvalid := rfl
@[simp] theorem State.setPhase_opc (p : Phase) : (s.setPhase p).opc = s.opc := rfl
@[simp] theorem State.setPhase_len (p : Phase) : (s.setPhase p).len = s.len := rfl
@[simp] theorem State.setPhase_stopf (p : Phase) : (s.setPhase p).stopf = s.stopf := rfl
@[simp] theorem State.setPhase_phase (p : Phase) : (s.setPhase p).phase = p := rfl
@[simp] theorem State.setPhase_idx (p : Phase) : (s.setPhase p).idx = s.idx := rfl
@[simp] theorem State.setPhase_busy (p : Phase) : (s.setPhase p).busy = s.busy := rfl
@[simp] theorem State.setPhase_done (p : Phase) : (s.setPhase p).done = s.done := rfl
@[simp] theorem State.setPhase_result (p : Phase) : (s.setPhase p).result = s.result := rfl
@[simp] theorem State.setPhase_tofByte (p : Phase) : (s.setPhase p).tofByte = s.tofByte := rfl
@[simp] theorem State.setPhase_tofStop (p : Phase) : (s.setPhase p).tofStop = s.tofStop := rfl
@[simp] theorem State.setPhase_tofFree (p : Phase) : (s.setPhase p).tofFree = s.tofFree := rfl
@[simp] theorem State.setPhase_tofTcomp (p : Phase) : (s.setPhase p).tofTcomp = s.tofTcomp := rfl
@[simp] theorem State.setPhase_tocnt (p : Phase) : (s.setPhase p).tocnt = s.tocnt := rfl
@[simp] theorem State.setPhase_toByte (p : Phase) : (s.setPhase p).toByte = s.toByte := rfl
@[simp] theorem State.setPhase_toStop (p : Phase) : (s.setPhase p).toStop = s.toStop := rfl
@[simp] theorem State.setPhase_toFree (p : Phase) : (s.setPhase p).toFree = s.toFree := rfl
@[simp] theorem State.setPhase_toTcomp (p : Phase) : (s.setPhase p).toTcomp = s.toTcomp := rfl
@[simp] theorem State.setPhase_wbuf (p : Phase) : (s.setPhase p).wbuf = s.wbuf := rfl
@[simp] theorem State.setPhase_rbuf (p : Phase) : (s.setPhase p).rbuf = s.rbuf := rfl
@[simp] theorem State.setPhase_params (p : Phase) : (s.setPhase p).params = s.params := rfl
@[simp] theorem State.setPhase_prog (p : Phase) : (s.setPhase p).prog = s.prog := rfl
@[simp] theorem State.setPhase_trace (p : Phase) : (s.setPhase p).trace = s.trace := rfl
@[simp] theorem State.setPhase_answers (p : Phase) : (s.setPhase p).answers = s.answers := rfl
@[simp] theorem State.setPhase_draws (p : Phase) : (s.setPhase p).draws = s.draws := rfl
@[simp] theorem State.setPhase_turns (p : Phase) : (s.setPhase p).turns = s.turns := rfl
@[simp] theorem State.setPhase_readData (p : Phase) : (s.setPhase p).readData = s.readData := rfl

/-! `setIdx` -/

@[simp] theorem State.setIdx_inclk (i : Nat) : (s.setIdx i).inclk = s.inclk := rfl
@[simp] theorem State.setIdx_freq (i : Nat) : (s.setIdx i).freq = s.freq := rfl
@[simp] theorem State.setIdx_saddr (i : Nat) : (s.setIdx i).saddr = s.saddr := rfl
@[simp] theorem State.setIdx_pincfg (i : Nat) : (s.setIdx i).pincfg = s.pincfg := rfl
@[simp] theorem State.setIdx_divh (i : Nat) : (s.setIdx i).divh = s.divh := rfl
@[simp] theorem State.setIdx_divl (i : Nat) : (s.setIdx i).divl = s.divl := rfl
@[simp] theorem State.setIdx_divvalid (i : Nat) : (s.setIdx i).divvalid = s.divvalid := rfl
@[simp] theorem State.setIdx_opc (i : Nat) : (s.setIdx i).opc = s.opc := rfl
@[simp] theorem State.setIdx_len (i : Nat) : (s.setIdx i).len = s.len := rfl
@[simp] theorem State.setIdx_stopf (i : Nat) : (s.setIdx i).stopf = s.stopf := rfl
@[simp] theorem State.setIdx_phase (i : Nat) : (s.setIdx i).phase = s.phase := rfl
@[simp] theorem State.setIdx_idx (i : Nat) : (s.setIdx i).idx = BitVec.ofNat 16 i := rfl
@[simp] theorem State.setIdx_busy (i : Nat) : (s.setIdx i).busy = s.busy := rfl
@[simp] theorem State.setIdx_done (i : Nat) : (s.setIdx i).done = s.done := rfl
@[simp] theorem State.setIdx_result (i : Nat) : (s.setIdx i).result = s.result := rfl
@[simp] theorem State.setIdx_tofByte (i : Nat) : (s.setIdx i).tofByte = s.tofByte := rfl
@[simp] theorem State.setIdx_tofStop (i : Nat) : (s.setIdx i).tofStop = s.tofStop := rfl
@[simp] theorem State.setIdx_tofFree (i : Nat) : (s.setIdx i).tofFree = s.tofFree := rfl
@[simp] theorem State.setIdx_tofTcomp (i : Nat) : (s.setIdx i).tofTcomp = s.tofTcomp := rfl
@[simp] theorem State.setIdx_tocnt (i : Nat) : (s.setIdx i).tocnt = s.tocnt := rfl
@[simp] theorem State.setIdx_toByte (i : Nat) : (s.setIdx i).toByte = s.toByte := rfl
@[simp] theorem State.setIdx_toStop (i : Nat) : (s.setIdx i).toStop = s.toStop := rfl
@[simp] theorem State.setIdx_toFree (i : Nat) : (s.setIdx i).toFree = s.toFree := rfl
@[simp] theorem State.setIdx_toTcomp (i : Nat) : (s.setIdx i).toTcomp = s.toTcomp := rfl
@[simp] theorem State.setIdx_wbuf (i : Nat) : (s.setIdx i).wbuf = s.wbuf := rfl
@[simp] theorem State.setIdx_rbuf (i : Nat) : (s.setIdx i).rbuf = s.rbuf := rfl
@[simp] theorem State.setIdx_params (i : Nat) : (s.setIdx i).params = s.params := rfl
@[simp] theorem State.setIdx_prog (i : Nat) : (s.setIdx i).prog = s.prog := rfl
@[simp] theorem State.setIdx_trace (i : Nat) : (s.setIdx i).trace = s.trace := rfl
@[simp] theorem State.setIdx_answers (i : Nat) : (s.setIdx i).answers = s.answers := rfl
@[simp] theorem State.setIdx_draws (i : Nat) : (s.setIdx i).draws = s.draws := rfl
@[simp] theorem State.setIdx_turns (i : Nat) : (s.setIdx i).turns = s.turns := rfl
@[simp] theorem State.setIdx_readData (i : Nat) : (s.setIdx i).readData = s.readData := rfl

/-! `setTocnt` -/

@[simp] theorem State.setTocnt_inclk (v : Word) : (s.setTocnt v).inclk = s.inclk := rfl
@[simp] theorem State.setTocnt_freq (v : Word) : (s.setTocnt v).freq = s.freq := rfl
@[simp] theorem State.setTocnt_saddr (v : Word) : (s.setTocnt v).saddr = s.saddr := rfl
@[simp] theorem State.setTocnt_pincfg (v : Word) : (s.setTocnt v).pincfg = s.pincfg := rfl
@[simp] theorem State.setTocnt_divh (v : Word) : (s.setTocnt v).divh = s.divh := rfl
@[simp] theorem State.setTocnt_divl (v : Word) : (s.setTocnt v).divl = s.divl := rfl
@[simp] theorem State.setTocnt_divvalid (v : Word) : (s.setTocnt v).divvalid = s.divvalid := rfl
@[simp] theorem State.setTocnt_opc (v : Word) : (s.setTocnt v).opc = s.opc := rfl
@[simp] theorem State.setTocnt_len (v : Word) : (s.setTocnt v).len = s.len := rfl
@[simp] theorem State.setTocnt_stopf (v : Word) : (s.setTocnt v).stopf = s.stopf := rfl
@[simp] theorem State.setTocnt_phase (v : Word) : (s.setTocnt v).phase = s.phase := rfl
@[simp] theorem State.setTocnt_idx (v : Word) : (s.setTocnt v).idx = s.idx := rfl
@[simp] theorem State.setTocnt_busy (v : Word) : (s.setTocnt v).busy = s.busy := rfl
@[simp] theorem State.setTocnt_done (v : Word) : (s.setTocnt v).done = s.done := rfl
@[simp] theorem State.setTocnt_result (v : Word) : (s.setTocnt v).result = s.result := rfl
@[simp] theorem State.setTocnt_tofByte (v : Word) : (s.setTocnt v).tofByte = s.tofByte := rfl
@[simp] theorem State.setTocnt_tofStop (v : Word) : (s.setTocnt v).tofStop = s.tofStop := rfl
@[simp] theorem State.setTocnt_tofFree (v : Word) : (s.setTocnt v).tofFree = s.tofFree := rfl
@[simp] theorem State.setTocnt_tofTcomp (v : Word) : (s.setTocnt v).tofTcomp = s.tofTcomp := rfl
@[simp] theorem State.setTocnt_tocnt (v : Word) : (s.setTocnt v).tocnt = v := rfl
@[simp] theorem State.setTocnt_toByte (v : Word) : (s.setTocnt v).toByte = s.toByte := rfl
@[simp] theorem State.setTocnt_toStop (v : Word) : (s.setTocnt v).toStop = s.toStop := rfl
@[simp] theorem State.setTocnt_toFree (v : Word) : (s.setTocnt v).toFree = s.toFree := rfl
@[simp] theorem State.setTocnt_toTcomp (v : Word) : (s.setTocnt v).toTcomp = s.toTcomp := rfl
@[simp] theorem State.setTocnt_wbuf (v : Word) : (s.setTocnt v).wbuf = s.wbuf := rfl
@[simp] theorem State.setTocnt_rbuf (v : Word) : (s.setTocnt v).rbuf = s.rbuf := rfl
@[simp] theorem State.setTocnt_params (v : Word) : (s.setTocnt v).params = s.params := rfl
@[simp] theorem State.setTocnt_prog (v : Word) : (s.setTocnt v).prog = s.prog := rfl
@[simp] theorem State.setTocnt_trace (v : Word) : (s.setTocnt v).trace = s.trace := rfl
@[simp] theorem State.setTocnt_answers (v : Word) : (s.setTocnt v).answers = s.answers := rfl
@[simp] theorem State.setTocnt_draws (v : Word) : (s.setTocnt v).draws = s.draws := rfl
@[simp] theorem State.setTocnt_turns (v : Word) : (s.setTocnt v).turns = s.turns := rfl
@[simp] theorem State.setTocnt_readData (v : Word) : (s.setTocnt v).readData = s.readData := rfl

/-! `setProg` -/

@[simp] theorem State.setProg_inclk (p : List Micro) : (s.setProg p).inclk = s.inclk := rfl
@[simp] theorem State.setProg_freq (p : List Micro) : (s.setProg p).freq = s.freq := rfl
@[simp] theorem State.setProg_saddr (p : List Micro) : (s.setProg p).saddr = s.saddr := rfl
@[simp] theorem State.setProg_pincfg (p : List Micro) : (s.setProg p).pincfg = s.pincfg := rfl
@[simp] theorem State.setProg_divh (p : List Micro) : (s.setProg p).divh = s.divh := rfl
@[simp] theorem State.setProg_divl (p : List Micro) : (s.setProg p).divl = s.divl := rfl
@[simp] theorem State.setProg_divvalid (p : List Micro) : (s.setProg p).divvalid = s.divvalid := rfl
@[simp] theorem State.setProg_opc (p : List Micro) : (s.setProg p).opc = s.opc := rfl
@[simp] theorem State.setProg_len (p : List Micro) : (s.setProg p).len = s.len := rfl
@[simp] theorem State.setProg_stopf (p : List Micro) : (s.setProg p).stopf = s.stopf := rfl
@[simp] theorem State.setProg_phase (p : List Micro) : (s.setProg p).phase = s.phase := rfl
@[simp] theorem State.setProg_idx (p : List Micro) : (s.setProg p).idx = s.idx := rfl
@[simp] theorem State.setProg_busy (p : List Micro) : (s.setProg p).busy = s.busy := rfl
@[simp] theorem State.setProg_done (p : List Micro) : (s.setProg p).done = s.done := rfl
@[simp] theorem State.setProg_result (p : List Micro) : (s.setProg p).result = s.result := rfl
@[simp] theorem State.setProg_tofByte (p : List Micro) : (s.setProg p).tofByte = s.tofByte := rfl
@[simp] theorem State.setProg_tofStop (p : List Micro) : (s.setProg p).tofStop = s.tofStop := rfl
@[simp] theorem State.setProg_tofFree (p : List Micro) : (s.setProg p).tofFree = s.tofFree := rfl
@[simp] theorem State.setProg_tofTcomp (p : List Micro) : (s.setProg p).tofTcomp = s.tofTcomp := rfl
@[simp] theorem State.setProg_tocnt (p : List Micro) : (s.setProg p).tocnt = s.tocnt := rfl
@[simp] theorem State.setProg_toByte (p : List Micro) : (s.setProg p).toByte = s.toByte := rfl
@[simp] theorem State.setProg_toStop (p : List Micro) : (s.setProg p).toStop = s.toStop := rfl
@[simp] theorem State.setProg_toFree (p : List Micro) : (s.setProg p).toFree = s.toFree := rfl
@[simp] theorem State.setProg_toTcomp (p : List Micro) : (s.setProg p).toTcomp = s.toTcomp := rfl
@[simp] theorem State.setProg_wbuf (p : List Micro) : (s.setProg p).wbuf = s.wbuf := rfl
@[simp] theorem State.setProg_rbuf (p : List Micro) : (s.setProg p).rbuf = s.rbuf := rfl
@[simp] theorem State.setProg_params (p : List Micro) : (s.setProg p).params = s.params := rfl
@[simp] theorem State.setProg_prog (p : List Micro) : (s.setProg p).prog = p := rfl
@[simp] theorem State.setProg_trace (p : List Micro) : (s.setProg p).trace = s.trace := rfl
@[simp] theorem State.setProg_answers (p : List Micro) : (s.setProg p).answers = s.answers := rfl
@[simp] theorem State.setProg_draws (p : List Micro) : (s.setProg p).draws = s.draws := rfl
@[simp] theorem State.setProg_turns (p : List Micro) : (s.setProg p).turns = s.turns := rfl
@[simp] theorem State.setProg_readData (p : List Micro) : (s.setProg p).readData = s.readData := rfl

/-! `setTurns` -/

@[simp] theorem State.setTurns_inclk (ts : List Turn) : (s.setTurns ts).inclk = s.inclk := rfl
@[simp] theorem State.setTurns_freq (ts : List Turn) : (s.setTurns ts).freq = s.freq := rfl
@[simp] theorem State.setTurns_saddr (ts : List Turn) : (s.setTurns ts).saddr = s.saddr := rfl
@[simp] theorem State.setTurns_pincfg (ts : List Turn) : (s.setTurns ts).pincfg = s.pincfg := rfl
@[simp] theorem State.setTurns_divh (ts : List Turn) : (s.setTurns ts).divh = s.divh := rfl
@[simp] theorem State.setTurns_divl (ts : List Turn) : (s.setTurns ts).divl = s.divl := rfl
@[simp] theorem State.setTurns_divvalid (ts : List Turn) : (s.setTurns ts).divvalid = s.divvalid := rfl
@[simp] theorem State.setTurns_opc (ts : List Turn) : (s.setTurns ts).opc = s.opc := rfl
@[simp] theorem State.setTurns_len (ts : List Turn) : (s.setTurns ts).len = s.len := rfl
@[simp] theorem State.setTurns_stopf (ts : List Turn) : (s.setTurns ts).stopf = s.stopf := rfl
@[simp] theorem State.setTurns_phase (ts : List Turn) : (s.setTurns ts).phase = s.phase := rfl
@[simp] theorem State.setTurns_idx (ts : List Turn) : (s.setTurns ts).idx = s.idx := rfl
@[simp] theorem State.setTurns_busy (ts : List Turn) : (s.setTurns ts).busy = s.busy := rfl
@[simp] theorem State.setTurns_done (ts : List Turn) : (s.setTurns ts).done = s.done := rfl
@[simp] theorem State.setTurns_result (ts : List Turn) : (s.setTurns ts).result = s.result := rfl
@[simp] theorem State.setTurns_tofByte (ts : List Turn) : (s.setTurns ts).tofByte = s.tofByte := rfl
@[simp] theorem State.setTurns_tofStop (ts : List Turn) : (s.setTurns ts).tofStop = s.tofStop := rfl
@[simp] theorem State.setTurns_tofFree (ts : List Turn) : (s.setTurns ts).tofFree = s.tofFree := rfl
@[simp] theorem State.setTurns_tofTcomp (ts : List Turn) : (s.setTurns ts).tofTcomp = s.tofTcomp := rfl
@[simp] theorem State.setTurns_tocnt (ts : List Turn) : (s.setTurns ts).tocnt = s.tocnt := rfl
@[simp] theorem State.setTurns_toByte (ts : List Turn) : (s.setTurns ts).toByte = s.toByte := rfl
@[simp] theorem State.setTurns_toStop (ts : List Turn) : (s.setTurns ts).toStop = s.toStop := rfl
@[simp] theorem State.setTurns_toFree (ts : List Turn) : (s.setTurns ts).toFree = s.toFree := rfl
@[simp] theorem State.setTurns_toTcomp (ts : List Turn) : (s.setTurns ts).toTcomp = s.toTcomp := rfl
@[simp] theorem State.setTurns_wbuf (ts : List Turn) : (s.setTurns ts).wbuf = s.wbuf := rfl
@[simp] theorem State.setTurns_rbuf (ts : List Turn) : (s.setTurns ts).rbuf = s.rbuf := rfl
@[simp] theorem State.setTurns_params (ts : List Turn) : (s.setTurns ts).params = s.params := rfl
@[simp] theorem State.setTurns_prog (ts : List Turn) : (s.setTurns ts).prog = s.prog := rfl
@[simp] theorem State.setTurns_trace (ts : List Turn) : (s.setTurns ts).trace = s.trace := rfl
@[simp] theorem State.setTurns_answers (ts : List Turn) : (s.setTurns ts).answers = s.answers := rfl
@[simp] theorem State.setTurns_draws (ts : List Turn) : (s.setTurns ts).draws = s.draws := rfl
@[simp] theorem State.setTurns_turns (ts : List Turn) : (s.setTurns ts).turns = ts := rfl
@[simp] theorem State.setTurns_readData (ts : List Turn) : (s.setTurns ts).readData = s.readData := rfl

/-! `setRbuf` -/

@[simp] theorem State.setRbuf_inclk (m : Memory) : (s.setRbuf m).inclk = s.inclk := rfl
@[simp] theorem State.setRbuf_freq (m : Memory) : (s.setRbuf m).freq = s.freq := rfl
@[simp] theorem State.setRbuf_saddr (m : Memory) : (s.setRbuf m).saddr = s.saddr := rfl
@[simp] theorem State.setRbuf_pincfg (m : Memory) : (s.setRbuf m).pincfg = s.pincfg := rfl
@[simp] theorem State.setRbuf_divh (m : Memory) : (s.setRbuf m).divh = s.divh := rfl
@[simp] theorem State.setRbuf_divl (m : Memory) : (s.setRbuf m).divl = s.divl := rfl
@[simp] theorem State.setRbuf_divvalid (m : Memory) : (s.setRbuf m).divvalid = s.divvalid := rfl
@[simp] theorem State.setRbuf_opc (m : Memory) : (s.setRbuf m).opc = s.opc := rfl
@[simp] theorem State.setRbuf_len (m : Memory) : (s.setRbuf m).len = s.len := rfl
@[simp] theorem State.setRbuf_stopf (m : Memory) : (s.setRbuf m).stopf = s.stopf := rfl
@[simp] theorem State.setRbuf_phase (m : Memory) : (s.setRbuf m).phase = s.phase := rfl
@[simp] theorem State.setRbuf_idx (m : Memory) : (s.setRbuf m).idx = s.idx := rfl
@[simp] theorem State.setRbuf_busy (m : Memory) : (s.setRbuf m).busy = s.busy := rfl
@[simp] theorem State.setRbuf_done (m : Memory) : (s.setRbuf m).done = s.done := rfl
@[simp] theorem State.setRbuf_result (m : Memory) : (s.setRbuf m).result = s.result := rfl
@[simp] theorem State.setRbuf_tofByte (m : Memory) : (s.setRbuf m).tofByte = s.tofByte := rfl
@[simp] theorem State.setRbuf_tofStop (m : Memory) : (s.setRbuf m).tofStop = s.tofStop := rfl
@[simp] theorem State.setRbuf_tofFree (m : Memory) : (s.setRbuf m).tofFree = s.tofFree := rfl
@[simp] theorem State.setRbuf_tofTcomp (m : Memory) : (s.setRbuf m).tofTcomp = s.tofTcomp := rfl
@[simp] theorem State.setRbuf_tocnt (m : Memory) : (s.setRbuf m).tocnt = s.tocnt := rfl
@[simp] theorem State.setRbuf_toByte (m : Memory) : (s.setRbuf m).toByte = s.toByte := rfl
@[simp] theorem State.setRbuf_toStop (m : Memory) : (s.setRbuf m).toStop = s.toStop := rfl
@[simp] theorem State.setRbuf_toFree (m : Memory) : (s.setRbuf m).toFree = s.toFree := rfl
@[simp] theorem State.setRbuf_toTcomp (m : Memory) : (s.setRbuf m).toTcomp = s.toTcomp := rfl
@[simp] theorem State.setRbuf_wbuf (m : Memory) : (s.setRbuf m).wbuf = s.wbuf := rfl
@[simp] theorem State.setRbuf_rbuf (m : Memory) : (s.setRbuf m).rbuf = m := rfl
@[simp] theorem State.setRbuf_params (m : Memory) : (s.setRbuf m).params = s.params := rfl
@[simp] theorem State.setRbuf_prog (m : Memory) : (s.setRbuf m).prog = s.prog := rfl
@[simp] theorem State.setRbuf_trace (m : Memory) : (s.setRbuf m).trace = s.trace := rfl
@[simp] theorem State.setRbuf_answers (m : Memory) : (s.setRbuf m).answers = s.answers := rfl
@[simp] theorem State.setRbuf_draws (m : Memory) : (s.setRbuf m).draws = s.draws := rfl
@[simp] theorem State.setRbuf_turns (m : Memory) : (s.setRbuf m).turns = s.turns := rfl
@[simp] theorem State.setRbuf_readData (m : Memory) : (s.setRbuf m).readData = s.readData := rfl

/-! `emit` -/

@[simp] theorem State.emit_inclk (e : PortEvent) : (s.emit e).inclk = s.inclk := rfl
@[simp] theorem State.emit_freq (e : PortEvent) : (s.emit e).freq = s.freq := rfl
@[simp] theorem State.emit_saddr (e : PortEvent) : (s.emit e).saddr = s.saddr := rfl
@[simp] theorem State.emit_pincfg (e : PortEvent) : (s.emit e).pincfg = s.pincfg := rfl
@[simp] theorem State.emit_divh (e : PortEvent) : (s.emit e).divh = s.divh := rfl
@[simp] theorem State.emit_divl (e : PortEvent) : (s.emit e).divl = s.divl := rfl
@[simp] theorem State.emit_divvalid (e : PortEvent) : (s.emit e).divvalid = s.divvalid := rfl
@[simp] theorem State.emit_opc (e : PortEvent) : (s.emit e).opc = s.opc := rfl
@[simp] theorem State.emit_len (e : PortEvent) : (s.emit e).len = s.len := rfl
@[simp] theorem State.emit_stopf (e : PortEvent) : (s.emit e).stopf = s.stopf := rfl
@[simp] theorem State.emit_phase (e : PortEvent) : (s.emit e).phase = s.phase := rfl
@[simp] theorem State.emit_idx (e : PortEvent) : (s.emit e).idx = s.idx := rfl
@[simp] theorem State.emit_busy (e : PortEvent) : (s.emit e).busy = s.busy := rfl
@[simp] theorem State.emit_done (e : PortEvent) : (s.emit e).done = s.done := rfl
@[simp] theorem State.emit_result (e : PortEvent) : (s.emit e).result = s.result := rfl
@[simp] theorem State.emit_tofByte (e : PortEvent) : (s.emit e).tofByte = s.tofByte := rfl
@[simp] theorem State.emit_tofStop (e : PortEvent) : (s.emit e).tofStop = s.tofStop := rfl
@[simp] theorem State.emit_tofFree (e : PortEvent) : (s.emit e).tofFree = s.tofFree := rfl
@[simp] theorem State.emit_tofTcomp (e : PortEvent) : (s.emit e).tofTcomp = s.tofTcomp := rfl
@[simp] theorem State.emit_tocnt (e : PortEvent) : (s.emit e).tocnt = s.tocnt := rfl
@[simp] theorem State.emit_toByte (e : PortEvent) : (s.emit e).toByte = s.toByte := rfl
@[simp] theorem State.emit_toStop (e : PortEvent) : (s.emit e).toStop = s.toStop := rfl
@[simp] theorem State.emit_toFree (e : PortEvent) : (s.emit e).toFree = s.toFree := rfl
@[simp] theorem State.emit_toTcomp (e : PortEvent) : (s.emit e).toTcomp = s.toTcomp := rfl
@[simp] theorem State.emit_wbuf (e : PortEvent) : (s.emit e).wbuf = s.wbuf := rfl
@[simp] theorem State.emit_rbuf (e : PortEvent) : (s.emit e).rbuf = s.rbuf := rfl
@[simp] theorem State.emit_params (e : PortEvent) : (s.emit e).params = s.params := rfl
@[simp] theorem State.emit_prog (e : PortEvent) : (s.emit e).prog = s.prog := rfl
@[simp] theorem State.emit_trace (e : PortEvent) : (s.emit e).trace = s.trace ++ [e] := rfl
@[simp] theorem State.emit_answers (e : PortEvent) : (s.emit e).answers = s.answers := rfl
@[simp] theorem State.emit_draws (e : PortEvent) : (s.emit e).draws = s.draws := rfl
@[simp] theorem State.emit_turns (e : PortEvent) : (s.emit e).turns = s.turns := rfl
@[simp] theorem State.emit_readData (e : PortEvent) : (s.emit e).readData = s.readData := rfl

/-! `finish` -/

@[simp] theorem State.finish_inclk (r : TxResult) : (s.finish r).inclk = s.inclk := rfl
@[simp] theorem State.finish_freq (r : TxResult) : (s.finish r).freq = s.freq := rfl
@[simp] theorem State.finish_saddr (r : TxResult) : (s.finish r).saddr = s.saddr := rfl
@[simp] theorem State.finish_pincfg (r : TxResult) : (s.finish r).pincfg = s.pincfg := rfl
@[simp] theorem State.finish_divh (r : TxResult) : (s.finish r).divh = s.divh := rfl
@[simp] theorem State.finish_divl (r : TxResult) : (s.finish r).divl = s.divl := rfl
@[simp] theorem State.finish_divvalid (r : TxResult) : (s.finish r).divvalid = s.divvalid := rfl
@[simp] theorem State.finish_opc (r : TxResult) : (s.finish r).opc = s.opc := rfl
@[simp] theorem State.finish_len (r : TxResult) : (s.finish r).len = s.len := rfl
@[simp] theorem State.finish_stopf (r : TxResult) : (s.finish r).stopf = s.stopf := rfl
@[simp] theorem State.finish_phase (r : TxResult) : (s.finish r).phase = s.phase := rfl
@[simp] theorem State.finish_idx (r : TxResult) : (s.finish r).idx = s.idx := rfl
@[simp] theorem State.finish_busy (r : TxResult) : (s.finish r).busy = false := rfl
@[simp] theorem State.finish_done (r : TxResult) : (s.finish r).done = true := rfl
@[simp] theorem State.finish_result (r : TxResult) : (s.finish r).result = r := rfl
@[simp] theorem State.finish_tofByte (r : TxResult) : (s.finish r).tofByte = s.tofByte := rfl
@[simp] theorem State.finish_tofStop (r : TxResult) : (s.finish r).tofStop = s.tofStop := rfl
@[simp] theorem State.finish_tofFree (r : TxResult) : (s.finish r).tofFree = s.tofFree := rfl
@[simp] theorem State.finish_tofTcomp (r : TxResult) : (s.finish r).tofTcomp = s.tofTcomp := rfl
@[simp] theorem State.finish_tocnt (r : TxResult) : (s.finish r).tocnt = s.tocnt := rfl
@[simp] theorem State.finish_toByte (r : TxResult) : (s.finish r).toByte = s.toByte := rfl
@[simp] theorem State.finish_toStop (r : TxResult) : (s.finish r).toStop = s.toStop := rfl
@[simp] theorem State.finish_toFree (r : TxResult) : (s.finish r).toFree = s.toFree := rfl
@[simp] theorem State.finish_toTcomp (r : TxResult) : (s.finish r).toTcomp = s.toTcomp := rfl
@[simp] theorem State.finish_wbuf (r : TxResult) : (s.finish r).wbuf = s.wbuf := rfl
@[simp] theorem State.finish_rbuf (r : TxResult) : (s.finish r).rbuf = s.rbuf := rfl
@[simp] theorem State.finish_params (r : TxResult) : (s.finish r).params = s.params := rfl
@[simp] theorem State.finish_prog (r : TxResult) : (s.finish r).prog = s.prog := rfl
@[simp] theorem State.finish_trace (r : TxResult) : (s.finish r).trace = s.trace := rfl
@[simp] theorem State.finish_answers (r : TxResult) : (s.finish r).answers = s.answers := rfl
@[simp] theorem State.finish_draws (r : TxResult) : (s.finish r).draws = s.draws := rfl
@[simp] theorem State.finish_turns (r : TxResult) : (s.finish r).turns = s.turns := rfl
@[simp] theorem State.finish_readData (r : TxResult) : (s.finish r).readData = s.readData := rfl

/-! `accept` -/

@[simp] theorem State.accept_inclk (o : BitVec 2) (n : BitVec 16) (b : Bool) : (s.accept o n b).inclk = s.inclk := rfl
@[simp] theorem State.accept_freq (o : BitVec 2) (n : BitVec 16) (b : Bool) : (s.accept o n b).freq = s.freq := rfl
@[simp] theorem State.accept_saddr (o : BitVec 2) (n : BitVec 16) (b : Bool) : (s.accept o n b).saddr = s.saddr := rfl
@[simp] theorem State.accept_pincfg (o : BitVec 2) (n : BitVec 16) (b : Bool) : (s.accept o n b).pincfg = s.pincfg := rfl
@[simp] theorem State.accept_divh (o : BitVec 2) (n : BitVec 16) (b : Bool) : (s.accept o n b).divh = s.divh := rfl
@[simp] theorem State.accept_divl (o : BitVec 2) (n : BitVec 16) (b : Bool) : (s.accept o n b).divl = s.divl := rfl
@[simp] theorem State.accept_divvalid (o : BitVec 2) (n : BitVec 16) (b : Bool) : (s.accept o n b).divvalid = s.divvalid := rfl
@[simp] theorem State.accept_opc (o : BitVec 2) (n : BitVec 16) (b : Bool) : (s.accept o n b).opc = o := rfl
@[simp] theorem State.accept_len (o : BitVec 2) (n : BitVec 16) (b : Bool) : (s.accept o n b).len = n := rfl
@[simp] theorem State.accept_stopf (o : BitVec 2) (n : BitVec 16) (b : Bool) : (s.accept o n b).stopf = b := rfl
@[simp] theorem State.accept_phase (o : BitVec 2) (n : BitVec 16) (b : Bool) : (s.accept o n b).phase = s.phase := rfl
@[simp] theorem State.accept_idx (o : BitVec 2) (n : BitVec 16) (b : Bool) : (s.accept o n b).idx = s.idx := rfl
@[simp] theorem State.accept_busy (o : BitVec 2) (n : BitVec 16) (b : Bool) : (s.accept o n b).busy = true := rfl
@[simp] theorem State.accept_done (o : BitVec 2) (n : BitVec 16) (b : Bool) : (s.accept o n b).done = false := rfl
@[simp] theorem State.accept_result (o : BitVec 2) (n : BitVec 16) (b : Bool) : (s.accept o n b).result = s.result := rfl
@[simp] theorem State.accept_tofByte (o : BitVec 2) (n : BitVec 16) (b : Bool) : (s.accept o n b).tofByte = false := rfl
@[simp] theorem State.accept_tofStop (o : BitVec 2) (n : BitVec 16) (b : Bool) : (s.accept o n b).tofStop = false := rfl
@[simp] theorem State.accept_tofFree (o : BitVec 2) (n : BitVec 16) (b : Bool) : (s.accept o n b).tofFree = false := rfl
@[simp] theorem State.accept_tofTcomp (o : BitVec 2) (n : BitVec 16) (b : Bool) : (s.accept o n b).tofTcomp = false := rfl
@[simp] theorem State.accept_tocnt (o : BitVec 2) (n : BitVec 16) (b : Bool) : (s.accept o n b).tocnt = s.tocnt := rfl
@[simp] theorem State.accept_toByte (o : BitVec 2) (n : BitVec 16) (b : Bool) : (s.accept o n b).toByte = s.toByte := rfl
@[simp] theorem State.accept_toStop (o : BitVec 2) (n : BitVec 16) (b : Bool) : (s.accept o n b).toStop = s.toStop := rfl
@[simp] theorem State.accept_toFree (o : BitVec 2) (n : BitVec 16) (b : Bool) : (s.accept o n b).toFree = s.toFree := rfl
@[simp] theorem State.accept_toTcomp (o : BitVec 2) (n : BitVec 16) (b : Bool) : (s.accept o n b).toTcomp = s.toTcomp := rfl
@[simp] theorem State.accept_wbuf (o : BitVec 2) (n : BitVec 16) (b : Bool) : (s.accept o n b).wbuf = s.wbuf := rfl
@[simp] theorem State.accept_rbuf (o : BitVec 2) (n : BitVec 16) (b : Bool) : (s.accept o n b).rbuf = s.rbuf := rfl
@[simp] theorem State.accept_params (o : BitVec 2) (n : BitVec 16) (b : Bool) : (s.accept o n b).params = s.params := rfl
@[simp] theorem State.accept_prog (o : BitVec 2) (n : BitVec 16) (b : Bool) : (s.accept o n b).prog = s.prog := rfl
@[simp] theorem State.accept_trace (o : BitVec 2) (n : BitVec 16) (b : Bool) : (s.accept o n b).trace = s.trace := rfl
@[simp] theorem State.accept_answers (o : BitVec 2) (n : BitVec 16) (b : Bool) : (s.accept o n b).answers = s.answers := rfl
@[simp] theorem State.accept_draws (o : BitVec 2) (n : BitVec 16) (b : Bool) : (s.accept o n b).draws = s.draws := rfl
@[simp] theorem State.accept_turns (o : BitVec 2) (n : BitVec 16) (b : Bool) : (s.accept o n b).turns = s.turns := rfl
@[simp] theorem State.accept_readData (o : BitVec 2) (n : BitVec 16) (b : Bool) : (s.accept o n b).readData = s.readData := rfl

/-! `programDivider` -/

@[simp] theorem State.programDivider_inclk (h l : BitVec 16) : (s.programDivider h l).inclk = s.inclk := rfl
@[simp] theorem State.programDivider_freq (h l : BitVec 16) : (s.programDivider h l).freq = s.freq := rfl
@[simp] theorem State.programDivider_saddr (h l : BitVec 16) : (s.programDivider h l).saddr = s.saddr := rfl
@[simp] theorem State.programDivider_pincfg (h l : BitVec 16) : (s.programDivider h l).pincfg = s.pincfg := rfl
@[simp] theorem State.programDivider_divh (h l : BitVec 16) : (s.programDivider h l).divh = h := rfl
@[simp] theorem State.programDivider_divl (h l : BitVec 16) : (s.programDivider h l).divl = l := rfl
@[simp] theorem State.programDivider_divvalid (h l : BitVec 16) : (s.programDivider h l).divvalid = true := rfl
@[simp] theorem State.programDivider_opc (h l : BitVec 16) : (s.programDivider h l).opc = s.opc := rfl
@[simp] theorem State.programDivider_len (h l : BitVec 16) : (s.programDivider h l).len = s.len := rfl
@[simp] theorem State.programDivider_stopf (h l : BitVec 16) : (s.programDivider h l).stopf = s.stopf := rfl
@[simp] theorem State.programDivider_phase (h l : BitVec 16) : (s.programDivider h l).phase = s.phase := rfl
@[simp] theorem State.programDivider_idx (h l : BitVec 16) : (s.programDivider h l).idx = s.idx := rfl
@[simp] theorem State.programDivider_busy (h l : BitVec 16) : (s.programDivider h l).busy = s.busy := rfl
@[simp] theorem State.programDivider_done (h l : BitVec 16) : (s.programDivider h l).done = s.done := rfl
@[simp] theorem State.programDivider_result (h l : BitVec 16) : (s.programDivider h l).result = s.result := rfl
@[simp] theorem State.programDivider_tofByte (h l : BitVec 16) : (s.programDivider h l).tofByte = s.tofByte := rfl
@[simp] theorem State.programDivider_tofStop (h l : BitVec 16) : (s.programDivider h l).tofStop = s.tofStop := rfl
@[simp] theorem State.programDivider_tofFree (h l : BitVec 16) : (s.programDivider h l).tofFree = s.tofFree := rfl
@[simp] theorem State.programDivider_tofTcomp (h l : BitVec 16) : (s.programDivider h l).tofTcomp = s.tofTcomp := rfl
@[simp] theorem State.programDivider_tocnt (h l : BitVec 16) : (s.programDivider h l).tocnt = s.tocnt := rfl
@[simp] theorem State.programDivider_toByte (h l : BitVec 16) : (s.programDivider h l).toByte = s.toByte := rfl
@[simp] theorem State.programDivider_toStop (h l : BitVec 16) : (s.programDivider h l).toStop = s.toStop := rfl
@[simp] theorem State.programDivider_toFree (h l : BitVec 16) : (s.programDivider h l).toFree = s.toFree := rfl
@[simp] theorem State.programDivider_toTcomp (h l : BitVec 16) : (s.programDivider h l).toTcomp = s.toTcomp := rfl
@[simp] theorem State.programDivider_wbuf (h l : BitVec 16) : (s.programDivider h l).wbuf = s.wbuf := rfl
@[simp] theorem State.programDivider_rbuf (h l : BitVec 16) : (s.programDivider h l).rbuf = s.rbuf := rfl
@[simp] theorem State.programDivider_params (h l : BitVec 16) : (s.programDivider h l).params = s.params := rfl
@[simp] theorem State.programDivider_prog (h l : BitVec 16) : (s.programDivider h l).prog = s.prog := rfl
@[simp] theorem State.programDivider_trace (h l : BitVec 16) : (s.programDivider h l).trace = s.trace ++ [.write .div (divValue s.params h l)] := rfl
@[simp] theorem State.programDivider_answers (h l : BitVec 16) : (s.programDivider h l).answers = s.answers := rfl
@[simp] theorem State.programDivider_draws (h l : BitVec 16) : (s.programDivider h l).draws = s.draws := rfl
@[simp] theorem State.programDivider_turns (h l : BitVec 16) : (s.programDivider h l).turns = s.turns := rfl
@[simp] theorem State.programDivider_readData (h l : BitVec 16) : (s.programDivider h l).readData = s.readData := rfl

/-! `raise` -/

@[simp] theorem State.raise_inclk (f : Flag) : (s.raise f).inclk = s.inclk := by cases f <;> rfl
@[simp] theorem State.raise_freq (f : Flag) : (s.raise f).freq = s.freq := by cases f <;> rfl
@[simp] theorem State.raise_saddr (f : Flag) : (s.raise f).saddr = s.saddr := by cases f <;> rfl
@[simp] theorem State.raise_pincfg (f : Flag) : (s.raise f).pincfg = s.pincfg := by cases f <;> rfl
@[simp] theorem State.raise_divh (f : Flag) : (s.raise f).divh = s.divh := by cases f <;> rfl
@[simp] theorem State.raise_divl (f : Flag) : (s.raise f).divl = s.divl := by cases f <;> rfl
@[simp] theorem State.raise_divvalid (f : Flag) : (s.raise f).divvalid = s.divvalid := by cases f <;> rfl
@[simp] theorem State.raise_opc (f : Flag) : (s.raise f).opc = s.opc := by cases f <;> rfl
@[simp] theorem State.raise_len (f : Flag) : (s.raise f).len = s.len := by cases f <;> rfl
@[simp] theorem State.raise_stopf (f : Flag) : (s.raise f).stopf = s.stopf := by cases f <;> rfl
@[simp] theorem State.raise_phase (f : Flag) : (s.raise f).phase = s.phase := by cases f <;> rfl
@[simp] theorem State.raise_idx (f : Flag) : (s.raise f).idx = s.idx := by cases f <;> rfl
@[simp] theorem State.raise_busy (f : Flag) : (s.raise f).busy = s.busy := by cases f <;> rfl
@[simp] theorem State.raise_done (f : Flag) : (s.raise f).done = s.done := by cases f <;> rfl
@[simp] theorem State.raise_result (f : Flag) : (s.raise f).result = s.result := by cases f <;> rfl
@[simp] theorem State.raise_tofByte (f : Flag) : (s.raise f).tofByte = (decide (f = .byte) || s.tofByte) := by cases f <;> rfl
@[simp] theorem State.raise_tofStop (f : Flag) : (s.raise f).tofStop = (decide (f = .stop) || s.tofStop) := by cases f <;> rfl
@[simp] theorem State.raise_tofFree (f : Flag) : (s.raise f).tofFree = (decide (f = .free) || s.tofFree) := by cases f <;> rfl
@[simp] theorem State.raise_tofTcomp (f : Flag) : (s.raise f).tofTcomp = (decide (f = .tcomp) || s.tofTcomp) := by cases f <;> rfl
@[simp] theorem State.raise_tocnt (f : Flag) : (s.raise f).tocnt = s.tocnt := by cases f <;> rfl
@[simp] theorem State.raise_toByte (f : Flag) : (s.raise f).toByte = s.toByte := by cases f <;> rfl
@[simp] theorem State.raise_toStop (f : Flag) : (s.raise f).toStop = s.toStop := by cases f <;> rfl
@[simp] theorem State.raise_toFree (f : Flag) : (s.raise f).toFree = s.toFree := by cases f <;> rfl
@[simp] theorem State.raise_toTcomp (f : Flag) : (s.raise f).toTcomp = s.toTcomp := by cases f <;> rfl
@[simp] theorem State.raise_wbuf (f : Flag) : (s.raise f).wbuf = s.wbuf := by cases f <;> rfl
@[simp] theorem State.raise_rbuf (f : Flag) : (s.raise f).rbuf = s.rbuf := by cases f <;> rfl
@[simp] theorem State.raise_params (f : Flag) : (s.raise f).params = s.params := by cases f <;> rfl
@[simp] theorem State.raise_prog (f : Flag) : (s.raise f).prog = s.prog := by cases f <;> rfl
@[simp] theorem State.raise_trace (f : Flag) : (s.raise f).trace = s.trace := by cases f <;> rfl
@[simp] theorem State.raise_answers (f : Flag) : (s.raise f).answers = s.answers := by cases f <;> rfl
@[simp] theorem State.raise_draws (f : Flag) : (s.raise f).draws = s.draws := by cases f <;> rfl
@[simp] theorem State.raise_turns (f : Flag) : (s.raise f).turns = s.turns := by cases f <;> rfl
@[simp] theorem State.raise_readData (f : Flag) : (s.raise f).readData = s.readData := by cases f <;> rfl

end Sys2Proof.Machine
end

