-- ==== Sys2Proof/Laws/Step.lean ====
section
/-! SUPPORT. One equation per move of the total order: what a step is when that move is next (R12, R62). -/

namespace Sys2Proof.Machine

variable (s : State) (ts : List Turn)

theorem step_idle (h : s.turns = []) : step s = coreTurn s := by simp [step, h]

theorem step_core (h : s.turns = .core :: ts) : step s = coreTurn (s.setTurns ts) := by simp [step, h]

theorem step_reset (h : s.turns = .reset :: ts) : step s = .next (s.setTurns ts).coreReset := by simp [step, h]

theorem step_read (size off : Nat) (h : s.turns = .read size off :: ts) : step s = hostRead size off (s.setTurns ts) := by
  simp [step, h]

theorem step_write (size off : Nat) (v : Word) (h : s.turns = .write size off v :: ts) :
    step s = hostWrite size off v (s.setTurns ts) := by simp [step, h]

/-- A blocking call that the fetch refuses. -/
theorem step_call_refused (w : Word) (r : Refusal) (h : s.turns = .call w :: ts)
    (hf : fetch w (s.setTurns ts) = .error r) : step s = .refused r := by simp [step, h, hf]

/-- A blocking call of the command the fetch gives. -/
theorem step_call (w : Word) (i : Instr) (h : s.turns = .call w :: ts) (hf : fetch w (s.setTurns ts) = .ok i) :
    step s = exec i (s.setTurns ts) := by simp [step, h, hf]

/-- The fetch of a word: refused while BUSY = 1, else as the word reads. -/
theorem fetch_ok (w : Word) (i : Instr) :
    fetch w s = .ok i ↔ s.busy = false ∧ readCommand s.params.nbuf w = .command i := by
  unfold fetch
  cases hb : s.busy with
  | true => simp
  | false => cases hr : readCommand s.params.nbuf w <;> simp

/-- Only offset 0 is CMD's. -/
theorem regAt_ne_cmd (off : Nat) (h : off ≠ 0) : regAt off ≠ .cmd := by
  have key : ∀ (c : Prop) [Decidable c] (a b : HostReg), a ≠ .cmd → b ≠ .cmd → (if c then a else b) ≠ .cmd := by
    intro c _ a b ha hb; split <;> assumption
  unfold regAt
  rw [if_neg h]
  repeat' apply key
  all_goals simp only [ne_eq, reduceCtorEq, not_false_eq_true]

/-- What a host write can be, once its shape passes and BUSY = 0: a command, or one register's write. -/
theorem hostWrite_quiet (off : Nat) (v : Word) (ha : off % 4 = 0) (hb : s.busy = false) :
    hostWrite 4 off v s =
      if off = 0 then
        match readCommand s.params.nbuf v with
        | .illegal e => .refused (.illegalCommand e)
        | .command i => postCommand i s
      else .next (s.writeReg (regAt off) v) := by
  have h1 : accessShape 4 off = true := by simp [accessShape, ha]
  simp only [hostWrite, h1, hb, if_true, Bool.false_eq_true, if_false]
  by_cases h : off = 0
  · subst h; rfl
  · rw [if_neg h]
    have := regAt_ne_cmd off h
    cases hr : regAt off with
    | cmd => exact absurd hr this
    | _ => rfl

/-- A run, one step taken off its front. -/
theorem run_next (M : Host.Core) (k : Nat) (s t : M.State) (h : M.step s = .next t) : M.run (k + 1) s = M.run k t := by
  simp [Host.Core.run, h]

theorem core_run_next (k : Nat) (t : State) (h : step s = .next t) :
    Host.Core.run Sys2Proof.core (k + 1) s = Host.Core.run Sys2Proof.core k t := run_next Sys2Proof.core k s t h

end Sys2Proof.Machine
end

