-- ==== Sys2Proof/Laws/Wait.lean ====
section
/-! SUPPORT. What the port reads and the Wait primitive can do, said once (R52, R88, R89). -/

namespace Sys2Proof.Machine

open Sys2Proof.Safety

/-- What an answer of the environment can change: the answers left and the draw counter. -/
theorem State.answer_spec (s : State) : ∃ as d, s.answer.2 = { s with answers := as, draws := d } := by
  unfold State.answer
  cases h : s.answers with
  | nil => exact ⟨s.answers, s.draws + 1, by simp [h]⟩
  | cons a rest => exact ⟨rest, s.draws, rfl⟩

/-- What a status read can do: one event with the value returned. -/
theorem State.preadBit_spec (s : State) (f : PortField) : ∃ as d, (s.preadBit f).2 =
    { s with trace := s.trace ++ [.read f (bitValue (s.preadBit f).1)], answers := as, draws := d } := by
  obtain ⟨as, d, h⟩ := s.answer_spec
  refine ⟨as, d, ?_⟩
  simp [State.preadBit, h, State.emit]

/-- What a read of RX can do: one event with the value returned. -/
theorem State.preadRx_spec (s : State) : ∃ as d, s.preadRx.2 =
    { s with trace := s.trace ++ [.read .rx (s.preadRx.1.setWidth 32)], answers := as, draws := d } := by
  obtain ⟨as, d, h⟩ := s.answer_spec
  refine ⟨as, d, ?_⟩
  simp [State.preadRx, h, State.emit]

/-- A status read returns bit 0 of the next answer. -/
theorem State.preadBit_upcoming (s : State) (f : PortField) : (s.preadBit f).1 = answerBit (upcoming s 0) := by
  simp only [State.preadBit, State.answer, upcoming, answerBit]
  cases s.answers <;> simp

/-- A status read takes one answer, and the others move up. -/
theorem State.upcoming_preadBit (s : State) (f : PortField) (j : Nat) :
    upcoming (s.preadBit f).2 j = upcoming s (j + 1) := by
  simp only [State.preadBit, State.answer, upcoming]
  cases h : s.answers with
  | nil => simp [State.emit, Nat.add_comm, Nat.add_left_comm]
  | cons a as => simp [State.emit]

/-- What the loop of `Wait` can do from TOCNT = `n`. -/
theorem State.pollLoop_spec (w : Site) (n : Nat) (s : State) (hn : s.tocnt.toNat = n) :
    ∃ r c evs as d, State.pollLoop w n s =
      (r, { s with tocnt := c, trace := s.trace ++ evs, answers := as, draws := d }) ∧
      Polls w n r c.toNat evs := by
  induction n generalizing s with
  | zero => exact ⟨.timeout, s.tocnt, [], s.answers, s.draws, by simp [State.pollLoop], by simp [Polls, hn]⟩
  | succ n ih =>
    obtain ⟨as, d, h⟩ := s.preadBit_spec w.field
    simp only [State.pollLoop]
    by_cases hv : (s.preadBit w.field).1 = w.want
    · refine ⟨.ok, s.tocnt, [pollOf w w.want], as, d, ?_, 0, by omega, by omega, by simp⟩
      rw [if_pos hv, h, hv]; rfl
    · have hv' : (s.preadBit w.field).1 = !w.want := by
        cases h1 : (s.preadBit w.field).1 <;> cases h2 : w.want <;> simp_all
      have hc : (s.tocnt - 1#32).toNat = n := by
        have : s.tocnt.toNat < 2 ^ 32 := s.tocnt.isLt
        rw [BitVec.toNat_sub]; simp; omega
      obtain ⟨r, c, evs, as', d', h1, h2⟩ :=
        ih ((s.preadBit w.field).2.setTocnt ((s.preadBit w.field).2.tocnt - 1#32)) (by rw [h]; simpa using hc)
      refine ⟨r, c, pollOf w (!w.want) :: evs, as', d', ?_, ?_⟩
      · rw [if_neg hv, h1, h, hv']
        simp [State.setTocnt, pollOf]
      · cases r with
        | ok =>
          obtain ⟨k, hk, hl, he⟩ := h2
          exact ⟨k + 1, by omega, by omega, by rw [he]; simp [List.replicate_succ]⟩
        | timeout =>
          obtain ⟨hl, he⟩ := h2
          exact ⟨hl, by rw [he]; simp [List.replicate_succ]⟩

/-- What a wait can do: TOCNT, the polls, the environment's answers, and nothing else (R88). -/
theorem State.wait_spec (s : State) (w : Site) : ∃ r c evs as d, s.wait w =
    (r, { s with tocnt := c, trace := s.trace ++ evs, answers := as, draws := d }) ∧
    Polls w (w.budget s).toNat r c.toNat evs := by
  obtain ⟨r, c, evs, as, d, h, hp⟩ := State.pollLoop_spec w (w.budget s).toNat (s.setTocnt (w.budget s)) (by simp)
  exact ⟨r, c, evs, as, d, by rw [State.wait, h]; simp [State.setTocnt], hp⟩

/-- What the value of a buffer entry can change: the draw counter. -/
theorem State.entry_spec (s : State) (m : Memory) (i : Nat) : ∃ d, (s.entry m i).2 = { s with draws := d } := by
  unfold State.entry
  cases h : m.read i with
  | none => exact ⟨s.draws + 1, rfl⟩
  | some b => exact ⟨s.draws, rfl⟩

/-- A written entry is read as it is. -/
theorem State.entry_written (s : State) (m : Memory) (i : Nat) (b : Byte) (h : m.read i = some b) :
    s.entry m i = (b, s) := by
  simp [State.entry, h]

end Sys2Proof.Machine
end

