-- ==== Sys2Proof/Laws/HostPort.lean ====
section
/-! SUPPORT. Where the buffer windows and the reserved offsets lie, and what a host access can do (R42 to R46). -/

namespace Sys2Proof.Machine

theorem regAt_reserved (off : Nat) (h1 : 0x30 ≤ off) (h2 : off < 0x40000) : regAt off = .reserved := by
  unfold regAt
  iterate 12 rw [if_neg (by omega)]
  rw [if_pos h2]

theorem regAt_wbuf (off : Nat) (h1 : 0x40000 ≤ off) (h2 : off < 0x80000) : regAt off = .wbuf ((off - 0x40000) / 4) := by
  unfold regAt
  iterate 13 rw [if_neg (by omega)]
  rw [if_pos h2]

theorem regAt_rbuf (off : Nat) (h1 : 0x80000 ≤ off) : regAt off = .rbuf ((off - 0x80000) / 4) := by
  unfold regAt
  iterate 14 rw [if_neg (by omega)]

/-- What reading a register can change: the draw counter (R46; log 6). -/
theorem State.readReg_spec (s : State) (r : HostReg) : ∃ d, (s.readReg r).2 = { s with draws := d } := by
  have h : ∀ m i, ∃ d, (s.readEntry m i).2 = { s with draws := d } := by
    intro m i
    simp only [State.readEntry]
    split
    · exact s.entry_spec m i
    · exact ⟨s.draws, rfl⟩
  cases r with
  | wbuf i => exact h s.wbuf i
  | rbuf i => exact h s.rbuf i
  | _ => exact ⟨s.draws, rfl⟩

/-- The value read of a buffer entry: the byte, a free value where nothing was written, 0 past the buffer (R42, R44). -/
theorem State.readEntry_value (s : State) (m : Memory) (i : Nat) : (s.readEntry m i).1 =
    if i < s.params.nbuf then ((m.read i).getD (Config.unwrittenByte s.draws)).setWidth 32 else 0#32 := by
  unfold State.readEntry State.entry
  split
  · cases m.read i <;> rfl
  · rfl

/-- The value read of a register does not depend on the moves still to come. -/
theorem State.readReg_setTurns (s : State) (ts : List Turn) (r : HostReg) :
    ((s.setTurns ts).readReg r).1 = (s.readReg r).1 := by
  cases r with
  | wbuf i => exact ((s.setTurns ts).readEntry_value _ i).trans (s.readEntry_value _ i).symm
  | rbuf i => exact ((s.setTurns ts).readEntry_value _ i).trans (s.readEntry_value _ i).symm
  | _ => rfl

/-- What a host read can do: answer with a value, or be refused for its shape (R43, R46). -/
theorem hostRead_spec (size off : Nat) (s : State) :
    (accessShape size off = true ∧ ∃ d, hostRead size off s =
      .next { s with readData := (s.readReg (regAt off)).1, draws := d }) ∨
    (accessShape size off = false ∧ hostRead size off s = .refused .hostAccessShape) := by
  obtain ⟨d, hd⟩ := s.readReg_spec (regAt off)
  cases h : accessShape size off with
  | false => exact .inr ⟨rfl, by simp [hostRead, h]⟩
  | true => exact .inl ⟨rfl, d, by simp [hostRead, h, hd]⟩

/-- What writing a register can change: a host register or one WBUF entry below NBUF (R42, R44). -/
theorem State.writeReg_spec (s : State) (r : HostReg) (v : Word) :
    ∃ ic fr sa pc tb ts tf tt m, s.writeReg r v = { s with
      inclk := ic, freq := fr, saddr := sa, pincfg := pc, toByte := tb, toStop := ts, toFree := tf, toTcomp := tt,
      wbuf := m } ∧
    (m = s.wbuf ∨ ∃ i b, i < s.params.nbuf ∧ m = s.wbuf.write i b) := by
  cases r with
  | wbuf i =>
    by_cases h : i < s.params.nbuf
    · exact ⟨s.inclk, s.freq, s.saddr, s.pincfg, s.toByte, s.toStop, s.toFree, s.toTcomp, _, by
        simp only [State.writeReg, h, if_true], .inr ⟨i, v.setWidth 8, h, rfl⟩⟩
    · exact ⟨s.inclk, s.freq, s.saddr, s.pincfg, s.toByte, s.toStop, s.toFree, s.toTcomp, _, by
        simp only [State.writeReg, h, if_false], .inl rfl⟩
  | _ => exact ⟨_, _, _, _, _, _, _, _, _, rfl, .inl rfl⟩

/-- What a host write can be: refused by name, a command word at offset 0, or a register's write (R43 to R45). -/
theorem hostWrite_spec (size off : Nat) (v : Word) (s : State) :
    (∃ r, hostWrite size off v s = .refused r) ∨
    (s.busy = false ∧ off = 0 ∧ ∃ i, readCommand s.params.nbuf v = .command i ∧ hostWrite size off v s = postCommand i s) ∨
    (s.busy = false ∧ off ≠ 0 ∧ hostWrite size off v s = .next (s.writeReg (regAt off) v)) := by
  cases hs : accessShape size off with
  | false => exact .inl ⟨.hostAccessShape, by simp [hostWrite, hs]⟩
  | true =>
    cases hb : s.busy with
    | true => exact .inl ⟨.hostWriteWhileBusy, by simp [hostWrite, hs, hb]⟩
    | false =>
      simp only [accessShape, Bool.and_eq_true, decide_eq_true_eq] at hs
      obtain ⟨rfl, ha⟩ := hs
      rw [hostWrite_quiet s off v ha hb]
      by_cases h0 : off = 0
      · rw [if_pos h0]
        cases hr : readCommand s.params.nbuf v with
        | illegal e => exact .inl ⟨_, rfl⟩
        | command i => exact .inr (.inl ⟨rfl, h0, i, rfl, rfl⟩)
      · rw [if_neg h0]
        exact .inr (.inr ⟨rfl, h0, rfl⟩)

end Sys2Proof.Machine
end

