-- ==== Sys2Proof/Laws/Shapes.lean ====
section
/-! SUPPORT. What the events of a wait and of a byte loop can be, and their projections. -/

namespace Sys2Proof.Safety

open Sys2Proof.Machine

/-- Every event of a wait is a poll of its field. -/
theorem Polls.mem {w : Site} {n : Nat} {r : WaitResult} {left : Nat} {evs : List PortEvent} (h : Polls w n r left evs)
    {e : PortEvent} (he : e ∈ evs) : ∃ v, e = pollOf w v := by
  cases r with
  | ok =>
    obtain ⟨k, -, -, rfl⟩ := h
    rcases List.mem_append.1 he with he | he
    · exact ⟨_, List.eq_of_mem_replicate he⟩
    · exact ⟨_, List.mem_singleton.1 he⟩
  | timeout =>
    obtain ⟨-, rfl⟩ := h
    exact ⟨_, List.eq_of_mem_replicate he⟩

/-- A wait makes at most as many polls as its budget. -/
theorem Polls.length_le {w : Site} {n : Nat} {r : WaitResult} {left : Nat} {evs : List PortEvent}
    (h : Polls w n r left evs) : evs.length ≤ n := by
  cases r with
  | ok => obtain ⟨k, hk, -, rfl⟩ := h; simp; omega
  | timeout => obtain ⟨-, rfl⟩ := h; simp

/-- Every event of WR's byte loop is a poll of TXREQ or a write of TX. -/
theorem WrLoopTrace.mem {m : Memory} {n i k : Nat} {late : Bool} {b a : Nat} {evs : List PortEvent}
    (h : WrLoopTrace m n i k late b a evs) {e : PortEvent} (he : e ∈ evs) :
    (∃ v, e = pollOf .w2 v) ∨ ∃ j, e = .write .tx (wbufWord m j) := by
  induction k generalizing i late b evs with
  | zero => obtain ⟨-, -, rfl⟩ := h; simp at he
  | succ k ih =>
    obtain ⟨r, left, polls, late', rest, hp, ht, -, rfl⟩ := h
    rcases List.mem_append.1 he with he | he
    · exact .inl (hp.mem he)
    · rcases List.mem_cons.1 he with he | he
      · exact .inr ⟨i, he⟩
      · exact ih ht he

/-- Every event of RD's byte loop is a poll of RXREQ or a read of RX. -/
theorem RdLoopTrace.mem {n k : Nat} {late : Bool} {bytes : List Byte} {evs : List PortEvent}
    (h : RdLoopTrace n k late bytes evs) {e : PortEvent} (he : e ∈ evs) :
    (∃ v, e = pollOf .w5 v) ∨ ∃ b : Byte, e = .read .rx (b.setWidth 32) := by
  induction k generalizing late bytes evs with
  | zero => obtain ⟨-, -, rfl⟩ := h; simp at he
  | succ k ih =>
    obtain ⟨r, left, polls, late', b, bytes', rest, hp, ht, -, -, rfl⟩ := h
    rcases List.mem_append.1 he with he | he
    · exact .inl (hp.mem he)
    · rcases List.mem_cons.1 he with he | he
      · exact .inr ⟨b, he⟩
      · exact ih ht he

theorem writes_append (a b : List PortEvent) : writes (a ++ b) = writes a ++ writes b := List.filter_append ..

theorem writes_eq_nil {evs : List PortEvent} (h : ∀ e ∈ evs, isWrite e = false) : writes evs = [] := by
  simpa [writes] using h

theorem Polls.writes {w : Site} {n : Nat} {r : WaitResult} {left : Nat} {evs : List PortEvent} (h : Polls w n r left evs) :
    writes evs = [] :=
  writes_eq_nil fun e he => by obtain ⟨v, rfl⟩ := h.mem he; rfl

/-- The port writes of WR's byte loop: the bytes in index order (R119). -/
theorem WrLoopTrace.writes {m : Memory} {n i k : Nat} {late : Bool} {b a : Nat} {evs : List PortEvent}
    (h : WrLoopTrace m n i k late b a evs) :
    writes evs = (List.range' i k).map (fun j => .write .tx (wbufWord m j)) := by
  induction k generalizing i late b evs with
  | zero => obtain ⟨-, -, rfl⟩ := h; rfl
  | succ k ih =>
    obtain ⟨r, left, polls, late', rest, hp, ht, -, rfl⟩ := h
    rw [writes_append, hp.writes, List.range'_succ, List.map_cons, ← ih ht]
    rfl

theorem RdLoopTrace.writes {n k : Nat} {late : Bool} {bytes : List Byte} {evs : List PortEvent}
    (h : RdLoopTrace n k late bytes evs) : writes evs = [] :=
  writes_eq_nil fun e he => by rcases h.mem he with ⟨v, rfl⟩ | ⟨b, rfl⟩ <;> rfl

theorem pollCount_append (a b : List PortEvent) : pollCount (a ++ b) = pollCount a + pollCount b := List.countP_append

theorem Polls.pollCount_le {w : Site} {n : Nat} {r : WaitResult} {left : Nat} {evs : List PortEvent}
    (h : Polls w n r left evs) : pollCount evs ≤ n :=
  Nat.le_trans List.countP_le_length h.length_le

theorem WrLoopTrace.pollCount_le {m : Memory} {n i k : Nat} {late : Bool} {b a : Nat} {evs : List PortEvent}
    (h : WrLoopTrace m n i k late b a evs) : pollCount evs ≤ k * n := by
  induction k generalizing i late b evs with
  | zero => obtain ⟨-, -, rfl⟩ := h; simp [pollCount]
  | succ k ih =>
    obtain ⟨r, left, polls, late', rest, hp, ht, -, rfl⟩ := h
    rw [pollCount_append, show pollCount (.write .tx (wbufWord m i) :: rest) = pollCount rest from rfl, Nat.succ_mul]
    have := hp.pollCount_le; have := ih ht; omega

theorem RdLoopTrace.pollCount_le {n k : Nat} {late : Bool} {bytes : List Byte} {evs : List PortEvent}
    (h : RdLoopTrace n k late bytes evs) : pollCount evs ≤ k * n := by
  induction k generalizing late bytes evs with
  | zero => obtain ⟨-, -, rfl⟩ := h; simp [pollCount]
  | succ k ih =>
    obtain ⟨r, left, polls, late', b, bytes', rest, hp, ht, -, -, rfl⟩ := h
    rw [pollCount_append, show pollCount (.read .rx (b.setWidth 32) :: rest) = pollCount rest from rfl, Nat.succ_mul]
    have := hp.pollCount_le; have := ih ht; omega

theorem Polls.filterMap_nil {α : Type} {w : Site} {n : Nat} {r : WaitResult} {left : Nat} {evs : List PortEvent}
    (h : Polls w n r left evs) (f : PortEvent → Option α) (hf : ∀ v, f (pollOf w v) = none) : evs.filterMap f = [] := by
  rw [List.filterMap_eq_nil_iff]
  intro e he; obtain ⟨v, rfl⟩ := h.mem he; exact hf v

/-- The octets of RD's byte loop, read off the record (R133). -/
theorem RdLoopTrace.rxValues {n k : Nat} {late : Bool} {bytes : List Byte} {evs : List PortEvent}
    (h : RdLoopTrace n k late bytes evs) : evs.filterMap rxValue = bytes := by
  induction k generalizing late bytes evs with
  | zero => obtain ⟨-, rfl, rfl⟩ := h; rfl
  | succ k ih =>
    obtain ⟨r, left, polls, late', b, bytes', rest, hp, ht, -, rfl, rfl⟩ := h
    rw [List.filterMap_append, hp.filterMap_nil rxValue (fun v => rfl)]
    simp [rxValue, ih ht]

/-- The bytes of WR's byte loop, read off the record (R119). -/
theorem WrLoopTrace.txValues {m : Memory} {n i k : Nat} {late : Bool} {b a : Nat} {evs : List PortEvent}
    (h : WrLoopTrace m n i k late b a evs) : evs.filterMap txValue = (List.range' i k).map (wbufWord m) := by
  induction k generalizing i late b evs with
  | zero => obtain ⟨-, -, rfl⟩ := h; rfl
  | succ k ih =>
    obtain ⟨r, left, polls, late', rest, hp, ht, -, rfl⟩ := h
    rw [List.filterMap_append, hp.filterMap_nil txValue (fun v => rfl)]
    simp [txValue, ih ht, List.range'_succ]

end Sys2Proof.Safety
end

