-- ==== Sys2Proof/Laws/Memory.lean ====
section
/-! SUPPORT. The laws of the byte buffers: read after write, and that a write keeps the canonical form. -/

namespace Sys2Proof.Machine

theorem Memory.read_write (m : Memory) (a b : Nat) (v : Byte) :
    (m.write a v).read b = if b = a then some v else m.read b := by
  induction m with
  | nil =>
    by_cases h : b = a
    · simp [Memory.write, Memory.read, h]
    · simp [Memory.write, Memory.read, h, Ne.symm h]
  | cons c m ih =>
    obtain ⟨k, x⟩ := c
    by_cases h1 : a < k
    · by_cases h : b = a
      · simp [Memory.write, Memory.read, h1, h]
      · simp [Memory.write, Memory.read, h1, h, Ne.symm h]
    · by_cases h2 : a = k
      · subst h2; by_cases h : b = a
        · simp [Memory.write, Memory.read, h]
        · simp [Memory.write, Memory.read, h, Ne.symm h]
      · by_cases h : k = b
        · subst h
          simp [Memory.write, Memory.read, h1, h2, Ne.symm h2]
        · simp [Memory.write, Memory.read, h1, h2, h, ih]

theorem Memory.all_write (m : Memory) (a : Nat) (v : Byte) (p : Host.Cell → Bool) (hm : m.all p = true)
    (ha : p (a, v) = true) : (m.write a v).all p = true := by
  induction m with
  | nil => simpa [Memory.write] using ha
  | cons c m ih =>
    obtain ⟨k, x⟩ := c
    simp only [List.all_cons, Bool.and_eq_true] at hm
    by_cases h1 : a < k
    · simp [Memory.write, h1, ha, hm.1]; simpa using hm.2
    · by_cases h2 : a = k
      · subst h2; simp [Memory.write, ha]; simpa using hm.2
      · simp only [Memory.write, h1, h2, if_false, List.all_cons, Bool.and_eq_true]
        exact ⟨hm.1, ih hm.2⟩

theorem Memory.wf_write (m : Memory) (a : Nat) (v : Byte) (hm : m.wf = true) : (m.write a v).wf = true := by
  induction m with
  | nil => simp [Memory.write, Memory.wf]
  | cons c m ih =>
    obtain ⟨k, x⟩ := c
    simp only [Memory.wf, Bool.and_eq_true] at hm
    by_cases h1 : a < k
    · simp only [Memory.write, h1, if_true, Memory.wf, List.all_cons, Bool.and_eq_true, decide_eq_true_eq, hm.1, hm.2,
        and_true, true_and]
      refine List.all_eq_true.2 fun c hc => ?_
      have := List.all_eq_true.1 hm.1 c hc
      simp only [decide_eq_true_eq] at this ⊢; omega
    · by_cases h2 : a = k
      · subst h2; simp [Memory.write, Memory.wf]; exact ⟨by simpa using hm.1, hm.2⟩
      · simp only [Memory.write, h1, h2, if_false, Memory.wf, Bool.and_eq_true]
        exact ⟨Memory.all_write m a v _ hm.1 (by simp; omega), ih hm.2⟩

theorem Memory.below_write (n : Nat) (m : Memory) (a : Nat) (v : Byte) (hm : m.below n = true) (ha : a < n) :
    (m.write a v).below n = true :=
  Memory.all_write m a v _ hm (by simpa using ha)

theorem Memory.written_iff (m : Memory) (n : Nat) : m.written n = true ↔ ∀ i < n, (m.read i).isSome = true := by
  induction n with
  | zero => simp [Memory.written]
  | succ n ih =>
    simp only [Memory.written, Bool.and_eq_true, ih]
    constructor
    · rintro ⟨h1, h2⟩ i hi
      by_cases h : i = n
      · exact h ▸ h1
      · exact h2 i (by omega)
    · exact fun h => ⟨h n (by omega), fun i hi => h i (by omega)⟩

end Sys2Proof.Machine
end

