-- ==== Sys2Proof/Laws/Sequencer.lean ====
section
/-! SUPPORT. What running a program can do: one lemma per kind of step, and one per byte loop and tail of WR and RD. -/

namespace Sys2Proof.Machine

open Sys2Proof.Safety

@[simp] theorem run_prim (p : Prim) (rest : List Micro) (s : State) : run (.prim p :: rest) s = run rest (s.prim p) := rfl
@[simp] theorem run_divide (rest : List Micro) (s : State) : run (.divide :: rest) s = s.divide := rfl
@[simp] theorem run_finish (r : TxResult) (rest : List Micro) (s : State) : run (.finish r :: rest) s = s.finish r := rfl
@[simp] theorem run_conclude (rest : List Micro) (s : State) :
    run (.conclude :: rest) s = s.finish s.transferResult := rfl

@[simp] theorem prim_phase (s : State) (p : Phase) : s.prim (.phase p) = s.setPhase p := rfl
@[simp] theorem prim_idx (s : State) (i : Nat) : s.prim (.idx i) = s.setIdx i := rfl
@[simp] theorem prim_pin (s : State) : s.prim .pin = s.emit (.pin s.pincfg) := rfl
@[simp] theorem prim_masen (s : State) (on : Bool) : s.prim (.masen on) = s.emit (.write .masen (bitValue on)) := rfl
@[simp] theorem prim_txflush (s : State) (on : Bool) : s.prim (.txflush on) = s.emit (.write .txflush (bitValue on)) := rfl
@[simp] theorem prim_addr1 (s : State) (d : Bool) :
    s.prim (.addr1 d) = s.emit (.write .addr1 ((addr1Value s.saddr d).setWidth 32)) := rfl
@[simp] theorem prim_addr2 (s : State) : s.prim .addr2 = s.emit (.write .addr2 0#32) := rfl
@[simp] theorem prim_rxcnt (s : State) : s.prim .rxcnt = s.emit (.write .rxcnt (rxcntValue s.params s.len)) := rfl

/-- Staging a written entry emits that byte and changes nothing else (R117, R119). -/
theorem prim_stage (s : State) (i : Nat) (h : (s.wbuf.read i).isSome = true) :
    s.prim (.stage i) = s.emit (.write .tx (wbufWord s.wbuf i)) := by
  obtain ⟨b, hb⟩ := Option.isSome_iff_exists.1 h
  simp [State.prim, State.entry_written s s.wbuf i b hb, wbufWord, hb]

/-- Draining reads RX once and writes what it returned to the buffer (R133). -/
theorem prim_drain (s : State) (i : Nat) : ∃ b as d, s.prim (.drain i) =
    { s with trace := s.trace ++ [.read .rx (b.setWidth 32)], rbuf := s.rbuf.write i b, answers := as, draws := d } := by
  obtain ⟨as, d, h⟩ := s.preadRx_spec
  refine ⟨s.preadRx.1, as, d, ?_⟩
  simp [State.prim, h, State.setRbuf]

/-- A wait at a site that does not abort: the program goes on, the flag set if the wait was exhausted (R91). -/
theorem run_wait (w : Site) (hw : w.aborts = false) (rest : List Micro) (s : State) :
    ∃ r c evs as d, run (.wait w :: rest) s =
      run rest ((if r = .timeout then s.raise w.flag else s) |> fun u =>
        { u with tocnt := c, trace := s.trace ++ evs, answers := as, draws := d }) ∧
      Polls w (w.budget s).toNat r c.toNat evs := by
  obtain ⟨r, c, evs, as, d, h, hp⟩ := s.wait_spec w
  refine ⟨r, c, evs, as, d, ?_, hp⟩
  cases r with
  | ok => simp [run, h]
  | timeout => simp only [run, h, hw]; cases hf : w.flag <;> simp [State.raise]

/-- A byte wait (W2, W5). -/
theorem run_wait_byte (w : Site) (hw : w = .w2 ∨ w = .w5) (rest : List Micro) (s : State) :
    ∃ r c evs as d, run (.wait w :: rest) s =
      run rest { s with tofByte := s.tofByte || decide (r = .timeout), tocnt := c, trace := s.trace ++ evs, answers := as, draws := d } ∧
      Polls w s.toByte.toNat r c.toNat evs := by
  have hf : w.flag = .byte := by rcases hw with rfl | rfl <;> rfl
  have hb : w.budget s = s.toByte := by rcases hw with rfl | rfl <;> rfl
  obtain ⟨r, c, evs, as, d, h, hp⟩ := run_wait w (by rcases hw with rfl | rfl <;> rfl) rest s
  refine ⟨r, c, evs, as, d, ?_, hb ▸ hp⟩
  rw [h, hf]; cases r <;> simp [State.raise]

/-- The stop-detected wait (W3). -/
theorem run_wait_stop (rest : List Micro) (s : State) :
    ∃ r c evs as d, run (.wait .w3 :: rest) s =
      run rest { s with tofStop := s.tofStop || decide (r = .timeout), tocnt := c, trace := s.trace ++ evs, answers := as, draws := d } ∧
      Polls .w3 s.toStop.toNat r c.toNat evs := by
  obtain ⟨r, c, evs, as, d, h, hp⟩ := run_wait .w3 rfl rest s
  refine ⟨r, c, evs, as, d, ?_, hp⟩
  rw [h]; cases r <;> simp [State.raise, Site.flag]

/-- A bus-free wait (W4, W6). -/
theorem run_wait_free (w : Site) (hw : w = .w4 ∨ w = .w6) (rest : List Micro) (s : State) :
    ∃ r c evs as d, run (.wait w :: rest) s =
      run rest { s with tofFree := s.tofFree || decide (r = .timeout), tocnt := c, trace := s.trace ++ evs, answers := as, draws := d } ∧
      Polls w s.toFree.toNat r c.toNat evs := by
  have hf : w.flag = .free := by rcases hw with rfl | rfl <;> rfl
  have hb : w.budget s = s.toFree := by rcases hw with rfl | rfl <;> rfl
  obtain ⟨r, c, evs, as, d, h, hp⟩ := run_wait w (by rcases hw with rfl | rfl <;> rfl) rest s
  refine ⟨r, c, evs, as, d, ?_, hb ▸ hp⟩
  rw [h, hf]; cases r <;> simp [State.raise]

/-- Steps 1 to 3 of WR over a written first entry (R116 to R118). -/
theorem run_wrHead (rest : List Micro) (s : State) (h : (s.wbuf.read 0).isSome = true) :
    ∃ u, run (wrHead ++ rest) s = run rest u ∧ u = { s with
      phase := .byteTransferLoop, idx := 0#16,
      trace := s.trace ++
        [.write .masen 1#32, .write .txflush 1#32, .write .txflush 0#32, .write .tx (wbufWord s.wbuf 0),
          .write .addr1 ((addr1Value s.saddr false).setWidth 32), .write .addr2 0#32] } := by
  obtain ⟨b, hb⟩ := Option.isSome_iff_exists.1 h
  refine ⟨_, ?_, rfl⟩
  simp [wrHead, State.prim, State.entry, hb, State.setPhase, State.setIdx, State.emit, wbufWord, bitValue, addr2Value]

/-- Steps 1 and 2 of RD (R131, R132). -/
theorem run_rdHead (rest : List Micro) (s : State) :
    ∃ u, run (rdHead ++ rest) s = run rest u ∧ u = { s with
      phase := .byteTransferLoop,
      trace := s.trace ++
        [.write .rxcnt (rxcntValue s.params s.len), .write .addr1 ((addr1Value s.saddr true).setWidth 32),
          .write .addr2 0#32] } := by
  refine ⟨_, ?_, rfl⟩
  simp [rdHead, State.setPhase, State.emit]

/-- The byte loop of WR over written entries (R119). -/
theorem run_wrLoop (i k : Nat) (rest : List Micro) (s : State)
    (hb : ∀ j, i ≤ j → j < i + k → (s.wbuf.read j).isSome = true) :
    ∃ late c evs as d u, run (wrLoop i k ++ rest) s = run rest u ∧ u =
      { s with
        idx := if k = 0 then s.idx else BitVec.ofNat 16 (i + k - 1), tofByte := s.tofByte || late, tocnt := c,
        trace := s.trace ++ evs, answers := as, draws := d } ∧
      WrLoopTrace s.wbuf s.toByte.toNat i k late s.tocnt.toNat c.toNat evs := by
  induction k generalizing i s with
  | zero => exact ⟨false, s.tocnt, [], s.answers, s.draws, s, by simp [wrLoop], by simp, ⟨rfl, rfl, rfl⟩⟩
  | succ k ih =>
    obtain ⟨r, c, evs, as, d, h, hp⟩ := run_wait_byte .w2 (.inl rfl) (.prim (.stage i) :: (wrLoop (i + 1) k ++ rest)) (s.setIdx i)
    obtain ⟨late, c', evs', as', d', u, h', hu, ht⟩ := ih (i + 1)
      (({ s.setIdx i with tofByte := s.tofByte || decide (r = .timeout), tocnt := c, trace := s.trace ++ evs, answers := as, draws := d } : State).emit (.write .tx (wbufWord s.wbuf i)))
      (fun j h1 h2 => hb j (by omega) (by omega))
    refine ⟨decide (r = .timeout) || late, c', evs ++ .write .tx (wbufWord s.wbuf i) :: evs', as', d', u, ?_, ?_, ?_⟩
    · simp only [wrLoop, List.cons_append, run_prim, prim_idx, h]
      rw [prim_stage _ _ (by exact hb i (Nat.le_refl _) (by omega))]
      simp only [State.setIdx_tofByte, State.setIdx_trace]
      exact h'
    · rw [hu]
      cases k <;> simp [State.emit, State.setIdx, Bool.or_assoc]
      all_goals (try congr 1); omega
    · exact ⟨r, c.toNat, evs, late, evs', by simpa using hp, by simpa using ht, rfl, rfl⟩

/-- The tail of WR with STOP (R120, R122). -/
theorem run_wrTail_stop (s : State) :
    ∃ r1 l1 e1 r2 c e2 as d, run (wrTail true) s =
      ({ s with
        tofStop := s.tofStop || decide (r1 = .timeout), tofFree := s.tofFree || decide (r2 = .timeout), tocnt := c,
        phase := .idle, trace := s.trace ++ e1 ++ e2 ++ [.write .masen 0#32], answers := as, draws := d,
        busy := false, done := true,
        result := if s.tofByte || (s.tofStop || decide (r1 = .timeout)) || (s.tofFree || decide (r2 = .timeout))
          then .failure else .success } : State) ∧
      Polls .w3 s.toStop.toNat r1 l1 e1 ∧ Polls .w4 s.toFree.toNat r2 c.toNat e2 := by
  obtain ⟨r1, c1, e1, as1, d1, h1, p1⟩ := run_wait_stop
    [.prim (.phase .busFreeWait), .wait .w4, .prim (.masen false), .prim (.phase .idle), .conclude] (s.setPhase .stopPhase)
  obtain ⟨r2, c2, e2, as2, d2, h2, p2⟩ := run_wait_free .w4 (.inl rfl) [.prim (.masen false), .prim (.phase .idle), .conclude]
    (({ s.setPhase .stopPhase with tofStop := s.tofStop || decide (r1 = .timeout), tocnt := c1, trace := s.trace ++ e1, answers := as1, draws := d1 } : State).setPhase .busFreeWait)
  refine ⟨r1, c1.toNat, e1, r2, c2, e2, as2, d2, ?_, by simpa using p1, by simpa using p2⟩
  simp only [wrTail, if_true, run_prim, prim_phase, h1]
  refine h2.trans ?_
  simp [State.emit, State.setPhase, State.finish, State.transferResult, bitValue]

/-- The tail of WR without STOP (R120, R122). -/
theorem run_wrTail_hold (s : State) :
    run (wrTail false) s = (s.setPhase .held).finish s.transferResult := rfl

/-- The byte loop of RD (R133): the octets drained go to the buffer in index order. -/
theorem run_rdLoop (i k : Nat) (rest : List Micro) (s : State) :
    ∃ late bytes c evs as d m u, run (rdLoop i k ++ rest) s = run rest u ∧ u =
      { s with
        idx := if k = 0 then s.idx else BitVec.ofNat 16 (i + k - 1), tofByte := s.tofByte || late, tocnt := c,
        trace := s.trace ++ evs, answers := as, draws := d, rbuf := m } ∧
      RdLoopTrace s.toByte.toNat k late bytes evs ∧ bytes.length = k ∧
      (∀ j, m.read j = if i ≤ j ∧ j < i + k then bytes[j - i]? else s.rbuf.read j) ∧
      (s.rbuf.wf = true → m.wf = true) ∧ (∀ n, i + k ≤ n → s.rbuf.below n = true → m.below n = true) := by
  induction k generalizing i s with
  | zero =>
    refine ⟨false, [], s.tocnt, [], s.answers, s.draws, s.rbuf, s, by simp [rdLoop], by simp, ⟨rfl, rfl, rfl⟩, rfl, fun j => ?_,
      fun h => h, fun _ _ h => h⟩
    rw [if_neg (by omega)]
  | succ k ih =>
    obtain ⟨r, c, evs, as, d, h, hp⟩ := run_wait_byte .w5 (.inr rfl) (.prim (.drain i) :: (rdLoop (i + 1) k ++ rest)) (s.setIdx i)
    obtain ⟨b, as1, d1, hd⟩ := prim_drain
      ({ s.setIdx i with tofByte := s.tofByte || decide (r = .timeout), tocnt := c, trace := s.trace ++ evs, answers := as, draws := d } : State) i
    obtain ⟨late, bytes, c', evs', as', d', m, u, h', hu, ht, hl, hm, hwf, hbl⟩ := ih (i + 1)
      ({ s.setIdx i with tofByte := s.tofByte || decide (r = .timeout), tocnt := c, trace := s.trace ++ evs ++ [.read .rx (b.setWidth 32)], answers := as1, draws := d1, rbuf := s.rbuf.write i b } : State)
    refine ⟨decide (r = .timeout) || late, b :: bytes, c', evs ++ .read .rx (b.setWidth 32) :: evs', as', d', m, u, ?_, ?_, ?_, by simp [hl], fun j => ?_,
      fun hw => hwf (Memory.wf_write _ _ _ hw), fun n hn hb => hbl n (by omega) (Memory.below_write n _ _ _ hb (by omega))⟩
    · simp only [rdLoop, List.cons_append, run_prim, prim_idx, h]
      simp only [State.setIdx_tofByte, State.setIdx_trace] at hd ⊢
      rw [hd]
      exact h'
    · rw [hu]
      cases k <;> simp [State.setIdx, Bool.or_assoc]
      all_goals (try congr 1); omega
    · exact ⟨r, c.toNat, evs, late, b, bytes, evs', by simpa using hp, by simpa using ht, rfl, rfl, rfl⟩
    · rw [hm j]
      simp only [Memory.read_write]
      by_cases h1 : j = i
      · subst h1; rw [if_neg (by omega), if_pos rfl, if_pos (by omega)]; simp
      · by_cases h2 : i + 1 ≤ j ∧ j < i + 1 + k
        · rw [if_pos h2, if_pos (by omega), show j - i = (j - (i + 1)) + 1 by omega]; simp
        · rw [if_neg h2, if_neg h1, if_neg (by omega)]

/-- The tail of RD (R135, R136). -/
theorem run_rdTail (s : State) :
    ∃ r c e as d, run rdTail s =
      ({ s with
        tofFree := s.tofFree || decide (r = .timeout), tocnt := c, phase := .idle,
        trace := s.trace ++ e ++ [.write .masen 0#32], answers := as, draws := d, busy := false, done := true,
        result := if s.tofByte || s.tofStop || (s.tofFree || decide (r = .timeout)) then .failure else .success } : State) ∧
      Polls .w6 s.toFree.toNat r c.toNat e := by
  obtain ⟨r, c, e, as, d, h, p⟩ := run_wait_free .w6 (.inr rfl) [.prim (.masen false), .prim (.phase .idle), .conclude] (s.setPhase .busFreeWait)
  refine ⟨r, c, e, as, d, ?_, by simpa using p⟩
  simp only [rdTail, run_prim, prim_phase, h]
  simp [State.emit, State.setPhase, State.finish, State.transferResult, bitValue]

end Sys2Proof.Machine
end

