-- ==== Sys2Proof/Laws/Tick.lean ====
section
/-! SUPPORT. What one turn of the CORE can do, said once (R10, R12, R27), and that it agrees with running the program. -/

namespace Sys2Proof.Machine

open Sys2Proof.Safety

/-! ### The place in the program is not read by the steps of an operation -/

@[simp] theorem setProg_setProg (s : State) (p q : List Micro) : (s.setProg p).setProg q = s.setProg q := rfl

theorem preadBit_setProg (s : State) (p : List Micro) (f : PortField) :
    (s.setProg p).preadBit f = ((s.preadBit f).1, (s.preadBit f).2.setProg p) := by
  unfold State.preadBit State.answer
  simp only [State.setProg]
  cases s.answers <;> rfl

theorem pollLoop_setProg (w : Site) (n : Nat) (s : State) (p : List Micro) :
    State.pollLoop w n (s.setProg p) = ((State.pollLoop w n s).1, (State.pollLoop w n s).2.setProg p) := by
  induction n generalizing s with
  | zero => rfl
  | succ n ih =>
    simp only [State.pollLoop, preadBit_setProg]
    split
    · rfl
    · exact ih ((s.preadBit w.field).2.setTocnt ((s.preadBit w.field).2.tocnt - 1#32))

theorem prim_setProg (s : State) (q : Prim) (p : List Micro) : (s.setProg p).prim q = (s.prim q).setProg p := by
  cases q with
  | stage i =>
    simp only [State.prim, State.entry, State.setProg]
    cases s.wbuf.read i <;> rfl
  | drain i =>
    simp only [State.prim, State.preadRx, State.answer, State.setProg]
    cases s.answers <;> rfl
  | _ => rfl

theorem raise_setProg (s : State) (f : Flag) (p : List Micro) : (s.setProg p).raise f = (s.raise f).setProg p := by
  cases f <;> rfl

theorem divide_setProg (s : State) (p : List Micro) : (s.setProg p).divide = s.divide.setProg p := by
  simp only [State.divide, State.setProg]
  cases divCalc s.params.divw s.inclk s.freq <;> rfl

theorem run_setProg (prog : List Micro) (s : State) (p : List Micro) : run prog (s.setProg p) = (run prog s).setProg p := by
  induction prog generalizing s with
  | nil => rfl
  | cons m rest ih =>
    have wt : ∀ w n (s : State),
        (match State.pollLoop w n (s.setProg p) with
          | (.ok, s1) => run rest s1
          | (.timeout, s1) => if w.aborts then (s1.raise w.flag).finish .failure else run rest (s1.raise w.flag)) =
        (match State.pollLoop w n s with
          | (.ok, s1) => run rest s1
          | (.timeout, s1) => if w.aborts then (s1.raise w.flag).finish .failure else run rest (s1.raise w.flag)).setProg p := by
      intro w n s
      rw [pollLoop_setProg]
      rcases State.pollLoop w n s with ⟨_ | _, s1⟩
      · exact ih s1
      · simp only [raise_setProg, ih]
        split <;> rfl
    cases m with
    | prim q => simp only [run, prim_setProg, ih]
    | wait w => exact wt w (w.budget s).toNat (s.setTocnt (w.budget s))
    | poll w => exact wt w s.tocnt.toNat s
    | divide => exact divide_setProg s p
    | finish r => rfl
    | conclude => rfl

/-! ### One turn -/

/-- A wait not begun is the wait under way from a loaded TOCNT (R88). -/
theorem run_wait_poll (w : Site) (rest : List Micro) (s : State) :
    run (.wait w :: rest) s = run (.poll w :: rest) (s.setTocnt (w.budget s)) := rfl

theorem tick_wait_poll (w : Site) (rest : List Micro) (s : State) :
    tick (.wait w :: rest) s = tick (.poll w :: rest) (s.setTocnt (w.budget s)) := rfl

/-- What a step that is not silent can do: one port event, and for a drain one buffer entry (R10, R51). -/
theorem prim_event (s : State) (p : Prim) (h : p.silent = false) :
    ∃ e as d m, s.prim p = { s with trace := s.trace ++ [e], answers := as, draws := d, rbuf := m } := by
  cases p with
  | phase _ => cases h
  | idx _ => cases h
  | stage i =>
    obtain ⟨d, hd⟩ := s.entry_spec s.wbuf i
    exact ⟨.write .tx ((s.entry s.wbuf i).1.setWidth 32), s.answers, d, s.rbuf, by
      simp [State.prim, State.pwrite, State.emit, hd]⟩
  | drain i =>
    obtain ⟨b, as, d, hd⟩ := prim_drain s i
    exact ⟨_, as, d, _, hd⟩
  | _ => exact ⟨_, s.answers, s.draws, s.rbuf, rfl⟩

/-- One poll of a wait under way (R88): one event, and then what is left of the program does what the wait would. -/
theorem pollOnce_spec (s : State) (w : Site) (rest : List Micro) (h : s.tocnt ≠ 0#32) :
    ∃ v as d, (run (s.pollOnce w rest).prog (s.pollOnce w rest)).setProg [] = (run (.poll w :: rest) s).setProg [] ∧
      let u : State := { s with trace := s.trace ++ [pollOf w v], answers := as, draws := d }
      s.pollOnce w rest =
        if v = w.want then u.setProg rest
        else if s.tocnt - 1#32 = 0#32 then
          ((u.setTocnt 0#32).raise w.flag).setProg (if w.aborts then [.finish .failure] else rest)
        else (u.setTocnt (s.tocnt - 1#32)).setProg (.poll w :: rest) := by
  obtain ⟨as, d, hp⟩ := s.preadBit_spec w.field
  obtain ⟨n, hn⟩ : ∃ n, s.tocnt.toNat = n + 1 := by
    refine ⟨s.tocnt.toNat - 1, ?_⟩
    have : s.tocnt.toNat ≠ 0 := fun h0 => h (BitVec.eq_of_toNat_eq h0)
    omega
  have hn' : (s.tocnt - 1#32).toNat = n := by
    have := s.tocnt.isLt
    rw [BitVec.toNat_sub]; simp; omega
  generalize hv : (s.preadBit w.field).1 = v at hp
  have hpair : s.preadBit w.field =
      (v, { s with trace := s.trace ++ [pollOf w v], answers := as, draws := d }) := Prod.ext hv hp
  refine ⟨v, as, d, ?_, ?_⟩
  · simp only [run, hn, State.pollLoop, State.pollOnce, hpair]
    split
    · simp [run_setProg]
    · by_cases h0 : s.tocnt - 1#32 = 0#32
      · have : n = 0 := by rw [← hn', h0]; rfl
        subst this
        simp only [State.setTocnt, h0, State.pollLoop, if_true]
        cases hw : w.aborts <;> simp [run_setProg, run, State.finish]
      · simp only [State.setTocnt, h0, if_false]
        simp [run_setProg, run, hn']
  · simp only [State.pollOnce, hpair]
    split
    · rfl
    · by_cases h0 : s.tocnt - 1#32 = 0#32
      · simp only [State.setTocnt, h0, if_true]
      · simp only [State.setTocnt, h0, if_false]

/-- One turn of an operation in flight: one port event and the operation still in flight, or no event and the end. Either
way what is left does what the program would have done (R12, R27, R62). -/
theorem tick_spec (prog : List Micro) (s : State) (hb : s.busy = true) (hd : s.done = false)
    (hs : settles s.phase prog = true) :
    (∃ e, (tick prog s).trace = s.trace ++ [e] ∧ (tick prog s).busy = true ∧ (tick prog s).done = false ∧
      (tick prog s).result = s.result ∧ settles (tick prog s).phase (tick prog s).prog = true ∧
      (run (tick prog s).prog (tick prog s)).setProg [] = (run prog s).setProg []) ∨
    ((tick prog s).trace = s.trace ∧ (tick prog s).busy = false ∧ (tick prog s).done = true ∧
      tick prog s = (run prog s).setProg []) := by
  induction prog generalizing s with
  | nil => simp [settles] at hs
  | cons m rest ih =>
    have poll : ∀ (w : Site) (s : State), s.busy = true → s.done = false → settles s.phase (.poll w :: rest) = true →
        (∃ e, (tick (.poll w :: rest) s).trace = s.trace ++ [e] ∧ (tick (.poll w :: rest) s).busy = true ∧
          (tick (.poll w :: rest) s).done = false ∧ (tick (.poll w :: rest) s).result = s.result ∧
          settles (tick (.poll w :: rest) s).phase (tick (.poll w :: rest) s).prog = true ∧
          (run (tick (.poll w :: rest) s).prog (tick (.poll w :: rest) s)).setProg [] =
            (run (.poll w :: rest) s).setProg []) ∨
        ((tick (.poll w :: rest) s).trace = s.trace ∧ (tick (.poll w :: rest) s).busy = false ∧
          (tick (.poll w :: rest) s).done = true ∧
          tick (.poll w :: rest) s = (run (.poll w :: rest) s).setProg []) := by
      intro w s hb hd hs
      have hs' := hs
      simp only [settles, Bool.and_eq_true, Bool.or_eq_true, Bool.not_eq_true'] at hs
      by_cases h0 : s.tocnt = 0#32
      · cases hw : w.aborts with
        | true =>
          refine .inr ?_
          simp only [tick, run, h0, hw, if_true, BitVec.toNat_ofNat]
          cases w.flag <;> exact ⟨rfl, rfl, rfl, rfl⟩
        | false =>
          have := ih (s.raise w.flag) (by cases w.flag <;> exact hb) (by cases w.flag <;> exact hd)
            (by cases w.flag <;> exact hs.2)
          have e1 : (s.raise w.flag).trace = s.trace := by cases w.flag <;> rfl
          have e2 : (s.raise w.flag).result = s.result := by cases w.flag <;> rfl
          rw [e1, e2] at this
          have e3 : tick (.poll w :: rest) s = tick rest (s.raise w.flag) := by
            simp only [tick, h0, hw, if_true, Bool.false_eq_true, if_false]
          have e4 : run (.poll w :: rest) s = run rest (s.raise w.flag) := by
            rw [run, h0]; simp [State.pollLoop, hw]
          rwa [e3, e4]
      · have ht : tick (.poll w :: rest) s = s.pollOnce w rest := by simp only [tick, h0, if_false]
        obtain ⟨v, as, d, hr, hp⟩ := pollOnce_spec s w rest h0
        rw [ht]
        refine .inl ⟨pollOf w v, ?_⟩
        refine and_assoc.1 (and_assoc.1 (and_assoc.1 (and_assoc.1 ⟨?_, hr⟩)))
        rw [hp]
        split
        · exact ⟨⟨⟨⟨rfl, hb⟩, hd⟩, rfl⟩, hs.2⟩
        · split
          · have e1 : ∀ u : State, (u.raise w.flag).trace = u.trace ∧ (u.raise w.flag).busy = u.busy ∧
                (u.raise w.flag).done = u.done ∧ (u.raise w.flag).result = u.result ∧
                (u.raise w.flag).phase = u.phase := by intro u; cases w.flag <;> exact ⟨rfl, rfl, rfl, rfl, rfl⟩
            simp only [State.setProg_trace, State.setProg_busy, State.setProg_done, State.setProg_result,
              State.setProg_phase, State.setProg_prog, e1, State.setTocnt_trace, State.setTocnt_busy,
              State.setTocnt_done, State.setTocnt_result, State.setTocnt_phase]
            refine ⟨⟨⟨⟨trivial, hb⟩, hd⟩, trivial⟩, ?_⟩
            cases hw : w.aborts
            · exact hs.2
            · simpa [settles, hw] using hs.1
          · exact ⟨⟨⟨⟨rfl, hb⟩, hd⟩, rfl⟩, hs'⟩
    cases m with
    | prim p =>
      cases hp : p.silent with
      | true =>
        have : tick (.prim p :: rest) s = tick rest (s.prim p) := by simp only [tick, hp, if_true]
        rw [this, run_prim]
        cases p with
        | phase q => exact ih (s.setPhase q) hb hd hs
        | idx i => exact ih (s.setIdx i) hb hd hs
        | _ => cases hp
      | false =>
        have : tick (.prim p :: rest) s = (s.prim p).setProg rest := by simp [tick, hp]
        rw [this, run_prim]
        obtain ⟨e, as, d, m, h⟩ := prim_event s p hp
        refine .inl ⟨e, ?_⟩
        refine ⟨by rw [h]; rfl, by rw [h]; exact hb, by rw [h]; exact hd, by rw [h]; rfl, ?_, ?_⟩
        · rw [h]
          cases p with
          | phase _ => cases hp
          | _ => exact hs
        · simp [run_setProg]
    | wait w =>
      rw [tick_wait_poll, run_wait_poll]
      exact poll w (s.setTocnt (w.budget s)) hb hd hs
    | poll w => exact poll w s hb hd hs
    | divide =>
      simp only [tick, run_divide, State.divide]
      cases divCalc s.params.divw s.inclk s.freq with
      | success h l => exact .inl ⟨_, rfl, hb, hd, rfl, hs, rfl⟩
      | wrongFrequency => exact .inr ⟨rfl, rfl, rfl, rfl⟩
      | siliconAnomaly => exact .inr ⟨rfl, rfl, rfl, rfl⟩
    | finish r => exact .inr ⟨rfl, rfl, rfl, rfl⟩
    | conclude => exact .inr ⟨rfl, rfl, rfl, rfl⟩

end Sys2Proof.Machine
end

