-- ==== Sys2Proof/Laws/Keeps.lean ====
section
/-! SUPPORT. What the steps of an operation leave alone, said once for a part without a divider write (`Quiet`) and once for
an operation or a turn (`Whole`), and that programs settle and keep to the buffers. -/

namespace Sys2Proof.Machine

open Sys2Proof.Safety

/-- The registers the host owns, the parameters, the moves and WBUF are as before (R27, R37). -/
def SameHost (s t : State) : Prop :=
  t.params = s.params ∧ t.turns = s.turns ∧ t.readData = s.readData ∧ t.wbuf = s.wbuf ∧ t.inclk = s.inclk ∧
    t.freq = s.freq ∧ t.saddr = s.saddr ∧ t.pincfg = s.pincfg ∧ t.toByte = s.toByte ∧ t.toStop = s.toStop ∧
    t.toFree = s.toFree ∧ t.toTcomp = s.toTcomp

/-- Events that respect the port and write no divider (R51 to R53). -/
def QuietEvents (p : Params) (evs : List PortEvent) : Prop :=
  ∀ e ∈ evs, divWritten e = none ∧ eventFits p e = true

/-- A part of an operation that writes no divider. -/
structure Quiet (s t : State) : Prop where
  host : SameHost s t
  mirror : t.divh = s.divh ∧ t.divl = s.divl ∧ t.divvalid = s.divvalid
  record : ∃ evs, t.trace = s.trace ++ evs ∧ QuietEvents s.params evs

/-- A whole operation, or a turn of it: at most one divider write, and then the mirror holds its pair (R20). -/
structure Whole (s t : State) : Prop where
  host : SameHost s t
  record : ∃ evs, t.trace = s.trace ++ evs ∧ (s.params.Legal → ∀ e ∈ evs, eventFits s.params e = true) ∧
    (evs.filterMap divWritten = [] → t.divh = s.divh ∧ t.divl = s.divl ∧ t.divvalid = s.divvalid) ∧
    (∀ v ∈ evs.filterMap divWritten, t.divvalid = true ∧ v = divValue s.params t.divh t.divl)
  sound : s.params.Legal → MirrorSound s → MirrorSound t

theorem SameHost.refl (s : State) : SameHost s s := ⟨rfl, rfl, rfl, rfl, rfl, rfl, rfl, rfl, rfl, rfl, rfl, rfl⟩

theorem SameHost.trans {s t u : State} (h : SameHost s t) (h' : SameHost t u) : SameHost s u := by
  obtain ⟨a1, a2, a3, a4, a5, a6, a7, a8, a9, b1, b2, b3⟩ := h
  obtain ⟨c1, c2, c3, c4, c5, c6, c7, c8, c9, d1, d2, d3⟩ := h'
  exact ⟨c1.trans a1, c2.trans a2, c3.trans a3, c4.trans a4, c5.trans a5, c6.trans a6, c7.trans a7, c8.trans a8,
    c9.trans a9, d1.trans b1, d2.trans b2, d3.trans b3⟩

theorem QuietEvents.none {p : Params} {evs : List PortEvent} (h : QuietEvents p evs) : evs.filterMap divWritten = [] :=
  List.filterMap_eq_nil_iff.2 fun e he => (h e he).1

theorem Quiet.trans {s t u : State} (h : Quiet s t) (h' : Quiet t u) : Quiet s u := by
  obtain ⟨e1, r1, q1⟩ := h.record
  obtain ⟨e2, r2, q2⟩ := h'.record
  refine ⟨h.host.trans h'.host, ⟨h'.mirror.1.trans h.mirror.1, h'.mirror.2.1.trans h.mirror.2.1, h'.mirror.2.2.trans h.mirror.2.2⟩,
    e1 ++ e2, by rw [r2, r1, List.append_assoc], fun e he => ?_⟩
  rcases List.mem_append.1 he with he | he
  · exact q1 e he
  · exact h.host.1 ▸ q2 e he

/-- Nothing but registers of the CORE's own changed. -/
theorem Quiet.silent {s t : State} (h : SameHost s t) (m : t.divh = s.divh ∧ t.divl = s.divl ∧ t.divvalid = s.divvalid)
    (r : t.trace = s.trace) : Quiet s t := ⟨h, m, [], by simp [r], by simp [QuietEvents]⟩

theorem Quiet.whole {s t : State} (h : Quiet s t) : Whole s t := by
  obtain ⟨evs, r, q⟩ := h.record
  refine ⟨h.host, ⟨evs, r, fun _ e he => (q e he).2, fun _ => h.mirror, ?_⟩, fun _ hm => ?_⟩
  · rw [q.none]; simp
  · simpa only [MirrorSound, h.mirror.1, h.mirror.2.1, h.mirror.2.2, h.host.1] using hm

/-- A quiet part and then a whole one is a whole one. -/
theorem Quiet.then {s t u : State} (h : Quiet s t) (h' : Whole t u) : Whole s u := by
  obtain ⟨e1, r1, q1⟩ := h.record
  obtain ⟨e2, r2, f2, n2, v2⟩ := h'.record
  have hp : t.params = s.params := h.host.1
  refine ⟨h.host.trans h'.host, ⟨e1 ++ e2, by rw [r2, r1, List.append_assoc], fun hl e he => ?_, fun hn => ?_, fun v hv => ?_⟩,
    fun hl hm => h'.sound (hp ▸ hl) (h.whole.sound hl hm)⟩
  · rcases List.mem_append.1 he with he | he
    · exact (q1 e he).2
    · exact hp ▸ f2 (hp ▸ hl) e he
  · rw [List.filterMap_append, q1.none, List.nil_append] at hn
    obtain ⟨a, b, c⟩ := n2 hn
    exact ⟨a.trans h.mirror.1, b.trans h.mirror.2.1, c.trans h.mirror.2.2⟩
  · rw [List.filterMap_append, q1.none, List.nil_append] at hv
    exact hp ▸ v2 v hv

/-! ### The parts -/

theorem bitValue_lt (b : Bool) : (bitValue b).toNat < 2 := by cases b <;> decide

theorem byte_lt (b : Byte) : (b.setWidth 32).toNat < 2 ^ 8 := by
  have := b.isLt
  simp only [BitVec.toNat_setWidth]; omega

theorem fits_write {p : Params} {f : PortField} {v : Word} (h : f.readable = false) (hv : v.toNat < 2 ^ f.width p) :
    eventFits p (.write f v) = true := by simp [eventFits, h, hv]

theorem fits_read {p : Params} {f : PortField} {v : Word} (h : f.readable = true) (hv : v.toNat < 2 ^ f.width p) :
    eventFits p (.read f v) = true := by simp [eventFits, h, hv]

theorem quietEvents_polls {p : Params} {w : Site} {n : Nat} {r : WaitResult} {l : Nat} {evs : List PortEvent}
    (h : Polls w n r l evs) : QuietEvents p evs := by
  intro e he
  obtain ⟨v, rfl⟩ := h.mem he
  have := bitValue_lt v
  cases w <;> simpa [pollOf, eventFits, divWritten, Site.field, PortField.readable, PortField.width] using this

theorem quiet_prim (s : State) (p : Prim) : Quiet s (s.prim p) := by
  have emit : ∀ e, divWritten e = none → eventFits s.params e = true → Quiet s (s.emit e) := fun e h1 h2 =>
    ⟨SameHost.refl s, ⟨rfl, rfl, rfl⟩, [e], rfl, by simpa [QuietEvents] using ⟨h1, h2⟩⟩
  cases p with
  | phase p => exact .silent (SameHost.refl s) ⟨rfl, rfl, rfl⟩ rfl
  | idx i => exact .silent (SameHost.refl s) ⟨rfl, rfl, rfl⟩ rfl
  | pin => exact emit _ rfl rfl
  | masen on => exact emit _ rfl (by simpa [eventFits, PortField.readable, PortField.width] using bitValue_lt on)
  | txflush on => exact emit _ rfl (by simpa [eventFits, PortField.readable, PortField.width] using bitValue_lt on)
  | addr1 d => exact emit _ rfl (fits_write rfl (byte_lt _))
  | addr2 => exact emit _ rfl (by rfl)
  | rxcnt =>
    refine emit _ rfl ?_
    have : (rxcntValue s.params s.len).toNat < 2 ^ s.params.rxcntw := by
      rw [rxcntValue, BitVec.toNat_ofNat]
      exact Nat.lt_of_le_of_lt (Nat.mod_le ..) (Nat.mod_lt _ (Nat.two_pow_pos _))
    exact fits_write rfl this
  | stage i =>
    obtain ⟨d, hd⟩ := s.entry_spec s.wbuf i
    have : s.prim (.stage i) = { s with
        draws := d, trace := s.trace ++ [.write .tx ((s.entry s.wbuf i).1.setWidth 32)] } := by
      simp [State.prim, State.pwrite, State.emit, hd]
    rw [this]
    refine ⟨SameHost.refl s, ⟨rfl, rfl, rfl⟩, _, rfl, ?_⟩
    simpa only [QuietEvents, List.mem_singleton, forall_eq, divWritten, true_and] using fits_write rfl (byte_lt _)
  | drain i =>
    obtain ⟨b, as, d, hd⟩ := prim_drain s i
    rw [hd]
    refine ⟨SameHost.refl s, ⟨rfl, rfl, rfl⟩, _, rfl, ?_⟩
    simpa only [QuietEvents, List.mem_singleton, forall_eq, divWritten, true_and] using fits_read rfl (byte_lt b)

theorem quiet_raise (s : State) (f : Flag) : Quiet s (s.raise f) := by
  cases f <;> exact .silent (SameHost.refl s) ⟨rfl, rfl, rfl⟩ rfl

theorem quiet_setProg (s : State) (p : List Micro) : Quiet s (s.setProg p) := .silent (SameHost.refl s) ⟨rfl, rfl, rfl⟩ rfl

theorem quiet_setTocnt (s : State) (v : Word) : Quiet s (s.setTocnt v) := .silent (SameHost.refl s) ⟨rfl, rfl, rfl⟩ rfl

theorem quiet_finish (s : State) (r : TxResult) : Quiet s (s.finish r) := .silent (SameHost.refl s) ⟨rfl, rfl, rfl⟩ rfl

theorem quiet_accept (s : State) (o : BitVec 2) (l : BitVec 16) (st : Bool) : Quiet s (s.accept o l st) :=
  .silent (SameHost.refl s) ⟨rfl, rfl, rfl⟩ rfl

theorem quiet_pollLoop (s : State) (w : Site) (n : Nat) (hn : s.tocnt.toNat = n) : Quiet s (State.pollLoop w n s).2 := by
  obtain ⟨r, c, evs, as, d, h, hp⟩ := State.pollLoop_spec w n s hn
  rw [h]
  exact ⟨SameHost.refl s, ⟨rfl, rfl, rfl⟩, evs, rfl, quietEvents_polls hp⟩

theorem quiet_pollOnce (s : State) (w : Site) (rest : List Micro) (h : s.tocnt ≠ 0#32) : Quiet s (s.pollOnce w rest) := by
  obtain ⟨v, as, d, -, hp⟩ := pollOnce_spec s w rest h
  have h1 : Quiet s ({ s with trace := s.trace ++ [pollOf w v], answers := as, draws := d } : State) := by
    refine ⟨SameHost.refl s, ⟨rfl, rfl, rfl⟩, _, rfl, ?_⟩
    have := bitValue_lt v
    cases w <;> simpa [QuietEvents, pollOf, eventFits, divWritten, Site.field, PortField.readable, PortField.width] using this
  rw [hp]
  split
  · exact h1.trans (quiet_setProg _ _)
  · split
    · exact h1.trans ((quiet_setTocnt _ _).trans ((quiet_raise _ _).trans (quiet_setProg _ _)))
    · exact h1.trans ((quiet_setTocnt _ _).trans (quiet_setProg _ _))

/-- The pair of an accepted division (R98, R100). -/
theorem divCalc_success {divw : Nat} {c f : Word} {h l : BitVec 16} (hd : divw ≤ 16) (hs : divCalc divw c f = .success h l) :
    l.toNat = h.toNat + 1 ∧ 8 ≤ h.toNat ∧ l.toNat < 2 ^ divw := by
  have hp : 2 ^ divw ≤ 2 ^ 16 := Nat.pow_le_pow_right (by omega) hd
  have dc : ∀ q, roundedQuotient c f = q → divCalc divw c f =
      (if q ≤ 1 then .wrongFrequency else if (q - 2) + (q - 1) ≤ 15 then .siliconAnomaly
        else if 2 ^ divw < q then .wrongFrequency
        else .success (BitVec.ofNat 16 (q - 2)) (BitVec.ofNat 16 (q - 1))) := by rintro _ rfl; rfl
  rw [dc _ rfl] at hs
  generalize roundedQuotient c f = q at hs
  split at hs
  · cases hs
  · split at hs
    · cases hs
    · split at hs
      · cases hs
      · cases hs
        simp only [BitVec.toNat_ofNat]
        rw [Nat.mod_eq_of_lt (by omega), Nat.mod_eq_of_lt (by omega)]; omega

/-- A pair that fits the divider fields makes a DIV value that fits the port field (R79). -/
theorem divValue_lt {p : Params} {h l : BitVec 16} (hh : h.toNat < 2 ^ p.divw) (hl : l.toNat < 2 ^ p.divw) :
    (divValue p h l).toNat < 2 ^ (2 * p.divw) := by
  have hlt : h.toNat * 2 ^ p.divw + l.toNat < 2 ^ (2 * p.divw) := by
    rw [Nat.two_mul, Nat.pow_add]
    calc h.toNat * 2 ^ p.divw + l.toNat < h.toNat * 2 ^ p.divw + 2 ^ p.divw := by omega
      _ = (h.toNat + 1) * 2 ^ p.divw := (Nat.succ_mul ..).symm
      _ ≤ _ := Nat.mul_le_mul_right _ hh
  rw [divValue, BitVec.toNat_ofNat]
  exact Nat.lt_of_le_of_lt (Nat.mod_le ..) hlt

theorem whole_program (s : State) (h l : BitVec 16) (r : TxResult) (p : List Micro)
    (hs : divCalc s.params.divw s.inclk s.freq = .success h l) (t : State)
    (ht : t = (s.programDivider h l).setProg p ∨ t = (s.programDivider h l).finish r) : Whole s t := by
  have hd : t.divh = h ∧ t.divl = l ∧ t.divvalid = true ∧ t.params = s.params ∧
      t.trace = s.trace ++ [.write .div (divValue s.params h l)] ∧ SameHost s t := by
    rcases ht with rfl | rfl <;> exact ⟨rfl, rfl, rfl, rfl, rfl, SameHost.refl s⟩
  obtain ⟨h1, h2, h3, h4, h5, h6⟩ := hd
  refine ⟨h6, ⟨_, h5, fun hl e he => ?_, fun hn => ?_, fun v hv => ?_⟩, fun hl hm => ?_⟩
  · obtain ⟨a, b, c⟩ := divCalc_success hl.2.1 hs
    have := divValue_lt (p := s.params) (h := h) (l := l) (by omega) c
    rw [List.mem_singleton] at he; subst he
    exact fits_write rfl this
  · simp [divWritten] at hn
  · simp [divWritten] at hv
    exact ⟨h3, by rw [hv, h1, h2]⟩
  · obtain ⟨a, b, c⟩ := divCalc_success hl.2.1 hs
    rw [MirrorSound, h3, if_pos rfl, h1, h2, h4]
    exact ⟨a, b, by omega, c⟩

/-! ### Programs and turns -/

theorem whole_run (prog : List Micro) (s : State) : Whole s (run prog s) := by
  induction prog generalizing s with
  | nil => exact (quiet_setProg s s.prog).whole
  | cons m rest ih =>
    have wt : ∀ (w : Site) (s : State), Whole s (run (.poll w :: rest) s) := by
      intro w s
      have hq := quiet_pollLoop s w s.tocnt.toNat rfl
      unfold run
      generalize State.pollLoop w s.tocnt.toNat s = pr at hq ⊢
      rcases pr with ⟨_ | _, s1⟩
      · exact hq.then (ih s1)
      · simp only
        split
        · exact (hq.trans ((quiet_raise _ _).trans (quiet_finish _ _))).whole
        · exact (hq.trans (quiet_raise _ _)).then (ih _)
    cases m with
    | prim p => exact (quiet_prim s p).then (ih _)
    | wait w => rw [run_wait_poll]; exact (quiet_setTocnt s _).then (wt w _)
    | poll w => exact wt w s
    | divide =>
      rw [run_divide, State.divide]
      cases h : divCalc s.params.divw s.inclk s.freq with
      | success a b => exact whole_program s a b _ [] h _ (.inr rfl)
      | wrongFrequency => exact (quiet_finish s _).whole
      | siliconAnomaly => exact (quiet_finish s _).whole
    | finish r => exact (quiet_finish s r).whole
    | conclude => exact (quiet_finish s _).whole

theorem whole_tick (prog : List Micro) (s : State) : Whole s (tick prog s) := by
  induction prog generalizing s with
  | nil => exact (quiet_setProg s s.prog).whole
  | cons m rest ih =>
    have wt : ∀ (w : Site) (s : State), Whole s (tick (.poll w :: rest) s) := by
      intro w s
      unfold tick
      split
      · split
        · exact ((quiet_raise _ _).trans ((quiet_finish _ _).trans (quiet_setProg _ _))).whole
        · exact (quiet_raise _ _).then (ih _)
      · rename_i h; exact (quiet_pollOnce s w rest h).whole
    cases m with
    | prim p =>
      simp only [tick]
      split
      · exact (quiet_prim s p).then (ih _)
      · exact ((quiet_prim s p).trans (quiet_setProg _ _)).whole
    | wait w => rw [tick_wait_poll]; exact (quiet_setTocnt s _).then (wt w _)
    | poll w => exact wt w s
    | divide =>
      simp only [tick]
      cases h : divCalc s.params.divw s.inclk s.freq with
      | success a b => exact whole_program s a b .success _ h _ (.inl rfl)
      | wrongFrequency => exact ((quiet_finish s _).trans (quiet_setProg _ _)).whole
      | siliconAnomaly => exact ((quiet_finish s _).trans (quiet_setProg _ _)).whole
    | finish r => exact ((quiet_finish s r).trans (quiet_setProg _ _)).whole
    | conclude => exact ((quiet_finish s _).trans (quiet_setProg _ _)).whole

/-! ### RBUF -/

/-- RBUF in canonical form, below `n` (R32). -/
def RbufOk (n : Nat) (s : State) : Prop := s.rbuf.wf = true ∧ s.rbuf.below n = true

theorem rbufOk_prim (n : Nat) (s : State) (p : Prim) (hi : indicesBelow n [.prim p] = true) (h : RbufOk n s) :
    RbufOk n (s.prim p) := by
  cases p with
  | drain i =>
    obtain ⟨b, as, d, hd⟩ := prim_drain s i
    simp only [indicesBelow, Bool.and_true, decide_eq_true_eq] at hi
    rw [hd]
    exact ⟨Memory.wf_write _ _ _ h.1, Memory.below_write _ _ _ _ h.2 hi⟩
  | stage i =>
    obtain ⟨d, hd⟩ := s.entry_spec s.wbuf i
    simp only [State.prim, State.pwrite, State.emit, hd]; exact h
  | _ => exact h

theorem rbufOk_raise (n : Nat) (s : State) (f : Flag) (h : RbufOk n s) : RbufOk n (s.raise f) := by cases f <;> exact h

theorem indicesBelow_cons (n : Nat) (m : Micro) (rest : List Micro) :
    indicesBelow n (m :: rest) = (indicesBelow n [m] && indicesBelow n rest) := by
  cases m with
  | prim p => cases p <;> simp [indicesBelow]
  | _ => simp [indicesBelow]

theorem indicesBelow_append (n : Nat) (a b : List Micro) :
    indicesBelow n (a ++ b) = (indicesBelow n a && indicesBelow n b) := by
  induction a with
  | nil => simp [indicesBelow]
  | cons m a ih => rw [List.cons_append, indicesBelow_cons, ih, indicesBelow_cons n m a, Bool.and_assoc]

theorem rbufOk_pollLoop (n : Nat) (s : State) (w : Site) (h : RbufOk n s) :
    RbufOk n (State.pollLoop w s.tocnt.toNat s).2 := by
  obtain ⟨r, c, evs, as, d, hp, -⟩ := State.pollLoop_spec w s.tocnt.toNat s rfl
  rw [hp]; exact h

theorem rbufOk_run (n : Nat) (prog : List Micro) (s : State) (hi : indicesBelow n prog = true) (h : RbufOk n s) :
    RbufOk n (run prog s) := by
  induction prog generalizing s with
  | nil => exact h
  | cons m rest ih =>
    rw [indicesBelow_cons, Bool.and_eq_true] at hi
    have wt : ∀ (w : Site) (s : State), RbufOk n s → RbufOk n (run (.poll w :: rest) s) := by
      intro w s h
      have hq := rbufOk_pollLoop n s w h
      unfold run
      generalize State.pollLoop w s.tocnt.toNat s = pr at hq ⊢
      rcases pr with ⟨_ | _, s1⟩
      · exact ih s1 hi.2 hq
      · simp only
        split
        · exact rbufOk_raise n s1 _ hq
        · exact ih _ hi.2 (rbufOk_raise n s1 _ hq)
    cases m with
    | prim p => exact ih _ hi.2 (rbufOk_prim n s p hi.1 h)
    | wait w => rw [run_wait_poll]; exact wt w (s.setTocnt _) h
    | poll w => exact wt w s h
    | divide =>
      rw [run_divide, State.divide]
      cases divCalc s.params.divw s.inclk s.freq <;> exact h
    | finish r => exact h
    | conclude => exact h

theorem pollOnce_rbuf (s : State) (w : Site) (rest : List Micro) (h : s.tocnt ≠ 0#32) :
    (s.pollOnce w rest).rbuf = s.rbuf ∧ ((s.pollOnce w rest).prog = rest ∨ (s.pollOnce w rest).prog = .poll w :: rest ∨
      (s.pollOnce w rest).prog = [.finish .failure]) := by
  obtain ⟨v, as, d, -, hp⟩ := pollOnce_spec s w rest h
  rw [hp]
  split
  · exact ⟨rfl, .inl rfl⟩
  · split
    · refine ⟨by cases w.flag <;> rfl, ?_⟩
      cases w.aborts
      · exact .inl rfl
      · exact .inr (.inr rfl)
    · exact ⟨rfl, .inr (.inl rfl)⟩

/-- A turn keeps RBUF sound, and what is left of the program keeps to the buffers. -/
theorem rbufOk_tick (n : Nat) (m : Micro) (rest : List Micro) (s : State) (hs : settles s.phase (m :: rest) = true)
    (hi : indicesBelow n (m :: rest) = true) (h : RbufOk n s) :
    RbufOk n (tick (m :: rest) s) ∧ indicesBelow n (tick (m :: rest) s).prog = true := by
  induction rest generalizing m s with
  | nil =>
    rw [indicesBelow_cons, Bool.and_eq_true] at hi
    cases m with
    | prim p => cases p <;> simp [settles] at hs
    | wait w => simp [settles] at hs
    | poll w => simp [settles] at hs
    | divide =>
      simp only [tick]
      cases divCalc s.params.divw s.inclk s.freq <;> exact ⟨h, rfl⟩
    | finish r => exact ⟨h, rfl⟩
    | conclude => exact ⟨h, rfl⟩
  | cons m' rest ih =>
    have hi0 := hi
    rw [indicesBelow_cons, Bool.and_eq_true] at hi
    have wt : ∀ (w : Site) (s : State), settles s.phase (.poll w :: m' :: rest) = true → RbufOk n s →
        RbufOk n (tick (.poll w :: m' :: rest) s) ∧ indicesBelow n (tick (.poll w :: m' :: rest) s).prog = true := by
      intro w s hs h
      have hs2 : settles s.phase (m' :: rest) = true := by
        simp only [settles, Bool.and_eq_true] at hs; exact hs.2
      by_cases h0 : s.tocnt = 0#32
      · cases hw : w.aborts with
        | true =>
          have ht : tick (.poll w :: m' :: rest) s = ((s.raise w.flag).finish .failure).setProg [] := by
            simp only [tick, h0, hw, if_true]
          rw [ht]; exact ⟨rbufOk_raise n s _ h, rfl⟩
        | false =>
          have ht : tick (.poll w :: m' :: rest) s = tick (m' :: rest) (s.raise w.flag) := by
            rw [tick]; simp only [h0, hw, if_true, Bool.false_eq_true, if_false]
          rw [ht]
          exact ih m' (s.raise w.flag) (by cases w.flag <;> exact hs2) hi.2 (rbufOk_raise n s _ h)
      · have ht : tick (.poll w :: m' :: rest) s = s.pollOnce w (m' :: rest) := by
          rw [tick]; simp only [h0, if_false]
        obtain ⟨h1, h2⟩ := pollOnce_rbuf s w (m' :: rest) h0
        rw [ht, RbufOk, h1]
        refine ⟨h, ?_⟩
        rcases h2 with h2 | h2 | h2 <;> rw [h2]
        · exact hi.2
        · rw [indicesBelow_cons, hi.2]; rfl
        · rfl
    cases m with
    | prim p =>
      cases hp : p.silent with
      | true =>
        have ht : tick (.prim p :: m' :: rest) s = tick (m' :: rest) (s.prim p) := by rw [tick, if_pos hp]
        rw [ht]
        cases p with
        | phase q => exact ih m' (s.setPhase q) hs hi.2 h
        | idx i => exact ih m' (s.setIdx i) hs hi.2 h
        | _ => cases hp
      | false =>
        have ht : tick (.prim p :: m' :: rest) s = (s.prim p).setProg (m' :: rest) := by
          rw [tick, if_neg (by simp [hp])]
        rw [ht]
        exact ⟨rbufOk_prim n s p hi.1 h, hi.2⟩
    | wait w => rw [tick_wait_poll]; exact wt w (s.setTocnt _) hs h
    | poll w => exact wt w s hs h
    | divide =>
      simp only [tick]
      cases divCalc s.params.divw s.inclk s.freq <;> exact ⟨h, rfl⟩
    | finish r => exact ⟨h, rfl⟩
    | conclude => exact ⟨h, rfl⟩

/-! ### The three programs -/

theorem settles_wrLoop (p : Phase) (i k : Nat) (rest : List Micro) :
    settles p (wrLoop i k ++ rest) = settles p rest := by
  induction k generalizing i with
  | zero => rfl
  | succ k ih => simp [wrLoop, settles, Site.aborts, ih]

theorem settles_rdLoop (p : Phase) (i k : Nat) (rest : List Micro) :
    settles p (rdLoop i k ++ rest) = settles p rest := by
  induction k generalizing i with
  | zero => rfl
  | succ k ih => simp [rdLoop, settles, Site.aborts, ih]

theorem indicesBelow_wrLoop (n i k : Nat) (h : i + k ≤ n) : indicesBelow n (wrLoop i k) = true := by
  induction k generalizing i with
  | zero => rfl
  | succ k ih => simp only [wrLoop, indicesBelow, Bool.and_eq_true, decide_eq_true_eq]; exact ⟨by omega, ih (i + 1) (by omega)⟩

theorem indicesBelow_rdLoop (n i k : Nat) (h : i + k ≤ n) : indicesBelow n (rdLoop i k) = true := by
  induction k generalizing i with
  | zero => rfl
  | succ k ih => simp only [rdLoop, indicesBelow, Bool.and_eq_true, decide_eq_true_eq]; exact ⟨by omega, ih (i + 1) (by omega)⟩

theorem cfgProgram_sound (n : Nat) (p : Phase) (h : p.quiescent = true) :
    settles p cfgProgram = true ∧ indicesBelow n cfgProgram = true := by
  cases p <;> simp_all [cfgProgram, settles, indicesBelow, Phase.quiescent]

theorem wrProgram_sound (n len : Nat) (stop : Bool) (p : Phase) (h1 : 1 ≤ len) (h2 : len ≤ n) :
    settles p (wrProgram len stop) = true ∧ indicesBelow n (wrProgram len stop) = true := by
  refine ⟨?_, ?_⟩
  · simp only [wrProgram, wrHead, List.cons_append, List.nil_append, settles, settles_wrLoop]
    cases stop <;> rfl
  · rw [wrProgram, indicesBelow_append, indicesBelow_append, indicesBelow_wrLoop n 1 (len - 1) (by omega)]
    have : 0 < n := by omega
    cases stop <;> simp [wrHead, wrTail, indicesBelow, this]

theorem rdProgram_sound (n len : Nat) (p : Phase) (h : len ≤ n) :
    settles p (rdProgram len) = true ∧ indicesBelow n (rdProgram len) = true := by
  refine ⟨?_, ?_⟩
  · simp only [rdProgram, rdHead, List.cons_append, List.nil_append, settles, settles_rdLoop]; rfl
  · rw [rdProgram, indicesBelow_append, indicesBelow_append, indicesBelow_rdLoop n 0 len (by omega)]
    rfl

end Sys2Proof.Machine
end

