-- ==== Sys2Proof/Laws/PerInstr.lean ====
section
/-! SUPPORT. One statement about every instruction as syntax: the fields of its word (R68, R70 to R73). -/

namespace Sys2Proof.Laws.EncodedFields

open Sys2Proof

/-- The fields OP, STOP, LEN and the zero bits of the instruction's word are as the rules give them. -/
def Statement (i : Instr) : Prop :=
  fieldZero (encode i) = 0#13 ∧
    match i with
    | .cfg => fieldOp (encode i) = 0b00#2 ∧ fieldStop (encode i) = false ∧ fieldLen (encode i) = 0#16
    | .wr len stop => fieldOp (encode i) = 0b01#2 ∧ fieldStop (encode i) = stop ∧ fieldLen (encode i) = len
    | .rd len => fieldOp (encode i) = 0b10#2 ∧ fieldStop (encode i) = false ∧ fieldLen (encode i) = len

theorem cfg : Statement .cfg := ⟨by decide, by decide, by decide, by decide⟩

theorem wr (len : BitVec 16) (stop : Bool) : Statement (.wr len stop) := by
  refine ⟨?_, ?_, ?_, ?_⟩
  · apply BitVec.eq_of_getLsbD_eq; intro k hk
    simp only [fieldZero, encode, BitVec.getLsbD_extractLsb', BitVec.getLsbD_append]
    interval_cases k <;> simp
  · apply BitVec.eq_of_getLsbD_eq; intro k hk
    simp only [fieldOp, encode, BitVec.getLsbD_extractLsb', BitVec.getLsbD_append]
    interval_cases k <;> simp
  · simp only [fieldStop, encode, BitVec.getLsbD_append]; simp
  · apply BitVec.eq_of_getLsbD_eq; intro k hk
    simp only [fieldLen, encode, BitVec.getLsbD_extractLsb', BitVec.getLsbD_append]
    interval_cases k <;> simp

theorem rd (len : BitVec 16) : Statement (.rd len) := by
  refine ⟨?_, ?_, ?_, ?_⟩
  · apply BitVec.eq_of_getLsbD_eq; intro k hk
    simp only [fieldZero, encode, BitVec.getLsbD_extractLsb', BitVec.getLsbD_append]
    interval_cases k <;> simp
  · apply BitVec.eq_of_getLsbD_eq; intro k hk
    simp only [fieldOp, encode, BitVec.getLsbD_extractLsb', BitVec.getLsbD_append]
    interval_cases k <;> simp
  · simp only [fieldStop, encode, BitVec.getLsbD_append]; simp
  · apply BitVec.eq_of_getLsbD_eq; intro k hk
    simp only [fieldLen, encode, BitVec.getLsbD_extractLsb', BitVec.getLsbD_append]
    interval_cases k <;> simp

end Sys2Proof.Laws.EncodedFields
end

