-- ==== Sys2Proof/Laws/Ready.lean ====
section
/-! SUPPORT. The guards of the three operations pass exactly in the states of `Ready` (R74, R102, R114, R128). -/

namespace Sys2Proof.Machine

open Sys2Proof.Safety

theorem len_eq_zero (len : BitVec 16) : len = 0#16 ↔ len.toNat = 0 := by rw [← BitVec.toNat_inj]; rfl

theorem cfgGuard_none (s : State) : cfgGuard s = none ↔ Ready .cfg s := by
  simp only [cfgGuard, Ready, WellFormed]
  split
  · simp_all
  · split <;> simp_all

theorem wrGuard_none (len : BitVec 16) (stop : Bool) (s : State) : wrGuard len s = none ↔ Ready (.wr len stop) s := by
  simp only [wrGuard, Ready, WellFormed, lenInRange, Bool.and_eq_true, decide_eq_true_eq, ← Memory.written_iff, len_eq_zero]
  split
  · simp_all
  · split
    · simp_all
    · split
      · simp; intros; omega
      · split <;> simp_all
        all_goals omega

theorem rdGuard_none (len : BitVec 16) (s : State) : rdGuard len s = none ↔ Ready (.rd len) s := by
  simp only [rdGuard, Ready, WellFormed, lenInRange, Bool.and_eq_true, decide_eq_true_eq, len_eq_zero]
  split
  · simp_all
  · split
    · simp_all
    · split
      · simp; intros; omega
      · simp_all; omega

/-- An operation that answers a next state had its guard pass and ran its program. -/
theorem operate_next (g : Option Refusal) (prog : List Micro) (a t : State) :
    operate g prog a = .next t ↔ g = none ∧ run prog a = t := by
  cases g <;> simp [operate]

end Sys2Proof.Machine
end

