-- ==== Sys2Proof/Laws/Progress.lean ====
section
/-! SUPPORT. What a host can see of a running operation, followed through a program: a check of the program alone (`Shows`),
and that every turn keeps a state that passes it on its way (`Track`), showing what it should (`Shown`). -/

namespace Sys2Proof.Machine

open Sys2Proof.Safety

/-- Walking through a program from PHASE `ph` and IDX `ix`, with `n` octets moved, `r` of them read from RX, and no field
outside `seen` polled last: at every event it can make, PHASE and IDX are what `pf` and `xf` say for the event and the octets
moved. A wait polls a field not polled last, and a drain fills the next entry of RBUF; octets are drained
where `dr`, staged where not. -/
def Shows (pf : Nat → PortEvent → Phase) (xf : Nat → PortEvent → BitVec 16) (dr : Bool) :
    List Micro → Phase → BitVec 16 → Nat → Nat → List PortField → Prop
  | [], _, _, _, _, _ => False
  | .prim (.phase p) :: rest, _, ix, n, r, seen => Shows pf xf dr rest p ix n r seen
  | .prim (.idx i) :: rest, ph, _, n, r, seen => Shows pf xf dr rest ph (BitVec.ofNat 16 i) n r seen
  | .prim .pin :: rest, ph, ix, n, r, _ => (∀ v, pf n (.pin v) = ph ∧ xf n (.pin v) = ix) ∧ Shows pf xf dr rest ph ix n r []
  | .prim (.masen on) :: rest, ph, ix, n, r, _ =>
    (pf n (.write .masen (bitValue on)) = ph ∧ xf n (.write .masen (bitValue on)) = ix) ∧ Shows pf xf dr rest ph ix n r []
  | .prim (.txflush on) :: rest, ph, ix, n, r, _ =>
    (pf n (.write .txflush (bitValue on)) = ph ∧ xf n (.write .txflush (bitValue on)) = ix) ∧ Shows pf xf dr rest ph ix n r []
  | .prim (.stage _) :: rest, ph, ix, n, r, _ =>
    dr = false ∧ (∀ v, pf (n + 1) (.write .tx v) = ph ∧ xf (n + 1) (.write .tx v) = ix) ∧
      Shows pf xf dr rest ph ix (n + 1) r []
  | .prim (.addr1 _) :: rest, ph, ix, n, r, _ =>
    (∀ v, pf n (.write .addr1 v) = ph ∧ xf n (.write .addr1 v) = ix) ∧ Shows pf xf dr rest ph ix n r []
  | .prim .addr2 :: rest, ph, ix, n, r, _ =>
    (∀ v, pf n (.write .addr2 v) = ph ∧ xf n (.write .addr2 v) = ix) ∧ Shows pf xf dr rest ph ix n r []
  | .prim .rxcnt :: rest, ph, ix, n, r, _ =>
    (∀ v, pf n (.write .rxcnt v) = ph ∧ xf n (.write .rxcnt v) = ix) ∧ Shows pf xf dr rest ph ix n r []
  | .prim (.drain i) :: rest, ph, ix, n, r, _ =>
    (dr = true ∧ i = r) ∧ (∀ v, pf (n + 1) (.read .rx v) = ph ∧ xf (n + 1) (.read .rx v) = ix) ∧
      Shows pf xf dr rest ph ix (n + 1) (r + 1) []
  | .wait w :: rest, ph, ix, n, r, seen =>
    w.field ∉ seen ∧ (∀ v, pf n (pollOf w v) = ph ∧ xf n (pollOf w v) = ix) ∧
      Shows pf xf dr rest ph ix n r (w.field :: seen)
  | .poll _ :: _, _, _, _, _, _ => False
  | .divide :: _, ph, ix, n, _, _ => ∀ v, pf n (.write .div v) = ph ∧ xf n (.write .div v) = ix
  | .finish _ :: _, _, _, _, _, _ => True
  | .conclude :: _, _, _, _, _, _ => True

/-- After the events `evs`, no status field outside `seen` was polled last. -/
def Fresh (evs : List PortEvent) (seen : List PortField) : Prop := ∀ w : Site, w.field ∉ seen → trailing w.field evs = 0

/-- The octets read so far from RX. -/
def drained (evs : List PortEvent) : List Byte := evs.filterMap rxValue

/-- What is left to do passes the check: from its head, or in the middle of a wait with polls left. -/
def OnPlace (pf : Nat → PortEvent → Phase) (xf : Nat → PortEvent → BitVec 16) (dr : Bool)
    (s : State) (prog : List Micro) (u : State) (evs : List PortEvent) : Prop :=
  (∃ seen, Shows pf xf dr prog u.phase u.idx (octets evs) (drained evs).length seen ∧ Fresh evs seen) ∨
  (∃ w rest seen, prog = .poll w :: rest ∧
    (∀ v, pf (octets evs) (pollOf w v) = u.phase ∧ xf (octets evs) (pollOf w v) = u.idx) ∧
    Shows pf xf dr rest u.phase u.idx (octets evs) (drained evs).length (w.field :: seen) ∧ u.tocnt ≠ 0#32 ∧
    u.tocnt.toNat + trailing w.field evs = (w.budget s).toNat)

/-- The state `u` is on its way from `s` with the events `evs` made; what is left to do apart. -/
structure Track (dr : Bool) (s : State) (u : State) (evs : List PortEvent) : Prop where
  record : u.trace = s.trace ++ evs
  budget : ∀ w : Site, w.budget u = w.budget s
  result : u.result = s.result
  drains : if dr then octets evs = (drained evs).length else drained evs = []
  rbuf : ∀ j, u.rbuf.read j = if j < (drained evs).length then (drained evs)[j]? else s.rbuf.read j

/-- PHASE, IDX and, after a poll, TOCNT are what they should be with the last of the events `evs`. -/
structure Shown (pf : Nat → PortEvent → Phase) (xf : Nat → PortEvent → BitVec 16) (s : State) (u : State)
    (evs : List PortEvent) : Prop where
  start : evs = [] → u.phase = s.phase ∧ u.idx = s.idx
  last : ∀ e, evs.getLast? = some e → u.phase = pf (octets evs) e ∧ u.idx = xf (octets evs) e
  count : ∀ w v, evs.getLast? = some (pollOf w v) → trailing w.field evs ≤ (w.budget s).toNat ∧
    u.tocnt.toNat = (w.budget s).toNat - trailing w.field evs + (if v = w.want then 1 else 0)

/-- An operation on its way, showing what it should. -/
def Running (pf : Nat → PortEvent → Phase) (xf : Nat → PortEvent → BitVec 16) (dr : Bool)
    (s u : State) : Prop :=
  ∃ evs, Track dr s u evs ∧ OnPlace pf xf dr s u.prog u evs ∧ Shown pf xf s u evs

/-! ### One event longer -/

theorem trailing_append (f : PortField) (evs : List PortEvent) (e : PortEvent) :
    trailing f (evs ++ [e]) = if isReadOf f e then trailing f evs + 1 else 0 := by
  cases h : isReadOf f e <;> simp [trailing, h]

theorem octets_append (evs : List PortEvent) (e : PortEvent) :
    octets (evs ++ [e]) = octets evs + if isOctet e then 1 else 0 := by
  simp [octets, List.countP_append, List.countP_singleton]

theorem drained_append (evs : List PortEvent) (e : PortEvent) : drained (evs ++ [e]) = drained evs ++ (rxValue e).toList := by
  rw [drained, List.filterMap_append]; cases h : rxValue e <;> simp [h, drained]

theorem pollOf_isReadOf (w : Site) (v : Bool) (f : PortField) : isReadOf f (pollOf w v) = decide (w.field = f) := rfl

theorem pollOf_isOctet (w : Site) (v : Bool) : isOctet (pollOf w v) = false := by cases w <;> rfl

theorem pollOf_rxValue (w : Site) (v : Bool) : rxValue (pollOf w v) = none := by cases w <;> rfl

/-- Two sites that poll one field wait for one value with one budget, so a poll tells its wait. -/
theorem pollOf_inj {w w' : Site} {v v' : Bool} (h : pollOf w v = pollOf w' v') :
    v = v' ∧ w.field = w'.field ∧ w.want = w'.want ∧ ∀ u : State, w.budget u = w'.budget u := by
  have hf : w.field = w'.field := by injection h
  have hv : bitValue v = bitValue v' := by injection h
  refine ⟨?_, hf, ?_, fun u => ?_⟩
  · cases v <;> cases v' <;> first | rfl | exact absurd hv (by decide)
  · cases w <;> cases w' <;> first | rfl | cases hf
  · cases w <;> cases w' <;> first | rfl | cases hf

variable {pf : Nat → PortEvent → Phase} {xf : Nat → PortEvent → BitVec 16} {dr : Bool} {s : State}

/-- A state on its way has only these fields looked at. -/
theorem Track.of_eq {u t : State} {evs : List PortEvent} (h : Track dr s u evs) (h1 : t.trace = u.trace)
    (h2 : ∀ w : Site, w.budget t = w.budget u) (h3 : t.result = u.result) (h4 : t.rbuf = u.rbuf) : Track dr s t evs :=
  ⟨h1.trans h.record, fun w => (h2 w).trans (h.budget w), h3.trans h.result, h.drains, by rw [h4]; exact h.rbuf⟩

/-- A poll under way, made once more. -/
theorem running_pollOnce {u : State} {evs : List PortEvent} {w : Site} {rest : List Micro} {seen : List PortField}
    (ht : Track dr s u evs) (hb : u.busy = true)
    (hf : ∀ v, pf (octets evs) (pollOf w v) = u.phase ∧ xf (octets evs) (pollOf w v) = u.idx)
    (hs : Shows pf xf dr rest u.phase u.idx (octets evs) (drained evs).length (w.field :: seen))
    (h0 : u.tocnt ≠ 0#32)
    (hc : u.tocnt.toNat + trailing w.field evs = (w.budget s).toNat) :
    Running pf xf dr s (u.pollOnce w rest) ∧ (u.pollOnce w rest).busy = true := by
  obtain ⟨v, as, d, -, hp⟩ := pollOnce_spec u w rest h0
  have ho : octets (evs ++ [pollOf w v]) = octets evs := by rw [octets_append, pollOf_isOctet]; rfl
  have hd : drained (evs ++ [pollOf w v]) = drained evs := by rw [drained_append, pollOf_rxValue]; simp
  have htr : trailing w.field (evs ++ [pollOf w v]) = trailing w.field evs + 1 := by
    rw [trailing_append, pollOf_isReadOf]; simp
  have hpos : 0 < u.tocnt.toNat := Nat.pos_of_ne_zero fun h => h0 (BitVec.eq_of_toNat_eq h)
  have hdec : (u.tocnt - 1#32).toNat = u.tocnt.toNat - 1 := by
    have := u.tocnt.isLt
    rw [BitVec.toNat_sub]; simp; omega
  have hfr' : Fresh (evs ++ [pollOf w v]) (w.field :: seen) := by
    intro w' hw'
    rw [trailing_append, pollOf_isReadOf]
    have : w.field ≠ w'.field := fun h => hw' (by simp [h])
    simp [this]
  -- what every outcome of the poll shares
  have key : ∀ t : State, t.trace = u.trace ++ [pollOf w v] → (∀ w' : Site, w'.budget t = w'.budget u) →
      t.result = u.result → t.rbuf = u.rbuf → t.phase = u.phase → t.idx = u.idx → t.busy = u.busy →
      t.tocnt.toNat = u.tocnt.toNat - 1 + (if v = w.want then 1 else 0) →
      ((∃ seen', Shows pf xf dr t.prog u.phase u.idx (octets evs) (drained evs).length seen' ∧
          Fresh (evs ++ [pollOf w v]) seen') ∨ (t.prog = .poll w :: rest ∧ t.tocnt ≠ 0#32 ∧ v ≠ w.want)) →
      Running pf xf dr s t ∧ t.busy = true := by
    intro t h1 h2 h3 h4 h5 h6 h7 h8 h9
    refine ⟨⟨evs ++ [pollOf w v], ⟨by rw [h1, ht.record, List.append_assoc], fun w' => (h2 w').trans (ht.budget w'),
      h3.trans ht.result, by rw [ho, hd]; exact ht.drains,
      by rw [h4, hd]; exact ht.rbuf⟩, ?_, ?_⟩, h7.trans hb⟩
    · rw [OnPlace, ho, hd, h5, h6]
      rcases h9 with h9 | ⟨h9, h10, h11⟩
      · exact .inl h9
      · exact .inr ⟨w, rest, seen, h9, hf, hs, h10, by rw [h8, htr, if_neg h11]; omega⟩
    · refine ⟨by simp, fun e he => ?_, fun w' v' he => ?_⟩
      · simp only [List.getLast?_append, List.getLast?_singleton, Option.some.injEq,
          Option.some_or] at he
        subst he
        rw [h5, h6, ho]; exact ⟨(hf v).1.symm, (hf v).2.symm⟩
      · simp only [List.getLast?_append, List.getLast?_singleton, Option.some.injEq,
          Option.some_or] at he
        obtain ⟨e1, e2, e3, e4⟩ := pollOf_inj he
        rw [← e2, htr, ← e4 s, ← e3, ← e1, h8]
        refine ⟨by omega, ?_⟩; split <;> omega
  rw [hp]
  by_cases hv : v = w.want
  · rw [if_pos hv]
    refine key _ rfl (fun w' => by cases w' <;> rfl) rfl rfl rfl rfl rfl ?_ (.inl ⟨_, hs, hfr'⟩)
    rw [if_pos hv]; simp only [State.setProg_tocnt]; omega
  · rw [if_neg hv]
    by_cases hz : u.tocnt - 1#32 = 0#32
    · rw [if_pos hz]
      have hz' : u.tocnt.toNat - 1 = 0 := by rw [← hdec, hz]; rfl
      refine key _ (by cases w.flag <;> rfl) (fun w' => by cases w' <;> cases w.flag <;> rfl) (by cases w.flag <;> rfl)
        (by cases w.flag <;> rfl) (by cases w.flag <;> rfl) (by cases w.flag <;> rfl) (by cases w.flag <;> rfl) ?_ (.inl ?_)
      · rw [if_neg hv, hz']; cases w.flag <;> rfl
      · cases hw : w.aborts with
        | true => exact ⟨w.field :: seen, by simp [Shows], hfr'⟩
        | false => exact ⟨w.field :: seen, by simpa using hs, hfr'⟩
    · rw [if_neg hz]
      refine key _ rfl (fun w' => by cases w' <;> rfl) rfl rfl rfl rfl rfl ?_ (.inr ⟨rfl, hz, hv⟩)
      rw [if_neg hv]; simpa using hdec

/-- A step that is not silent makes its event where the check says. -/
theorem running_prim {u : State} {evs : List PortEvent} {p : Prim} {rest : List Micro} {seen : List PortField}
    (hp : p.silent = false) (ht : Track dr s u evs) (hb : u.busy = true)
    (hs : Shows pf xf dr (.prim p :: rest) u.phase u.idx (octets evs) (drained evs).length seen) :
    Running pf xf dr s ((u.prim p).setProg rest) ∧ ((u.prim p).setProg rest).busy = true := by
  -- what every event that is no poll shares
  have key : ∀ (t : State) (e : PortEvent), t.trace = u.trace ++ [e] → (∀ w : Site, w.budget t = w.budget u) →
      t.result = u.result → t.phase = u.phase → t.idx = u.idx → t.busy = u.busy →
      (∀ w : Site, isReadOf w.field e = false) →
      (if dr then octets (evs ++ [e]) = (drained (evs ++ [e])).length else drained (evs ++ [e]) = []) →
      (∀ j, t.rbuf.read j =
        if j < (drained (evs ++ [e])).length then (drained (evs ++ [e]))[j]? else s.rbuf.read j) →
      (pf (octets (evs ++ [e])) e = u.phase ∧ xf (octets (evs ++ [e])) e = u.idx) →
      Shows pf xf dr t.prog u.phase u.idx (octets (evs ++ [e])) (drained (evs ++ [e])).length [] →
      Running pf xf dr s t ∧ t.busy = true := by
    intro t e h1 h2 h3 h4 h5 h6 h7 h0 h8 h9 h10
    refine ⟨⟨evs ++ [e], ⟨by rw [h1, ht.record, List.append_assoc], fun w => (h2 w).trans (ht.budget w),
      h3.trans ht.result, h0, h8⟩, .inl ⟨[], ?_, fun w _ => ?_⟩, ?_⟩, h6.trans hb⟩
    · rw [h4, h5]; exact h10
    · rw [trailing_append, h7]; rfl
    · refine ⟨by simp, fun e' he => ?_, fun w v he => ?_⟩
      · simp only [List.getLast?_append, List.getLast?_singleton, Option.some.injEq,
          Option.some_or] at he
        subst he
        rw [h4, h5]; exact ⟨h9.1.symm, h9.2.symm⟩
      · simp only [List.getLast?_append, List.getLast?_singleton, Option.some.injEq,
          Option.some_or] at he
        have := h7 w
        rw [he, pollOf_isReadOf] at this
        simp at this
  have same : ∀ e, isOctet e = false → rxValue e = none →
      octets (evs ++ [e]) = octets evs ∧ drained (evs ++ [e]) = drained evs := by
    intro e h1 h2
    exact ⟨by rw [octets_append, h1]; rfl, by rw [drained_append, h2]; simp⟩
  have plain : ∀ e, isOctet e = false → rxValue e = none → (∀ w : Site, isReadOf w.field e = false) →
      (pf (octets evs) e = u.phase ∧ xf (octets evs) e = u.idx) →
      Shows pf xf dr rest u.phase u.idx (octets evs) (drained evs).length [] →
      Running pf xf dr s ((u.emit e).setProg rest) ∧ ((u.emit e).setProg rest).busy = true := by
    intro e h1 h2 h3 h4 h5
    obtain ⟨ho, hd⟩ := same e h1 h2
    exact key _ e rfl (fun w => by cases w <;> rfl) rfl rfl rfl rfl h3 (by rw [ho, hd]; exact ht.drains)
      (by rw [hd]; exact ht.rbuf) (by rw [ho]; exact h4)
      (by rw [ho, hd]; exact h5)
  cases p with
  | phase _ => cases hp
  | idx _ => cases hp
  | pin => exact plain _ rfl rfl (fun w => rfl) (hs.1 _) hs.2
  | masen on => exact plain _ rfl rfl (fun w => rfl) hs.1 hs.2
  | txflush on => exact plain _ rfl rfl (fun w => rfl) hs.1 hs.2
  | addr1 d => exact plain _ rfl rfl (fun w => rfl) (hs.1 _) hs.2
  | addr2 => exact plain _ rfl rfl (fun w => rfl) (hs.1 _) hs.2
  | rxcnt => exact plain _ rfl rfl (fun w => rfl) (hs.1 _) hs.2
  | stage i =>
    obtain ⟨d, hd⟩ := u.entry_spec u.wbuf i
    have hpr : u.prim (.stage i) = { u with
        draws := d, trace := u.trace ++ [.write .tx ((u.entry u.wbuf i).1.setWidth 32)] } := by
      simp [State.prim, State.pwrite, State.emit, hd]
    have ho : ∀ v, octets (evs ++ [.write .tx v]) = octets evs + 1 := fun v => octets_append ..
    have hdr : ∀ v, drained (evs ++ [.write .tx v]) = drained evs := fun v => by rw [drained_append]; simp [rxValue]
    rw [hpr]
    exact key _ _ rfl (fun w => by cases w <;> rfl) rfl rfl rfl rfl (fun w => rfl)
      (by have := ht.drains; rw [hs.1] at this ⊢; rw [hdr]; exact this) (by rw [hdr]; exact ht.rbuf)
      (by rw [ho]; exact hs.2.1 _) (by rw [ho, hdr]; exact hs.2.2)
  | drain i =>
    obtain ⟨b, as, d, hpr⟩ := prim_drain u i
    have hb8 : (b.setWidth 32).setWidth 8 = b := by
      rw [BitVec.setWidth_setWidth_of_le b (by decide), BitVec.setWidth_eq]
    have ho : octets (evs ++ [.read .rx (b.setWidth 32)]) = octets evs + 1 := octets_append ..
    have hdr : drained (evs ++ [.read .rx (b.setWidth 32)]) = drained evs ++ [b] := by
      rw [drained_append]; simp [rxValue, hb8]
    obtain ⟨⟨hdt, rfl⟩, h2, h3⟩ := hs
    rw [hpr]
    refine key _ (.read .rx (b.setWidth 32)) rfl (fun w => by cases w <;> rfl) rfl rfl rfl rfl
      (fun w => by cases w <;> rfl)
      (by have := ht.drains; rw [hdt] at this ⊢; simp only [if_true] at this ⊢; rw [ho, hdr, this]; simp)
      (fun j => ?_) (by rw [ho]; exact h2 _) (by rw [ho, hdr]; simpa using h3)
    rw [hdr]
    simp only [State.setProg_rbuf, Memory.read_write, List.length_append, List.length_singleton]
    by_cases hj : j = (drained evs).length
    · subst hj; rw [if_pos rfl, if_pos (by omega)]; simp
    · rw [if_neg hj, ht.rbuf j]
      by_cases hj' : j < (drained evs).length
      · rw [if_pos hj', if_pos (by omega), List.getElem?_append_left hj']
      · rw [if_neg hj', if_neg (by omega)]

theorem Fresh.mono {evs : List PortEvent} {seen : List PortField} (f : PortField) (h : Fresh evs seen) :
    Fresh evs (f :: seen) := fun w hw => h w fun hm => hw (List.mem_cons_of_mem _ hm)

/-- One turn from the head of a program that passes the check. -/
theorem running_tick_head (prog : List Micro) {u : State} {evs : List PortEvent} {seen : List PortField}
    (ht : Track dr s u evs) (hb : u.busy = true)
    (hs : Shows pf xf dr prog u.phase u.idx (octets evs) (drained evs).length seen) (hfr : Fresh evs seen) :
    (Running pf xf dr s (tick prog u) ∧ (tick prog u).busy = true) ∨ (tick prog u).busy = false := by
  induction prog generalizing u seen with
  | nil => exact hs.elim
  | cons m rest ih =>
    cases m with
    | prim p =>
      cases hp : p.silent with
      | true =>
        have : tick (.prim p :: rest) u = tick rest (u.prim p) := by rw [tick, if_pos hp]
        rw [this]
        cases p with
        | phase q => exact ih (u := u.setPhase q) (ht.of_eq rfl (fun w => by cases w <;> rfl) rfl rfl) hb hs hfr
        | idx i => exact ih (u := u.setIdx i) (ht.of_eq rfl (fun w => by cases w <;> rfl) rfl rfl) hb hs hfr
        | _ => cases hp
      | false =>
        have : tick (.prim p :: rest) u = (u.prim p).setProg rest := by rw [tick, if_neg (by simp [hp])]
        rw [this]; exact .inl (running_prim hp ht hb hs)
    | wait w =>
      obtain ⟨h1, h2, h3⟩ := hs
      have ht' : Track dr s (u.setTocnt (w.budget u)) evs :=
        ht.of_eq rfl (fun w => by cases w <;> rfl) rfl rfl
      by_cases h0 : w.budget u = 0#32
      · cases hw : w.aborts with
        | true => right; simp only [tick, h0, hw, if_true]; cases w.flag <;> rfl
        | false =>
          have : tick (.wait w :: rest) u = tick rest ((u.setTocnt (w.budget u)).raise w.flag) := by
            rw [tick]; simp only [h0, hw, if_true, Bool.false_eq_true, if_false]
          rw [this]
          refine ih (seen := w.field :: seen) (ht'.of_eq ?_ (fun w' => ?_) ?_ ?_) ?_ ?_ (hfr.mono _)
          · cases w.flag <;> rfl
          · cases w.flag <;> cases w' <;> rfl
          · cases w.flag <;> rfl
          · cases w.flag <;> rfl
          · cases w.flag <;> exact hb
          · cases w.flag <;> exact h3
      · have : tick (.wait w :: rest) u = (u.setTocnt (w.budget u)).pollOnce w rest := by
          rw [tick]; simp only [h0, if_false]
        rw [this]
        exact .inl (running_pollOnce ht' hb h2 h3 h0
          (by rw [State.setTocnt_tocnt, hfr w h1, ht.budget w]; rfl))
    | poll w => exact hs.elim
    | divide =>
      simp only [tick]
      cases hd : divCalc u.params.divw u.inclk u.freq with
      | success h l =>
        refine .inl ⟨⟨evs ++ [.write .div (divValue u.params h l)], ⟨?_, fun w => ?_, ht.result, ?_, ?_⟩, ?_, ?_⟩, hb⟩
        · show u.trace ++ _ = _; rw [ht.record, List.append_assoc]
        · rw [← ht.budget w]; cases w <;> rfl
        · rw [drained_append, octets_append]; simpa [rxValue, isOctet] using ht.drains
        · rw [drained_append]; simpa [rxValue] using ht.rbuf
        · exact .inl ⟨[], by simp [Shows], fun w _ => by rw [trailing_append]; rfl⟩
        · have ho : octets (evs ++ [.write .div (divValue u.params h l)]) = octets evs := octets_append ..
          refine ⟨by simp, fun e he => ?_, fun w v he => ?_⟩
          · simp only [List.getLast?_append, List.getLast?_singleton, Option.some.injEq,
              Option.some_or] at he
            subst he; rw [ho]; exact ⟨(hs _).1.symm, (hs _).2.symm⟩
          · simp [pollOf] at he
      | wrongFrequency => exact .inr rfl
      | siliconAnomaly => exact .inr rfl
    | finish r => exact .inr rfl
    | conclude => exact .inr rfl

/-- One turn of a running operation. -/
theorem running_tick {u : State} (h : Running pf xf dr s u) (hb : u.busy = true) :
    (Running pf xf dr s (tick u.prog u) ∧ (tick u.prog u).busy = true) ∨ (tick u.prog u).busy = false := by
  obtain ⟨evs, ht, hp | ⟨w, rest, seen, hp, hf, hs, h0, hc⟩, -⟩ := h
  · obtain ⟨seen, hs, hfr⟩ := hp
    exact running_tick_head u.prog ht hb hs hfr
  · have : tick u.prog u = u.pollOnce w rest := by rw [hp, tick, if_neg h0]
    rw [this]
    exact .inl (running_pollOnce ht hb hf hs h0 hc)

/-- The moves, the host's data and the draws are no part of it. -/
theorem Running.same {u : State} (h : Running pf xf dr s u) (ts : List Turn) (v : Word) (d : Nat) :
    Running pf xf dr s { u with turns := ts, readData := v, draws := d } := by
  obtain ⟨evs, ht, hp, hs⟩ := h
  exact ⟨evs, ht.of_eq rfl (fun w => by cases w <;> rfl) rfl rfl, hp, ⟨hs.start, hs.last, hs.count⟩⟩

/-- A running operation keeps running as it should, or ends, under turns of the CORE and host reads. -/
theorem running_run (k : Nat) {a u : State} (ho : OnlyReads a.turns)
    (h : a.busy = false ∨ (Running pf xf dr s a ∧ a.busy = true))
    (hr : Host.Core.run Sys2Proof.core k a = .next u) (hu : u.busy = true) : Running pf xf dr s u := by
  induction k generalizing a with
  | zero =>
    cases show Host.Outcome.next a = .next u from hr
    rcases h with h | h
    · rw [h] at hu; cases hu
    · exact h.1
  | succ k ih =>
    have turn : ∀ a : State, a.busy = false ∨ (Running pf xf dr s a ∧ a.busy = true) → OnlyReads a.turns →
        ∀ b, coreTurn a = .next b → OnlyReads b.turns ∧ (b.busy = false ∨ (Running pf xf dr s b ∧ b.busy = true)) := by
      intro a h ho b hb
      rcases h with h | ⟨h, hba⟩
      · rw [coreTurn, h] at hb; cases hb; exact ⟨ho, .inl h⟩
      · rw [coreTurn, if_pos hba] at hb
        cases hp : a.prog with
        | nil => rw [hp] at hb; cases hb
        | cons m rest =>
          rw [hp] at hb; injection hb with hb
          rw [← hp] at hb; subst hb
          refine ⟨?_, (running_tick h hba).symm⟩
          rw [(whole_tick a.prog a).host.2.1]; exact ho
    have step1 : ∀ b, step a = .next b →
        OnlyReads b.turns ∧ (b.busy = false ∨ (Running pf xf dr s b ∧ b.busy = true)) := by
      intro b hb
      rcases hts : a.turns with _ | ⟨m, ts⟩
      · rw [step_idle a hts] at hb; exact turn a h ho b hb
      · have hts' : OnlyReads ts := fun m' hm => ho m' (by rw [hts]; exact List.mem_cons_of_mem _ hm)
        rcases ho m (by rw [hts]; simp) with rfl | ⟨size, off, rfl⟩
        · rw [step_core a ts hts] at hb
          refine turn (a.setTurns ts) ?_ hts' b hb
          rcases h with h | ⟨h, hba⟩
          · exact .inl h
          · exact .inr ⟨h.same ts a.readData a.draws, hba⟩
        · rw [step_read a ts _ _ hts] at hb
          rcases hostRead_spec size off (a.setTurns ts) with ⟨-, d, e⟩ | ⟨-, e⟩ <;> rw [e] at hb <;> cases hb
          refine ⟨hts', ?_⟩
          rcases h with h | ⟨h, hba⟩
          · exact .inl h
          · exact .inr ⟨h.same ts _ d, hba⟩
    cases hst : step a with
    | next b =>
      rw [core_run_next a k b hst] at hr
      exact ih (step1 b hst).1 (step1 b hst).2 hr
    | fault f =>
      have : Sys2Proof.core.step a = .fault f := hst
      simp [Host.Core.run, this] at hr
    | refused r =>
      have : Sys2Proof.core.step a = .refused r := hst
      simp [Host.Core.run, this] at hr

/-- The program of a command. -/
def programOf : Instr → List Micro
  | .cfg => cfgProgram
  | .wr len stop => wrProgram len.toNat stop
  | .rd len => rdProgram len.toNat

/-- What a command accepted only can do, when it is ready (R27). -/
theorem postCommand_ready (i : Instr) (h : Ready i s) : ∃ opc len stop, postCommand i s =
    .next ((s.accept opc len stop).setProg (programOf i)) := by
  cases i with
  | cfg => exact ⟨_, _, _, by simp only [postCommand, postCfg, post, (cfgGuard_none s).2 h]; rfl⟩
  | wr len stop => exact ⟨_, _, _, by simp only [postCommand, postWr, post, (wrGuard_none len stop s).2 h]; rfl⟩
  | rd len => exact ⟨_, _, _, by simp only [postCommand, postRd, post, (rdGuard_none len s).2 h]; rfl⟩

/-- An operation in flight shows what the check of its program says, given that its word reads back. -/
theorem inFlight_running {i : Instr} {u : State} (h : InFlight i s u)
    (hw : readCommand s.params.nbuf (encode i) = .command i)
    (hs : Shows pf xf dr (programOf i) s.phase s.idx 0 0 []) : Running pf xf dr s u := by
  obtain ⟨hr, ts, k, ht, ho, hrun, hu⟩ := h
  obtain ⟨o, l, st, hp⟩ := postCommand_ready (s := s.setTurns ts) i hr
  have hstep : step s = .next (((s.setTurns ts).accept o l st).setProg (programOf i)) := by
    rw [step_write s ts _ _ _ ht, hostWrite_quiet (s.setTurns ts) 0 _ (by decide) hr.1, if_pos rfl]
    rw [show readCommand (s.setTurns ts).params.nbuf (encode i) = .command i from hw]
    exact hp
  rw [core_run_next s k _ hstep] at hrun
  refine running_run (a := ((s.setTurns ts).accept o l st).setProg (programOf i)) k ho
    (.inr ⟨⟨[], ⟨?_, fun w => ?_, rfl, ?_, fun j => rfl⟩,
    .inl ⟨[], hs, fun w _ => rfl⟩, ⟨fun _ => ⟨rfl, rfl⟩, by simp, by simp⟩⟩, rfl⟩) hrun hu
  · exact (List.append_nil _).symm
  · cases w <;> rfl
  · cases dr <;> rfl

end Sys2Proof.Machine
end

