-- ==== Sys2Proof/Tests/Slice0.lean ====
section
/-! SUPPORT. Tests with expected values from spec/ (95_test_vectors.md where a vector is named), and for each statement
with hypotheses a witness that meets them together. -/

namespace Sys2Proof.Tests

open Sys2Proof Sys2Proof.Machine Sys2Proof.Safety

/-! ### Small states -/

/-- DIVW = 8, RXCNTW = 8, NBUF = 256, as the vectors say. -/
def params : Params := { divw := 8, rxcntw := 8, nbuf := 256, toReset := 0#32 }

/-- An idle machine with byte, stop and bus-free budgets `b`, the device at `a` and the environment's answers `as`. -/
def idle (a : BitVec 7) (b : Word) (as : List Byte) : State :=
  { State.reset with params := params, saddr := a, toByte := b, toStop := b, toFree := b, toTcomp := b, answers := as }

/-- The same with INCLK = 26 MHz and the frequency `f`. -/
def clocked (f b : Word) (as : List Byte) : State :=
  { idle 0#7 b as with inclk := 26000000#32, freq := f, pincfg := 0x77#32 }

/-- The same with the bytes of scenario C in WBUF. -/
def loaded (b : Word) (as : List Byte) : State :=
  { idle 0x40#7 b as with wbuf := [(0, 0xA5#8), (1, 0x01#8), (2, 0x02#8)] }

/-- One byte 0x0F for the device at 0x48 (T-WR1). -/
def oneByte : State := { idle 0x48#7 5#32 [] with wbuf := [(0, 0x0F#8)] }

/-- H-9: WR in its byte loop at i = 1, one poll made. -/
def inLoop : State :=
  { loaded 3#32 [] with
    busy := true, divvalid := true, divh := 31#16, divl := 32#16, phase := .byteTransferLoop, idx := 1#16, tocnt := 2#32,
    opc := 0b01#2, len := 2#16, prog := .poll .w2 :: .prim (.stage 1) :: wrTail false }

/-- The state of an outcome. -/
def after (o : Host.Outcome State Fault Refusal) : State :=
  match o with
  | .next s => s
  | .fault _ => State.reset
  | .refused _ => State.reset

/-- A move at the head of the queue. -/
def withMove (s : State) (m : Turn) : State := { s with turns := [m] }

/-- The word written to CMD next, and then the moves `ts`. -/
def posted (s : State) (w : Word) (ts : List Turn) : State := { s with turns := .write 4 0 w :: ts }

/-- An environment that answers 0 for a while. -/
def zeros : List Byte := List.replicate 8 0#8

/-! ### Well-formedness (R70 to R74): an ill-formed term for each check -/

theorem test_wf_cfg : WellFormed 256 .cfg = true := by decide
theorem test_wf_wr_zero : WellFormed 256 (.wr 0#16 true) = false := by decide
theorem test_wf_wr_above : WellFormed 256 (.wr 257#16 false) = false := by decide
theorem test_wf_wr_top : WellFormed 256 (.wr 256#16 false) = true := by decide
theorem test_wf_rd_zero : WellFormed 256 (.rd 0#16) = false := by decide
theorem test_wf_rd_above : WellFormed 256 (.rd 257#16) = false := by decide
theorem test_wf_rd_top : WellFormed 256 (.rd 256#16) = true := by decide

/-! ### Decoding: words written out bit by bit from R68 (LEN, zeros, STOP, OP) -/

theorem test_word_cfg : decode (0b0000000000000000#16 ++ 0b0000000000000#13 ++ 0b0#1 ++ 0b00#2) = .command .cfg := by decide
theorem test_word_wr : decode (0b0000000000000011#16 ++ 0b0000000000000#13 ++ 0b1#1 ++ 0b01#2) = .command (.wr 3#16 true) := by
  decide
theorem test_word_wr_hold : decode (0b0000000100000000#16 ++ 0b0000000000000#13 ++ 0b0#1 ++ 0b01#2) =
    .command (.wr 256#16 false) := by decide
theorem test_word_rd : decode (0b0000000000000111#16 ++ 0b0000000000000#13 ++ 0b0#1 ++ 0b10#2) = .command (.rd 7#16) := by
  decide
theorem test_word_bit15 : decode 0x00038001#32 = .illegal .reservedBits := by decide
theorem test_word_bit3 : decode 0x00030009#32 = .illegal .reservedBits := by decide
theorem test_word_op3 : decode 0x00000003#32 = .illegal .reservedOp := by decide
theorem test_word_cfg_stop : decode 0x00000004#32 = .illegal .cfgStop := by decide
theorem test_word_cfg_len : decode 0x00010000#32 = .illegal .cfgLen := by decide
theorem test_word_rd_stop : decode 0x00020006#32 = .illegal .rdStop := by decide
theorem test_word_rd_long : readCommand 256 0xFFFF0002#32 = .illegal .lenAboveNbuf := by decide
theorem test_word_rd_none : readCommand 256 0x00000002#32 = .illegal .lenZero := by decide
theorem test_encode_wr : encode (.wr 1#16 true) = 0x00010005#32 := by decide
theorem test_encode_rd : encode (.rd 2#16) = 0x00020002#32 := by decide
theorem test_table_wr : decodeTableWord 32 0x00030005 = some (.wr 3#16 true) := by decide
theorem test_table_bad : decodeTableWord 32 0x00030003 = none := by decide

/-! ### Operand values (95_test_vectors.md 2.2) -/

theorem test_addr1 : (addr1Value 0x55#7 false, addr1Value 0x55#7 true, addr1Value 0x7F#7 true) = (0xAA#8, 0xAB#8, 0xFF#8) := by
  decide
theorem test_div_value : divValue params 254#16 255#16 = 0xFEFF#32 := by decide
theorem test_div_word : (after (exec .cfg (clocked 400000#32 5#32 [0#8]))).divWord = 0x001F0020#32 := by decide +kernel

/-! ### The divider calculator (95_test_vectors.md 2.3) -/

theorem test_div_v7 : divCalc 8 19000000#32 1000000#32 = .success 8#16 9#16 := by decide
theorem test_div_v11 : divCalc 8 18999999#32 1000000#32 = .siliconAnomaly := by decide
theorem test_div_v13 : divCalc 8 3000000#32 1000000#32 = .siliconAnomaly := by decide
theorem test_div_v14 : divCalc 8 2999999#32 1000000#32 = .wrongFrequency := by decide
theorem test_div_v20 : divCalc 8 26000000#32 50683#32 = .success 254#16 255#16 := by decide
theorem test_div_v21 : divCalc 8 26000000#32 50682#32 = .wrongFrequency := by decide
theorem test_div_v21_wide : divCalc 16 26000000#32 50682#32 = .success 255#16 256#16 := by decide
theorem test_div_v24 : divCalc 8 4294967295#32 4294967295#32 = .wrongFrequency := by decide

/-! ### The Wait primitive (95_test_vectors.md 2.4) -/

theorem test_wait_w3 : ((idle 0#7 3#32 [0#8, 0#8, 1#8]).wait .w2).1 = .ok ∧
    ((idle 0#7 3#32 [0#8, 0#8, 1#8]).wait .w2).2.tocnt = 1#32 := by decide +kernel
theorem test_wait_w5 : ((idle 0#7 0#32 []).wait .w2).1 = .timeout ∧ ((idle 0#7 0#32 []).wait .w2).2.trace = [] := by
  decide +kernel
theorem test_wait_w9 : ((idle 0#7 3#32 [1#8, 1#8, 1#8, 0#8]).wait .w1).1 = .timeout ∧
    ((idle 0#7 3#32 [1#8, 1#8, 1#8, 0#8]).wait .w1).2.answers = [0#8] := by decide +kernel

/-! ### CFG, WR and RD (95_test_vectors.md 2.5 to 2.7) -/

theorem test_cfg_1 : (after (exec .cfg (clocked 400000#32 100#32 [0#8]))).trace =
    [.pin 0x77#32, .read .tcomp 0#32, .write .masen 0#32, .write .div 0x1F20#32] ∧
    (after (exec .cfg (clocked 400000#32 100#32 [0#8]))).statWord = 0x0000000A#32 := by decide +kernel

/-- T-CFG6: PHASE stays Held and nothing is written. -/
theorem test_cfg_6 : (after (exec .cfg { clocked 400000#32 3#32 [1#8, 1#8, 1#8] with
      phase := .held, divvalid := true, divh := 31#16, divl := 32#16 })).statWord = 0x0000816A#32 ∧
    writes (after (exec .cfg (clocked 400000#32 3#32 [1#8, 1#8, 1#8]))).trace = [] := by decide +kernel

theorem test_wr_1 : (after (exec (.wr 1#16 false) oneByte)).trace =
    [.write .masen 1#32, .write .txflush 1#32, .write .txflush 0#32, .write .tx 0x0F#32, .write .addr1 0x90#32,
      .write .addr2 0#32] := by decide +kernel

theorem test_wr_4 : (after (exec (.wr 3#16 true) (loaded 2#32 [0#8, 0#8, 0#8, 0#8, 0#8, 0#8, 0#8, 1#8]))).trace.drop 6 =
    [.read .txreq 0#32, .read .txreq 0#32, .write .tx 1#32, .read .txreq 0#32, .read .txreq 0#32, .write .tx 2#32,
      .read .stopdet 0#32, .read .stopdet 0#32, .read .busfree 0#32, .read .busfree 1#32, .write .masen 0#32] ∧
    (after (exec (.wr 3#16 true) (loaded 2#32 [0#8, 0#8, 0#8, 0#8, 0#8, 0#8, 0#8, 1#8]))).statWord = 0x00023102#32 := by
  decide +kernel

theorem test_rd_2 : (after (exec (.rd 2#16) (idle 0x48#7 100#32
      [0#8, 0#8, 1#8, 0x12#8, 1#8, 0x34#8, 0#8, 1#8]))).trace =
    [.write .rxcnt 1#32, .write .addr1 0x91#32, .write .addr2 0#32, .read .rxreq 0#32, .read .rxreq 0#32,
      .read .rxreq 1#32, .read .rx 0x12#32, .read .rxreq 1#32, .read .rx 0x34#32, .read .busfree 0#32,
      .read .busfree 1#32, .write .masen 0#32] := by decide +kernel

theorem test_rd_4 : (after (exec (.rd 2#16) (idle 0x10#7 2#32 [1#8, 0x5A#8, 1#8, 0x5A#8, 0#8, 0#8]))).result = .failure ∧
    (after (exec (.rd 2#16) (idle 0x10#7 2#32 [1#8, 0x5A#8, 1#8, 0x5A#8, 0#8, 0#8]))).statWord = 0x00014102#32 := by
  decide +kernel

/-! ### The host side (95_test_vectors.md 2.8), reset and one step -/

theorem test_host_h1 : (after (step (withMove State.reset (.read 4 4)))).readData = 0#32 := by decide +kernel
theorem test_host_h5 : (after (step (withMove (idle 0#7 1#32 []) (.write 4 0x10 0xC1#32)))).saddr = 0x41#7 := by decide +kernel
theorem test_host_h6 : (after (step (withMove (idle 0#7 1#32 []) (.write 4 0x40008 0x1234#32)))).wbuf = [(2, 0x34#8)] := by
  decide +kernel
theorem test_host_h9 : (after (step (withMove inLoop (.read 4 4)))).readData = 0x00010039#32 := by decide +kernel
theorem test_host_h10 : step (withMove inLoop (.write 4 8 0#32)) = .refused .hostWriteWhileBusy := rfl
theorem test_host_h12 : step (withMove inLoop (.read 2 4)) = .refused .hostAccessShape := rfl

/-- R159: a reset in flight drops the operation. -/
theorem test_reset : (after (step (withMove inLoop .reset))).busy = false ∧
    (after (step (withMove inLoop .reset))).prog = [] := by decide +kernel

/-- The step fetches the placed word and runs it. -/
theorem test_fetch_word : (after (step ((loaded 1#32 [1#8, 1#8, 1#8, 1#8]).withFetchWord 32 0x00030005))).idx = 2#16 := by
  decide +kernel

/-- A turn of the CORE makes one event (R12): the third byte's poll answered, the byte is staged at the next turn. -/
theorem test_turn : (after (step { inLoop with answers := [1#8] })).trace = [.read .txreq 1#32] ∧
    (after (step (after (step { inLoop with answers := [1#8] })))).trace = [.read .txreq 1#32, .write .tx 1#32] := by
  decide +kernel

/-! ### Witnesses: for each statement with hypotheses, states and operands that meet them together -/

theorem witness_EncodedCommandReadsBack : WellFormed 256 .cfg = true ∧ WellFormed 256 (.wr 1#16 true) = true ∧
    WellFormed 256 (.wr 256#16 false) = true ∧ WellFormed 65535 (.rd 65535#16) = true := by decide

theorem witness_CommandHasOneWord : decode 0x00030005#32 = .command (.wr 3#16 true) := by decide

/-- Clauses 2 to 4, each by a call and by a write; clause 3 at the last byte of the transfer. -/
theorem witness_CommandWordsLegalOrRefused :
    (∃ s : State, s.busy = false ∧ readCommand s.params.nbuf 0x00000003#32 = .illegal .reservedOp ∧
      s.turns = .call 0x00000003#32 :: []) ∧
    (∃ s : State, s.busy = false ∧ readCommand s.params.nbuf 0x01010001#32 = .illegal .lenAboveNbuf ∧
      s.turns = .write 4 0 0x01010001#32 :: []) ∧
    (∃ s : State, s.busy = false ∧ readCommand s.params.nbuf 0x00040005#32 = .command (.wr 4#16 true) ∧
      3 < (4#16).toNat ∧ s.wbuf.read 3 = none ∧ s.turns = .call 0x00040005#32 :: []) ∧
    (∃ s : State, s.busy = true ∧ s.turns = .write 4 0 0x00000000#32 :: []) :=
  ⟨⟨withMove (loaded 1#32 []) (.call 0x00000003#32), rfl, rfl, rfl⟩,
    ⟨withMove (loaded 1#32 []) (.write 4 0 0x01010001#32), rfl, rfl, rfl⟩,
    ⟨withMove (loaded 1#32 []) (.call 0x00040005#32), rfl, rfl, by decide, rfl, rfl⟩,
    ⟨withMove inLoop (.write 4 0 0x00000000#32), rfl, rfl⟩⟩

theorem witness_ReceiveCounterIsCountLessOne : params.Legal ∧ WellFormed params.nbuf (.rd 1#16) = true ∧
    WellFormed params.nbuf (.rd 256#16) = true := by decide

theorem witness_DividerValueHoldsBothHalves : params.Legal ∧ (255#16).toNat < 2 ^ params.divw ∧
    (0#16).toNat < 2 ^ params.divw := by decide

/-- A match at the first and at the last allowed poll, B misses, and no poll for B = 0. -/
theorem witness_WaitCountsPolls :
    (∃ s : State, s.answers = [] ++ 1#8 :: [] ∧ answerBit 1#8 = Site.w2.want ∧ 0 < (Site.w2.budget s).toNat) ∧
    (∃ s : State, s.answers = [0#8, 0#8] ++ 1#8 :: [] ∧ (∀ a ∈ [0#8, 0#8], answerBit a ≠ Site.w2.want) ∧
      answerBit 1#8 = Site.w2.want ∧ [0#8, 0#8].length < (Site.w2.budget s).toNat) ∧
    (∃ s : State, s.answers = [1#8, 1#8] ++ [] ∧ (∀ a ∈ [1#8, 1#8], answerBit a ≠ Site.w1.want) ∧
      [1#8, 1#8].length = (Site.w1.budget s).toNat) ∧
    (∃ s : State, s.answers = [] ++ [] ∧ ([] : List Byte).length = (Site.w6.budget s).toNat) :=
  ⟨⟨idle 0#7 1#32 [1#8], rfl, rfl, by decide⟩, ⟨idle 0#7 3#32 [0#8, 0#8, 1#8], rfl, by decide, rfl, by decide⟩,
    ⟨idle 0#7 2#32 [1#8, 1#8], rfl, by decide, rfl⟩, ⟨idle 0#7 0#32 [], rfl, rfl⟩⟩

/-- The answers agree on bit 0 of the polls made, and on nothing past them: a match at the second poll, B misses, no poll. -/
theorem witness_WaitIndependentOfEarlierWaits :
    (∃ s u : State, ∃ evs, Site.w2.budget s = Site.w2.budget u ∧ (s.wait .w2).2.trace = s.trace ++ evs ∧ evs.length = 2 ∧
      (∀ j < 2, answerBit (upcoming s j) = answerBit (upcoming u j)) ∧
      answerBit (upcoming s 2) ≠ answerBit (upcoming u 2)) ∧
    (∃ s u : State, ∃ evs, Site.w1.budget s = Site.w1.budget u ∧ (s.wait .w1).2.trace = s.trace ++ evs ∧ evs.length = 2 ∧
      ∀ j < 2, answerBit (upcoming s j) = answerBit (upcoming u j)) ∧
    (∃ s u : State, Site.w6.budget s = Site.w6.budget u ∧ (s.wait .w6).2.trace = s.trace ++ []) :=
  ⟨⟨idle 0#7 3#32 [0#8, 1#8, 0#8], loaded 3#32 [0xFE#8, 0x03#8, 1#8], _, rfl, rfl, rfl, by decide +kernel,
      by decide +kernel⟩,
    ⟨idle 0#7 2#32 [1#8, 1#8], clocked 0#32 2#32 [0xFF#8, 0x05#8], _, rfl, rfl, rfl, by decide +kernel⟩,
    ⟨idle 0#7 0#32 [1#8], loaded 0#32 [], rfl, rfl⟩⟩

/-- q = 1, 2, 9, 10, 2^DIVW and 2^DIVW + 1: the clauses at their boundaries. -/
theorem witness_DividerVerdictByRatio : 4 ≤ 8 ∧ 8 ≤ 16 ∧ (1000000#32 : Word) ≠ 0#32 ∧
    (2999999 + 1000000) / (2 * 1000000) = 1 ∧ (3000000 + 1000000) / (2 * 1000000) = 2 ∧
    (18999999 + 1000000) / (2 * 1000000) = 9 ∧ (19000000 + 1000000) / (2 * 1000000) = 10 ∧
    (26000000 + 50683) / (2 * 50683) = 2 ^ 8 ∧ (26000000 + 50682) / (2 * 50682) = 2 ^ 8 + 1 := by decide

theorem witness_AcceptedPairClearsErratum : divCalc 8 19000000#32 1000000#32 = .success 8#16 9#16 ∧
    divCalc 8 26000000#32 50683#32 = .success 254#16 255#16 := by decide

/-- The cases of R101 at the edges of their ranges. -/
theorem witness_DividerCornerCases : (1#32 : Word) ≠ 0#32 ∧ (999999#32).toNat < (1000000#32).toNat ∧
    (1000000#32).toNat ≤ (1000000#32).toNat ∧ (2999999#32).toNat < 3 * (1000000#32).toNat ∧
    (3000000#32).toNat = 3 * (1000000#32).toNat ∧ (18999999#32).toNat + 1 = 19 * (1000000#32).toNat ∧
    (19000000#32).toNat = 19 * (1000000#32).toNat ∧ divCalc 16 26000000#32 50682#32 = .success 255#16 256#16 ∧
    roundedQuotient 26000000#32 50800#32 = 256 ∧ roundedQuotient 26000000#32 50682#32 = 257 := by decide

theorem ready_cfg (b : Word) (as : List Byte) : Ready .cfg (clocked 400000#32 b as) :=
  ⟨rfl, rfl, show (400000#32 : Word) ≠ 0#32 by decide⟩

theorem ready_wr (b : Word) (as : List Byte) (stop : Bool) : Ready (.wr 3#16 stop) (loaded b as) := by
  refine ⟨rfl, rfl, ?_⟩
  show ∀ j < 3, (Memory.read [(0, 0xA5#8), (1, 0x01#8), (2, 0x02#8)] j).isSome = true
  decide

theorem ready_rd (b : Word) (as : List Byte) : Ready (.rd 2#16) (idle 0x48#7 b as) := ⟨rfl, rfl, trivial⟩

/-- NBUF bytes, the largest read. -/
theorem ready_rd_top (b : Word) (as : List Byte) : Ready (.rd 256#16) (idle 0x48#7 b as) := ⟨rfl, rfl, trivial⟩

/-- One poll, no poll with and without STOP, the largest count. -/
theorem witness_OperationPollsBounded : Ready .cfg (clocked 400000#32 1#32 []) ∧ Ready (.wr 3#16 true) (loaded 1#32 []) ∧
    Ready (.wr 3#16 false) (loaded 0#32 []) ∧ Ready (.rd 256#16) (idle 0x48#7 0#32 []) :=
  ⟨ready_cfg _ _, ready_wr _ _ _, ready_wr _ _ _, ready_rd_top _ _⟩

theorem witness_CfgRunsItsStepList : ∃ s, Ready .cfg s := ⟨_, ready_cfg 5#32 []⟩

theorem witness_CfgFrame : (∃ t, exec .cfg (clocked 400000#32 1#32 [0#8]) = .next t ∧ t.result = .success) ∧
    (∃ t, exec .cfg (clocked 3250000#32 1#32 [0#8]) = .next t ∧ t.result ≠ .success) ∧
    (∃ t, exec .cfg (clocked 400000#32 0#32 []) = .next t ∧ t.result = .failure) :=
  ⟨⟨_, rfl, rfl⟩, ⟨_, rfl, by decide⟩, ⟨_, rfl, rfl⟩⟩

theorem witness_CfgWorkedExamples : ∃ s u : State, s.busy = false ∧ s.params.divw = 8 ∧ s.inclk = 26000000#32 ∧
    s.toTcomp ≠ 0#32 ∧ s.answers = 0x00#8 :: [] ∧ answerBit 0x00#8 = false ∧ s.freq = 400000#32 ∧ u.busy = false ∧
    u.params.divw = 8 ∧ u.inclk = 26000000#32 ∧ u.toTcomp ≠ 0#32 ∧ u.answers = 0xFE#8 :: [] ∧ answerBit 0xFE#8 = false ∧
    u.freq = 3250000#32 :=
  ⟨clocked 400000#32 5#32 [0x00#8], clocked 3250000#32 5#32 [0xFE#8], rfl, rfl, rfl, by decide, rfl, rfl, rfl, rfl, rfl, rfl,
    by decide, rfl, rfl, rfl⟩

theorem witness_CfgTwiceGivesSamePair : ∃ t u, exec .cfg (clocked 400000#32 5#32 [0#8, 0#8]) = .next t ∧
    exec .cfg t = .next u ∧ t.result ≠ .failure ∧ u.result ≠ .failure := ⟨_, _, rfl, rfl, by decide, by decide⟩

theorem witness_CfgOnWedgedControllerFails : ∃ s : State, Ready .cfg s ∧ s.answers = [1#8, 1#8, 1#8] ++ [0#8] ∧
    (∀ a ∈ [1#8, 1#8, 1#8], answerBit a = true) ∧ [1#8, 1#8, 1#8].length = s.toTcomp.toNat :=
  ⟨_, ready_cfg 3#32 [1#8, 1#8, 1#8, 0#8], rfl, by decide, rfl⟩

theorem witness_CfgWithZeroFrequencyRefused : ∃ s : State, s.busy = false ∧ s.freq = 0#32 ∧
    s.turns = .write 4 0 0x00000000#32 :: [] := ⟨withMove State.reset (.write 4 0 0x00000000#32), rfl, rfl, rfl⟩

theorem witness_WrRunsItsStepList : (∃ s, Ready (.wr 3#16 true) s) ∧ (∃ s, Ready (.wr 3#16 false) s) :=
  ⟨⟨_, ready_wr 5#32 [] true⟩, ⟨_, ready_wr 5#32 [] false⟩⟩

theorem witness_WrPortWritesInOrder : (∃ t, exec (.wr 3#16 true) (loaded 0#32 []) = .next t) ∧
    (∃ t, exec (.wr 1#16 false) (loaded 0#32 []) = .next t) := ⟨⟨_, rfl⟩, ⟨_, rfl⟩⟩

theorem witness_WrFrame : ∃ t, exec (.wr 1#16 false) oneByte = .next t ∧ (1#16).toNat = 1 := ⟨_, rfl, rfl⟩

theorem witness_WrToReadyDeviceSucceeds : ∃ s : State, Ready (.wr 3#16 true) s ∧
    s.answers = [1#8, 1#8, 1#8, 1#8] ++ [] ∧ (∀ a ∈ [1#8, 1#8, 1#8, 1#8], answerBit a = true) ∧
    [1#8, 1#8, 1#8, 1#8].length = (3#16).toNat + 1 ∧ s.toByte ≠ 0#32 ∧ s.toStop ≠ 0#32 ∧ s.toFree ≠ 0#32 :=
  ⟨_, ready_wr 1#32 [1#8, 1#8, 1#8, 1#8] true, rfl, by decide, rfl, by decide, by decide, by decide⟩

theorem witness_WrToDeadDeviceFailsAfterBudget : ∃ s : State, Ready (.wr 3#16 true) s ∧
    s.answers = [0#8, 0#8, 0#8, 0#8] ++ [] ∧ (∀ a ∈ [0#8, 0#8, 0#8, 0#8], answerBit a = false) ∧
    [0#8, 0#8, 0#8, 0#8].length = ((3#16).toNat - 1) * s.toByte.toNat + s.toStop.toNat + s.toFree.toNat :=
  ⟨_, ready_wr 1#32 [0#8, 0#8, 0#8, 0#8] true, rfl, by decide, rfl⟩

theorem ready_oneByte : Ready (.wr 1#16 false) oneByte := by
  refine ⟨rfl, rfl, ?_⟩
  show ∀ j < 1, (oneByte.wbuf.read j).isSome = true
  decide

theorem witness_WrOneByteHoldMakesNoPoll : ∃ s, Ready (.wr 1#16 false) s := ⟨_, ready_oneByte⟩

/-- Each clause; LEN just above NBUF, and only the last byte unwritten. -/
theorem witness_WrBrokenPreconditionsRefused : inLoop.busy = true ∧ (loaded 1#32 []).busy = false ∧
    (257#16 : BitVec 16) ≠ 0#16 ∧ (loaded 1#32 []).params.nbuf < (257#16).toNat ∧ (4#16 : BitVec 16) ≠ 0#16 ∧
    (4#16).toNat ≤ (loaded 1#32 []).params.nbuf ∧ (∃ j < (4#16).toNat, (loaded 1#32 []).wbuf.read j = none) :=
  ⟨rfl, rfl, by decide, by decide, by decide, by decide, 3, by decide, rfl⟩

theorem witness_RdRunsItsStepList : (∃ s, Ready (.rd 2#16) s) ∧ (∃ s, Ready (.rd 256#16) s) :=
  ⟨⟨_, ready_rd 5#32 []⟩, ⟨_, ready_rd_top 5#32 []⟩⟩

theorem witness_RdMakesFourPortWrites : ∃ t, exec (.rd 1#16) (idle 0x7F#7 0#32 [0x5A#8]) = .next t := ⟨_, rfl⟩

theorem witness_RdBufferHoldsDrainedOctets : ∃ t, exec (.rd 1#16) (idle 0x7F#7 1#32 [1#8, 0x5A#8, 1#8]) = .next t ∧
    t.result = .success ∧ (1#16).toNat ≤ 1 ∧ 0 < (1#16).toNat := ⟨_, rfl, rfl, by decide, by decide⟩

theorem witness_RdFrame : ∃ t, exec (.rd 1#16) (idle 0x7F#7 1#32 [1#8, 0x5A#8, 1#8]) = .next t := ⟨_, rfl⟩

theorem witness_RdFromReadyDeviceSucceeds : ∃ (s : State) (pairs : List (Byte × Byte)), Ready (.rd 2#16) s ∧
    pairs.length = (2#16).toNat ∧ (∀ p ∈ pairs, answerBit p.1 = true) ∧ answerBit 0xFF#8 = true ∧
    s.answers = pairs.flatMap (fun p => [p.1, p.2]) ++ 0xFF#8 :: [] ∧ s.toByte ≠ 0#32 ∧ s.toFree ≠ 0#32 :=
  ⟨_, [(0x01#8, 0x12#8), (0x03#8, 0x34#8)], ready_rd 1#32 [0x01#8, 0x12#8, 0x03#8, 0x34#8, 0xFF#8], rfl,
    List.forall_mem_cons.2 ⟨rfl, List.forall_mem_singleton.2 rfl⟩, rfl, rfl, by decide, by decide⟩

theorem witness_RdBrokenPreconditionsRefused : inLoop.busy = true ∧ (idle 0#7 1#32 []).busy = false ∧
    (257#16 : BitVec 16) ≠ 0#16 ∧ (idle 0#7 1#32 []).params.nbuf < (257#16).toNat := by decide

theorem witness_EchoedTransferKeepsByteOrder : ∃ t u evs1 evs2,
    exec (.wr 1#16 false) { oneByte with answers := [1#8, 0x0F#8, 1#8] } = .next t ∧ exec (.rd 1#16) t = .next u ∧
    u.result = .success ∧ t.trace = [] ++ evs1 ∧ u.trace = t.trace ++ evs2 ∧
    evs1.filterMap txValue = (evs2.filterMap rxValue).map (fun b => b.setWidth 32) :=
  ⟨_, _, _, _, rfl, rfl, rfl, rfl, rfl, rfl⟩

theorem witness_ResultsFollowFlags : (∃ t, exec (.wr 3#16 true) (loaded 0#32 []) = .next t ∧ t.tofByte = true) ∧
    (∃ t, exec (.rd 1#16) (loaded 0#32 [1#8]) = .next t ∧ t.tofFree = true) ∧
    (∃ t, exec .cfg (clocked 400000#32 0#32 []) = .next t ∧ t.tofTcomp = true) ∧
    (∃ t, exec .cfg (clocked 400000#32 1#32 [0#8]) = .next t ∧ t.tofTcomp = false) :=
  ⟨⟨_, rfl, rfl⟩, ⟨_, rfl, rfl⟩, ⟨_, rfl, rfl⟩, ⟨_, rfl, rfl⟩⟩

theorem witness_MasterEnableAfterOperation : (∃ t, exec .cfg (clocked 400000#32 0#32 []) = .next t ∧ t.result = .failure) ∧
    (∃ t, exec .cfg (clocked 400000#32 1#32 [0#8]) = .next t ∧ t.result ≠ .failure) ∧
    (∃ t, exec (.wr 3#16 true) (loaded 0#32 []) = .next t) ∧ (∃ t, exec (.wr 3#16 false) (loaded 0#32 []) = .next t) ∧
    (∃ t, exec (.rd 1#16) (loaded 0#32 [1#8]) = .next t) :=
  ⟨⟨_, rfl, rfl⟩, ⟨_, rfl, by decide⟩, ⟨_, rfl⟩, ⟨_, rfl⟩, ⟨_, rfl⟩⟩

theorem witness_CommandWriteOnlyAccepts :
    (∃ s : State, readCommand s.params.nbuf 0x00000000#32 = .command .cfg ∧ Ready .cfg s ∧
      s.turns = .write 4 0 0x00000000#32 :: []) ∧
    (∃ s : State, readCommand s.params.nbuf 0x00030005#32 = .command (.wr 3#16 true) ∧ Ready (.wr 3#16 true) s ∧
      s.turns = .write 4 0 0x00030005#32 :: []) ∧
    (∃ s : State, readCommand s.params.nbuf 0x00020002#32 = .command (.rd 2#16) ∧ Ready (.rd 2#16) s ∧
      s.turns = .write 4 0 0x00020002#32 :: []) :=
  ⟨⟨withMove (clocked 400000#32 1#32 []) _, rfl, ready_cfg 1#32 [], rfl⟩,
    ⟨withMove (loaded 1#32 []) _, rfl, ready_wr 1#32 [] true, rfl⟩,
    ⟨withMove (idle 0x48#7 1#32 []) _, rfl, ready_rd 1#32 [], rfl⟩⟩

/-- The clauses about buffers at their last entry and just past it, and the last reserved word. -/
theorem witness_HostReadReturnsRegister :
    (∃ s : State, s.turns = .read 4 0x04 :: [] ∧ 0x04 % 4 = 0) ∧
    (∃ s : State, s.turns = .read 4 0x3FFFC :: [] ∧ 0x3FFFC % 4 = 0 ∧ 0x30 ≤ 0x3FFFC ∧ 0x3FFFC < 0x40000) ∧
    (∃ s : State, s.turns = .read 4 0x403FC :: [] ∧ s.params.Legal ∧ 255 < s.params.nbuf ∧ 0x403FC = 0x40000 + 4 * 255 ∧
      s.wbuf.read 255 = some 0x5A#8) ∧
    (∃ s : State, s.turns = .read 4 0x803FC :: [] ∧ 255 < s.params.nbuf ∧ 0x803FC = 0x80000 + 4 * 255 ∧
      s.rbuf.read 255 = some 0x5A#8) ∧
    (∃ s : State, s.turns = .read 4 0x40400 :: [] ∧ s.params.nbuf ≤ 256 ∧ 0x40400 = 0x40000 + 4 * 256 ∧ 0x40400 < 0x80000) :=
  ⟨⟨withMove inLoop _, rfl, rfl⟩, ⟨withMove inLoop _, rfl, rfl, by decide, by decide⟩,
    ⟨withMove { inLoop with wbuf := [(255, 0x5A#8)] } _, rfl, by decide, by decide, rfl, rfl⟩,
    ⟨withMove { inLoop with rbuf := [(255, 0x5A#8)] } _, rfl, by decide, rfl, rfl⟩,
    ⟨withMove inLoop _, rfl, by decide, rfl, by decide⟩⟩

theorem witness_HostReadHasNoSideEffect : ∃ s t : State, s.turns = .read 4 0x04 :: [] ∧ step s = .next t :=
  ⟨withMove inLoop (.read 4 0x04), _, rfl, rfl⟩

/-- A register, the last WBUF entry, the word after it, and a reserved word. -/
theorem witness_HostWriteChangesOneRegister :
    (∃ s : State, s.turns = .write 4 0x10 0xC1#32 :: [] ∧ s.busy = false ∧ s.params.Legal) ∧
    (∃ s : State, s.turns = .write 4 0x403FC 0x1234#32 :: [] ∧ s.busy = false ∧ s.params.Legal ∧ 255 < s.params.nbuf ∧
      0x403FC = 0x40000 + 4 * 255) ∧
    (∃ s : State, s.turns = .write 4 0x40400 0#32 :: [] ∧ s.busy = false ∧ s.params.Legal ∧ s.params.nbuf ≤ 256 ∧
      0x40400 = 0x40000 + 4 * 256 ∧ 0x40400 < 0x80000) ∧
    (∃ s : State, s.turns = .write 4 0x30 0#32 :: [] ∧ s.busy = false ∧ s.params.Legal ∧ 0x30 ≤ 0x30 ∧ 0x30 < 0x40000) :=
  ⟨⟨withMove (idle 0#7 1#32 []) _, rfl, rfl, by decide⟩, ⟨withMove (idle 0#7 1#32 []) _, rfl, rfl, by decide, by decide, rfl⟩,
    ⟨withMove (idle 0#7 1#32 []) _, rfl, rfl, by decide, by decide, rfl, by decide⟩,
    ⟨withMove (idle 0#7 1#32 []) _, rfl, rfl, by decide, by decide, by decide⟩⟩

theorem witness_BusyAllowsReadsRefusesWrites : inLoop.busy = true ∧ (withMove inLoop (.read 4 8)).turns = .read 4 8 :: [] ∧
    (withMove inLoop (.write 4 0 0#32)).turns = .write 4 0 0#32 :: [] ∧ (withMove inLoop (.call 0#32)).turns = .call 0#32 :: [] :=
  ⟨rfl, rfl, rfl, rfl⟩

theorem witness_MisshapenHostAccessRefused : ∃ s u : State, ((2 : Nat) ≠ 4 ∨ 8 % 4 ≠ 0) ∧ s.turns = .read 2 8 :: [] ∧
    ((4 : Nat) ≠ 4 ∨ 0x0A % 4 ≠ 0) ∧ u.turns = .write 4 0x0A 0#32 :: [] :=
  ⟨withMove inLoop (.read 2 8), withMove inLoop (.write 4 0x0A 0#32), by decide, rfl, by decide, rfl⟩

theorem witness_ResetAbandonsOperation : (withMove inLoop .reset).turns = .reset :: [] ∧ inLoop.busy = true := ⟨rfl, rfl⟩

theorem witness_StepRunsCommandRead : ∃ s : State, s.turns = .call 0x00030005#32 :: [] ∧ s.busy = false ∧
    readCommand s.params.nbuf 0x00030005#32 = .command (.wr 3#16 true) :=
  ⟨withMove (loaded 1#32 []) (.call 0x00030005#32), rfl, rfl, rfl⟩

theorem witness_QuiescentCoreStaysPut : (idle 0#7 1#32 []).turns = [] ∧ (idle 0#7 1#32 []).busy = false := ⟨rfl, rfl⟩

theorem sound_inLoop : SequencerSound inLoop := ⟨rfl, rfl, rfl⟩

/-- A turn that polls, and one that ends the operation. -/
theorem witness_CoreTurnMakesOneEvent : (∃ t, SequencerSound inLoop ∧ inLoop.busy = true ∧ inLoop.turns = [] ∧
      step { inLoop with answers := [1#8] } = .next t ∧ t.busy = true) ∧
    (∃ t, SequencerSound { inLoop with prog := wrTail false } ∧ step { inLoop with prog := wrTail false } = .next t ∧
      t.busy = false) := ⟨⟨_, sound_inLoop, rfl, rfl, rfl, rfl⟩, ⟨_, ⟨rfl, rfl, rfl⟩, rfl, rfl⟩⟩

theorem onlyReads_nil : OnlyReads [] := by simp [OnlyReads]

theorem onlyReads_stat (n : Nat) : OnlyReads (List.replicate n .core ++ [.read 4 4]) := by
  intro m hm
  rcases List.mem_append.1 hm with h | h
  · exact .inl (List.eq_of_mem_replicate h)
  · exact .inr ⟨4, 4, by simpa using h⟩

/-- The command posted, then `k` more moves, the operation still running. -/
theorem flight {i : Instr} {s u : State} (h : Ready i s) (ts : List Turn) (k : Nat) (ho : OnlyReads ts)
    (hr : Host.Core.run Sys2Proof.core (k + 1) (posted s (encode i) ts) = .next u) (hb : u.busy = true) :
    InFlight i (posted s (encode i) ts) u := ⟨by cases i <;> exact h, ts, k, rfl, ho, hr, hb⟩

/-- Nothing but the acceptance yet; the first byte staged; a STOPDET poll with STAT read after it; the disable, with every
budget 0. -/
theorem witness_WrShowsPhaseAndIndex :
    (∃ s u, InFlight (.wr 3#16 true) s u ∧ u.trace = s.trace) ∧
    (∃ s u, InFlight (.wr 3#16 true) s u ∧ u.trace.getLast? = some (.write .tx 0xA5#32)) ∧
    (∃ s u, InFlight (.wr 3#16 true) s u ∧ u.trace.getLast? = some (.read .stopdet 0#32) ∧ u.readData = 0x00021041#32) ∧
    (∃ s u, InFlight (.wr 3#16 true) s u ∧ u.trace.getLast? = some (.write .masen 0#32)) :=
  ⟨⟨_, _, flight (ready_wr 2#32 [] true) [] 0 onlyReads_nil rfl rfl, rfl⟩,
    ⟨_, _, flight (ready_wr 2#32 [] true) [] 4 onlyReads_nil rfl rfl, rfl⟩,
    ⟨_, _, flight (ready_wr 2#32 zeros true) _ 14 (onlyReads_stat 13) rfl rfl, rfl, rfl⟩,
    ⟨_, _, flight (ready_wr 0#32 [] true) [] 9 onlyReads_nil rfl rfl, rfl⟩⟩

/-- Nothing yet; the first octet read, with STAT read after it; a BUSFREE poll. -/
theorem witness_RdShowsPhaseIndexAndBuffer :
    (∃ s u, InFlight (.rd 2#16) s u ∧ u.trace = s.trace) ∧
    (∃ s u, InFlight (.rd 2#16) s u ∧ u.trace.getLast? = some (.read .rx 0x12#32) ∧ u.readData = 0x00000031#32) ∧
    (∃ s u, InFlight (.rd 2#16) s u ∧ u.trace.getLast? = some (.read .busfree 0#32)) :=
  ⟨⟨_, _, flight (ready_rd 2#32 []) [] 0 onlyReads_nil rfl rfl, rfl⟩,
    ⟨_, _, flight (ready_rd 2#32 [0#8, 1#8, 0x12#8]) _ 7 (onlyReads_stat 6) rfl rfl, rfl, rfl⟩,
    ⟨_, _, flight (ready_rd 2#32 [1#8, 0x12#8, 1#8, 0x34#8, 0#8]) [] 8 onlyReads_nil rfl rfl, rfl⟩⟩

theorem ready_cfg_held (b : Word) (as : List Byte) : Ready .cfg { clocked 400000#32 b as with phase := .held } :=
  ⟨rfl, rfl, show (400000#32 : Word) ≠ 0#32 by decide⟩

/-- From Held: still Held at a poll of TCOMP and at the disable, Idle when DIV is written. -/
theorem witness_CfgShowsPhaseAndIndex :
    (∃ s u, InFlight .cfg s u ∧ u.trace = s.trace) ∧
    (∃ s u, InFlight .cfg s u ∧ u.trace.getLast? = some (.read .tcomp 1#32) ∧ s.phase = .held) ∧
    (∃ s u, InFlight .cfg s u ∧ u.trace.getLast? = some (.write .masen 0#32) ∧ s.phase = .held) ∧
    (∃ s u, InFlight .cfg s u ∧ u.trace.getLast? = some (.write .div 0x1F20#32) ∧ s.phase = .held) :=
  ⟨⟨_, _, flight (ready_cfg 2#32 []) [] 0 onlyReads_nil rfl rfl, rfl⟩,
    ⟨_, _, flight (ready_cfg_held 2#32 [1#8]) [] 2 onlyReads_nil rfl rfl, rfl, rfl⟩,
    ⟨_, _, flight (ready_cfg_held 2#32 [0#8]) [] 3 onlyReads_nil rfl rfl, rfl, rfl⟩,
    ⟨_, _, flight (ready_cfg_held 2#32 [0#8]) [] 4 onlyReads_nil rfl rfl, rfl, rfl⟩⟩

/-- The last miss of a budget, and a match at the last poll. -/
theorem witness_CountdownShowsPollsLeft :
    (∃ s u, InFlight (.wr 3#16 true) s u ∧ u.trace.getLast? = some (pollOf .w2 false) ∧ u.tocnt = 0#32) ∧
    (∃ s u, InFlight (.rd 2#16) s u ∧ u.trace.getLast? = some (pollOf .w5 true) ∧ u.tocnt = 1#32) :=
  ⟨⟨_, _, flight (ready_wr 2#32 zeros true) [] 8 onlyReads_nil rfl rfl, rfl, rfl⟩,
    ⟨_, _, flight (ready_rd 2#32 [0#8, 1#8]) [] 5 onlyReads_nil rfl rfl, rfl, rfl⟩⟩

theorem witness_PostedCommandEndsAsCalled : ∃ s a t : State, SequencerSound s ∧
    readCommand s.params.nbuf 0x00000000#32 = .command .cfg ∧ s.turns = [.write 4 0 0x00000000#32] ∧ step s = .next a ∧
    exec .cfg { s with turns := [] } = .next t :=
  ⟨withMove (clocked 400000#32 2#32 [1#8, 0#8]) (.write 4 0 0x00000000#32), _, _, ⟨rfl, rfl⟩, rfl, rfl, rfl, rfl⟩

/-- A step that writes the divider, and one that does not. -/
theorem witness_MirrorFollowsDividerPort : (∃ s t : State, ∃ evs, step s = .next t ∧ s.turns.head? ≠ some .reset ∧
      t.trace = s.trace ++ evs ∧ 0x1F20#32 ∈ evs.filterMap divWritten) ∧
    (∃ s t : State, ∃ evs, step s = .next t ∧ s.turns.head? ≠ some .reset ∧ t.trace = s.trace ++ evs ∧
      evs.filterMap divWritten = []) :=
  ⟨⟨withMove (clocked 400000#32 2#32 [0#8]) (.call 0x00000000#32), _, _, rfl, by decide, rfl, by decide⟩,
    ⟨withMove (clocked 3250000#32 2#32 [0#8]) (.call 0x00000000#32), _, _, rfl, by decide, rfl, by decide⟩⟩

theorem witness_StepKeepsParametersAndRecord : ∃ t, step (idle 0#7 1#32 []) = .next t := ⟨_, rfl⟩

/-- The invariant holds in an idle state and in one with an operation in flight. -/
theorem inv_idle : Inv (idle 0#7 1#32 []) :=
  ⟨by decide, ⟨rfl, rfl⟩, ⟨rfl, rfl, rfl, rfl⟩, ⟨rfl, rfl⟩, by simp [TraceSound, idle, State.reset]⟩

theorem inv_inLoop : Inv inLoop :=
  ⟨by decide, ⟨rfl, by decide, by decide, by decide⟩, ⟨rfl, rfl, rfl, rfl⟩, sound_inLoop,
    by simp [TraceSound, inLoop, loaded, idle, State.reset]⟩

theorem witness_StepKeepsInvariant : ∃ t, Inv inLoop ∧ step inLoop = .next t := ⟨_, inv_inLoop, rfl⟩

theorem witness_StepNeverFaults : Inv (idle 0#7 1#32 []) ∧ Inv inLoop := ⟨inv_idle, inv_inLoop⟩

end Sys2Proof.Tests
end

section
/-! PROOFS. The statements about the machine's step as a whole (00_scope.md): what a turn of the CORE does, that a posted
command ends as a called one, and that every move keeps the invariant. -/

namespace Sys2Proof.Machine

open Sys2Proof.Safety

/-! ### Issuing a command -/

/-- An operation that is accepted had its guard pass, and its program is left to do. -/
theorem post_next (g : Option Refusal) (prog : List Micro) (a t : State) :
    post g prog a = .next t ↔ g = none ∧ a.setProg prog = t := by
  cases g <;> simp [post]

/-- A command run whole and the same command only accepted share their guard, their latches and their program
(R27; log 8). -/
theorem exec_postCommand_spec (i : Instr) (s : State) : ∃ g opc len stop,
    exec i s = operate g (programOf i) (s.accept opc len stop) ∧
      postCommand i s = post g (programOf i) (s.accept opc len stop) ∧ (g = none ↔ Ready i s) := by
  cases i with
  | cfg => exact ⟨_, _, _, _, rfl, rfl, cfgGuard_none s⟩
  | wr len stop => exact ⟨_, _, _, _, rfl, rfl, wrGuard_none len stop s⟩
  | rd len => exact ⟨_, _, _, _, rfl, rfl, rdGuard_none len s⟩

/-- The program of a ready command ends in Idle or Held and keeps to the buffers (R22, R74). -/
theorem programOf_sound {i : Instr} {s : State} (hr : Ready i s) (hp : s.phase.quiescent = true) :
    settles s.phase (programOf i) = true ∧ indicesBelow s.params.nbuf (programOf i) = true := by
  obtain ⟨-, hwf, -⟩ := hr
  cases i with
  | cfg => exact cfgProgram_sound _ _ hp
  | wr len stop =>
    simp only [WellFormed, lenInRange, Bool.and_eq_true, decide_eq_true_eq] at hwf
    exact wrProgram_sound _ _ stop _ hwf.1 hwf.2
  | rd len =>
    simp only [WellFormed, lenInRange, Bool.and_eq_true, decide_eq_true_eq] at hwf
    exact rdProgram_sound _ _ _ hwf.2

/-! ### The end of a program -/

/-- Running a program does not touch the place in the program. -/
@[simp] theorem run_prog (prog : List Micro) (s : State) : (run prog s).prog = s.prog := by
  have h : run prog s = (run prog s).setProg s.prog := run_setProg prog s s.prog
  rw [h, State.setProg_prog]

/-- Where no program was in place, running the one posted and then clearing it is running it as called. -/
theorem run_posted (prog : List Micro) (s : State) (hs : s.prog = []) :
    (run prog (s.setProg prog)).setProg [] = run prog s := by
  rw [run_setProg, setProg_setProg, ← run_setProg, ← hs]
  rfl

/-- A program that settles ends its operation, with PHASE Idle or Held (R22, R24, R149). -/
theorem run_settles (prog : List Micro) (s : State) (hs : settles s.phase prog = true) :
    (run prog s).busy = false ∧ (run prog s).phase.quiescent = true := by
  induction prog generalizing s with
  | nil => simp [settles] at hs
  | cons m rest ih =>
    have wait : ∀ (w : Site) (s : State), settles s.phase (.poll w :: rest) = true →
        (run (.poll w :: rest) s).busy = false ∧ (run (.poll w :: rest) s).phase.quiescent = true := by
      intro w s hs
      simp only [settles, Bool.and_eq_true, Bool.or_eq_true, Bool.not_eq_true'] at hs
      obtain ⟨habort, hrest⟩ := hs
      obtain ⟨r, c, evs, as, d, hp, -⟩ := State.pollLoop_spec w s.tocnt.toNat s rfl
      cases r with
      | ok => simp only [run, hp]; exact ih _ hrest
      | timeout =>
        cases hw : w.aborts with
        | true =>
          simp only [run, hp, hw, if_true]
          exact ⟨rfl, by simpa [State.finish, hw] using habort⟩
        | false =>
          simp only [run, hp, hw, Bool.false_eq_true, if_false]
          exact ih _ (by simpa using hrest)
    cases m with
    | prim p =>
      rw [run_prim]
      cases hp : p.silent with
      | true =>
        cases p with
        | phase q => exact ih (s.setPhase q) hs
        | idx i => exact ih (s.setIdx i) hs
        | _ => cases hp
      | false =>
        obtain ⟨e, as, d, m, h⟩ := prim_event s p hp
        rw [h]
        refine ih _ ?_
        cases p with
        | phase _ => cases hp
        | _ => exact hs
    | wait w => rw [run_wait_poll]; exact wait w (s.setTocnt (w.budget s)) hs
    | poll w => exact wait w s hs
    | divide =>
      rw [run_divide, State.divide]
      cases divCalc s.params.divw s.inclk s.freq <;> exact ⟨rfl, hs⟩
    | finish r => exact ⟨rfl, hs⟩
    | conclude => exact ⟨rfl, hs⟩

/-! ### Turns of the CORE -/

/-- With BUSY = 1 a turn of the CORE that goes on is one `tick` of the program left. -/
theorem coreTurn_next {s t : State} (hb : s.busy = true) (h : coreTurn s = .next t) : t = tick s.prog s := by
  rw [coreTurn, if_pos hb] at h
  cases hp : s.prog with
  | nil => rw [hp] at h; cases h
  | cons m rest => rw [hp] at h; injection h with h; exact h.symm

/-- With BUSY = 1 and a program that settles left, a turn of the CORE goes on. -/
theorem coreTurn_settles {s : State} (hb : s.busy = true) (hs : settles s.phase s.prog = true) :
    coreTurn s = .next (tick s.prog s) := by
  rw [coreTurn, if_pos hb]
  cases hp : s.prog with
  | nil => rw [hp] at hs; simp [settles] at hs
  | cons m rest => rfl

/-- The CORE left alone makes the `n` events its program has left, one a step, and then `finish` (R10, R12). -/
theorem core_run_program (n : Nat) (u : State) (hts : u.turns = []) (hb : u.busy = true) (hd : u.done = false)
    (hs : settles u.phase u.prog = true) (hn : (run u.prog u).trace.length = u.trace.length + n) :
    Host.Core.run Sys2Proof.core (n + 1) u = .next ((run u.prog u).setProg []) := by
  induction n generalizing u with
  | zero =>
    rw [core_run_next u 0 _ ((step_idle u hts).trans (coreTurn_settles hb hs))]
    rcases tick_spec u.prog u hb hd hs with ⟨e, htr, -, -, -, -, hrun⟩ | ⟨-, -, -, hend⟩
    · obtain ⟨evs, hev, -⟩ := (whole_run (tick u.prog u).prog (tick u.prog u)).record
      have hlen := congrArg (fun v : State => v.trace.length) hrun
      simp only [State.setProg_trace, hev, htr, List.length_append, List.length_singleton] at hlen
      omega
    · rw [hend]; rfl
  | succ n ih =>
    rw [core_run_next u (n + 1) _ ((step_idle u hts).trans (coreTurn_settles hb hs))]
    rcases tick_spec u.prog u hb hd hs with ⟨e, htr, hb', hd', -, hs', hrun⟩ | ⟨htr, -, -, hend⟩
    · rw [← hrun]
      refine ih _ ((whole_tick u.prog u).host.2.1.trans hts) hb' hd' hs' ?_
      have hlen := congrArg (fun v : State => v.trace.length) hrun
      simp only [State.setProg_trace] at hlen
      rw [hlen, htr, hn, List.length_append, List.length_singleton]
      omega
    · rw [hend, State.setProg_trace] at htr
      rw [htr] at hn
      omega

/-! ### Each move keeps the invariant -/

/-- An operation or a turn of it keeps the invariant, given what it does to RBUF and the sequencer. -/
theorem Whole.inv {s t : State} (hw : Whole s t) (hi : Inv s) (hr : RbufOk s.params.nbuf t) (hq : SequencerSound t) :
    Inv t := by
  obtain ⟨hl, hm, ⟨hwf, -, hwb, -⟩, -, htr⟩ := hi
  obtain ⟨hp, -, -, hwbuf, -⟩ := hw.host
  obtain ⟨evs, hev, hfit, -⟩ := hw.record
  refine ⟨hp ▸ hl, hw.sound hl hm, ⟨hwbuf ▸ hwf, hr.1, ?_, hp ▸ hr.2⟩, hq, fun e he => ?_⟩
  · rw [hwbuf, hp]; exact hwb
  · rw [hev] at he
    rw [hp]
    rcases List.mem_append.1 he with he | he
    · exact htr e he
    · exact hfit hl e he

theorem inv_rbufOk {s : State} (hi : Inv s) : RbufOk s.params.nbuf s := by
  obtain ⟨-, -, ⟨-, hwf, -, hbelow⟩, -⟩ := hi
  exact ⟨hwf, hbelow⟩

theorem inv_sequencer {s : State} (hi : Inv s) : SequencerSound s := by
  obtain ⟨-, -, -, hq, -⟩ := hi
  exact hq

/-- With BUSY = 1 a sound sequencer has DONE = 0 and a program that settles and keeps to the buffers. -/
theorem sequencerSound_busy {s : State} (hq : SequencerSound s) (hb : s.busy = true) :
    s.done = false ∧ settles s.phase s.prog = true ∧ indicesBelow s.params.nbuf s.prog = true := by
  rwa [SequencerSound, if_pos hb] at hq

/-- With BUSY = 0 a sound sequencer has nothing left to do, and PHASE is Idle or Held. -/
theorem sequencerSound_quiet {s : State} (hq : SequencerSound s) (hb : s.busy = false) :
    s.prog = [] ∧ s.phase.quiescent = true := by
  rwa [SequencerSound, if_neg (by simp [hb])] at hq

/-- The moves still to come are no part of the invariant. -/
theorem inv_setTurns {s : State} (hi : Inv s) (ts : List Turn) : Inv (s.setTurns ts) := hi

theorem inv_tick {s : State} (hi : Inv s) (hb : s.busy = true) : Inv (tick s.prog s) := by
  have hw := whole_tick s.prog s
  have hp : (tick s.prog s).params = s.params := hw.host.1
  obtain ⟨hd, hs, hix⟩ := sequencerSound_busy (inv_sequencer hi) hb
  obtain ⟨m, rest, hprog⟩ : ∃ m rest, s.prog = m :: rest :=
    List.exists_cons_of_ne_nil fun h => by rw [h] at hs; simp [settles] at hs
  obtain ⟨hrb, hix'⟩ := rbufOk_tick s.params.nbuf m rest s (hprog ▸ hs) (hprog ▸ hix) (inv_rbufOk hi)
  rw [← hprog] at hrb hix'
  refine hw.inv hi hrb ?_
  rcases tick_spec s.prog s hb hd hs with ⟨-, -, hb', hd', -, hs', -⟩ | ⟨-, hb', -, hend⟩
  · rw [SequencerSound, if_pos hb', hp]
    exact ⟨hd', hs', hix'⟩
  · rw [SequencerSound, if_neg (by simp [hb']), hend]
    exact ⟨rfl, (run_settles s.prog s hs).2⟩

theorem inv_coreTurn {s t : State} (hi : Inv s) (h : coreTurn s = .next t) : Inv t := by
  cases hb : s.busy with
  | true => rw [coreTurn_next hb h]; exact inv_tick hi hb
  | false =>
    rw [coreTurn, hb] at h
    cases h
    exact hi

theorem inv_coreReset {s : State} (hi : Inv s) : Inv s.coreReset := by
  obtain ⟨hl, -, -, -, htr⟩ := hi
  exact ⟨hl, ⟨rfl, rfl⟩, ⟨rfl, rfl, rfl, rfl⟩, ⟨rfl, rfl⟩, htr⟩

theorem inv_hostRead {s t : State} {size off : Nat} (hi : Inv s) (h : hostRead size off s = .next t) : Inv t := by
  rcases hostRead_spec size off s with ⟨-, d, e⟩ | ⟨-, e⟩ <;> rw [e] at h <;> cases h
  exact hi

theorem inv_writeReg {s : State} (hi : Inv s) (r : HostReg) (v : Word) : Inv (s.writeReg r v) := by
  obtain ⟨hl, hm, ⟨hwf, hrwf, hwb, hrb⟩, hq, htr⟩ := hi
  obtain ⟨ic, fr, sa, pc, tb, ts, tf, tt, m, h, rfl | ⟨i, b, hlt, rfl⟩⟩ := s.writeReg_spec r v <;> rw [h]
  · exact ⟨hl, hm, ⟨hwf, hrwf, hwb, hrb⟩, hq, htr⟩
  · exact ⟨hl, hm, ⟨Memory.wf_write _ _ _ hwf, hrwf, Memory.below_write _ _ _ _ hwb hlt, hrb⟩, hq, htr⟩

theorem inv_postCommand {s t : State} {i : Instr} (hi : Inv s) (h : postCommand i s = .next t) : Inv t := by
  obtain ⟨g, o, l, st, -, hpost, hg⟩ := exec_postCommand_spec i s
  obtain ⟨hnone, rfl⟩ := (post_next _ _ _ _).1 (hpost ▸ h)
  have hr := hg.1 hnone
  obtain ⟨-, hphase⟩ := sequencerSound_quiet (inv_sequencer hi) hr.1
  have hrbuf : RbufOk s.params.nbuf s := inv_rbufOk hi
  have hsound := programOf_sound hr hphase
  exact ((quiet_accept s o l st).trans (quiet_setProg _ _)).whole.inv hi hrbuf ⟨rfl, hsound⟩

theorem inv_exec {s t : State} {i : Instr} (hi : Inv s) (h : exec i s = .next t) : Inv t := by
  obtain ⟨g, o, l, st, hexec, -, hg⟩ := exec_postCommand_spec i s
  obtain ⟨hnone, rfl⟩ := (operate_next _ _ _ _).1 (hexec ▸ h)
  have hr := hg.1 hnone
  obtain ⟨hprog, hphase⟩ := sequencerSound_quiet (inv_sequencer hi) hr.1
  obtain ⟨hsettles, hix⟩ := programOf_sound hr hphase
  obtain ⟨hb, hphase'⟩ := run_settles (programOf i) (s.accept o l st) hsettles
  have hrbuf : RbufOk s.params.nbuf s := inv_rbufOk hi
  refine ((quiet_accept s o l st).then (whole_run _ _)).inv hi (rbufOk_run _ _ _ hix hrbuf) ?_
  rw [SequencerSound, if_neg (by simp [hb]), run_prog]
  exact ⟨hprog, hphase'⟩

theorem inv_hostWrite {s t : State} {size off : Nat} {v : Word} (hi : Inv s) (h : hostWrite size off v s = .next t) :
    Inv t := by
  rcases hostWrite_spec size off v s with ⟨r, e⟩ | ⟨-, -, i, -, e⟩ | ⟨-, -, e⟩ <;> rw [e] at h
  · cases h
  · exact inv_postCommand hi h
  · cases h; exact inv_writeReg hi _ v

/-- Settles O55: each move of the total order keeps the invariant. -/
theorem stepKeepsInvariant : Obligations.StepKeepsInvariant := by
  intro s t hi h
  match hts : s.turns with
  | [] => exact inv_coreTurn hi (step_idle s hts ▸ h)
  | .core :: ts => exact inv_coreTurn (inv_setTurns hi ts) (step_core s ts hts ▸ h)
  | .reset :: ts =>
    rw [step_reset s ts hts] at h
    cases h
    exact inv_coreReset (inv_setTurns hi ts)
  | .read size off :: ts => exact inv_hostRead (inv_setTurns hi ts) (step_read s ts size off hts ▸ h)
  | .write size off v :: ts => exact inv_hostWrite (inv_setTurns hi ts) (step_write s ts size off v hts ▸ h)
  | .call w :: ts =>
    cases hf : fetch w (s.setTurns ts) with
    | error r => rw [step_call_refused s ts w r hts hf] at h; cases h
    | ok i => exact inv_exec (inv_setTurns hi ts) (step_call s ts w i hts hf ▸ h)

/-- Settles O47: such a step is one `tick`, which makes one event or is `finish`. -/
theorem coreTurnMakesOneEvent : Obligations.CoreTurnMakesOneEvent := by
  intro s t hq hb hts h
  obtain ⟨hd, hs, -⟩ := sequencerSound_busy hq hb
  rw [step_idle s hts] at h
  rw [coreTurn_next hb h]
  rcases tick_spec s.prog s hb hd hs with ⟨e, htr, hb', hd', hres, -, -⟩ | ⟨htr, hb', hd', hend⟩
  · exact .inl ⟨hb', hd', hres, e, htr⟩
  · exact .inr ⟨hb', hd', by rw [hend]; rfl, htr⟩

/-- Settles O52: the accepted state holds the program that `exec` runs from the same latches. -/
theorem postedCommandEndsAsCalled : Obligations.PostedCommandEndsAsCalled := by
  intro s a t w i hq hread hts hstep hexec
  obtain ⟨g, o, l, st, he, hpost, hg⟩ := exec_postCommand_spec i (s.setTurns [])
  obtain ⟨hnone, rfl⟩ := (operate_next _ _ _ _).1 (he.symm.trans hexec)
  have hr : Ready i (s.setTurns []) := hg.1 hnone
  obtain ⟨hprog, hphase⟩ := sequencerSound_quiet hq hr.1
  have hwrite : step s = postCommand i (s.setTurns []) := by
    rw [step_write s [] _ _ _ hts, hostWrite_quiet _ 0 w rfl hr.1, if_pos rfl, State.setTurns_params, hread]
  obtain ⟨-, rfl⟩ := (post_next _ _ _ _).1 (hpost.symm.trans (hwrite.symm.trans hstep))
  generalize hb : (s.setTurns []).accept o l st = b
  have hbs : b.trace = s.trace ∧ b.turns = [] ∧ b.busy = true ∧ b.done = false ∧ b.phase = s.phase ∧ b.prog = [] := by
    rw [← hb]; exact ⟨rfl, rfl, rfl, rfl, rfl, hprog⟩
  obtain ⟨htrace, hturns, hbusy, hdone, hph, hbprog⟩ := hbs
  obtain ⟨evs, hev, -⟩ := (whole_run (programOf i) b).record
  rw [← run_posted (programOf i) b hbprog]
  refine core_run_program _ (b.setProg (programOf i)) hturns hbusy hdone ?_ ?_
  · show settles b.phase (programOf i) = true
    rw [hph]
    exact (programOf_sound hr hphase).1
  · rw [State.setProg_prog, run_setProg, State.setProg_trace, State.setProg_trace, State.setProg_trace,
      State.setProg_trace, hev, htrace, List.length_append]
    omega

end Sys2Proof.Machine
end

section
/-! PROOFS. The statements about the state: what each operation leaves as it was (R37), what the host sees of it in
mid-operation (R45, R155), what acceptance loads (R27), what no step changes, and the reset state (R36). -/

namespace Sys2Proof.Machine

open Sys2Proof.Safety

/-! ### A command word and its fields (R67 to R74) -/

/-- The word of a command is in the row of that command. -/
theorem decode_encode (i : Instr) : decode (encode i) = .command i := by
  cases i with
  | cfg => rfl
  | wr len stop =>
    obtain ⟨hz, hop, hst, hlen⟩ := Laws.EncodedFields.wr len stop
    simp [decode, hz, hop, hst, hlen]
  | rd len =>
    obtain ⟨hz, hop, hst, hlen⟩ := Laws.EncodedFields.rd len
    simp [decode, hz, hop, hst, hlen]

/-- The LEN check passes exactly in the range of R71 and R72. -/
theorem checkLen_eq_command {nbuf : Nat} {len : BitVec 16} {i j : Instr} :
    checkLen nbuf len i = .command j ↔ lenInRange nbuf len = true ∧ i = j := by
  simp only [checkLen, lenInRange, len_eq_zero, Bool.and_eq_true, decide_eq_true_eq]
  split
  · exact ⟨nofun, fun ⟨⟨hpos, _⟩, _⟩ => absurd hpos (by omega)⟩
  · split
    · exact ⟨nofun, fun ⟨⟨_, hle⟩, _⟩ => absurd hle (by omega)⟩
    · exact ⟨fun h => ⟨⟨by omega, by omega⟩, Decoded.command.inj h⟩, fun ⟨_, hij⟩ => hij ▸ rfl⟩

/-- A word reads as a command exactly when its row is that command's and LEN is in range (R74). -/
theorem readCommand_eq_command {nbuf : Nat} {w : Word} {i : Instr} :
    readCommand nbuf w = .command i ↔ decode w = .command i ∧ WellFormed nbuf i = true := by
  unfold readCommand
  cases decode w with
  | illegal e => simp
  | command j =>
    cases j with
    | cfg => exact ⟨fun h => ⟨h, by cases h; rfl⟩, fun ⟨h, _⟩ => h⟩
    | wr len stop =>
      simp only [checkLen_eq_command, Decoded.command.injEq]
      exact ⟨fun ⟨hlen, hi⟩ => ⟨hi, hi ▸ hlen⟩, by rintro ⟨rfl, hwf⟩; exact ⟨hwf, rfl⟩⟩
    | rd len =>
      simp only [checkLen_eq_command, Decoded.command.injEq]
      exact ⟨fun ⟨hlen, hi⟩ => ⟨hi, hi ▸ hlen⟩, by rintro ⟨rfl, hwf⟩; exact ⟨hwf, rfl⟩⟩

/-- What acceptance of a command loads into OPC, LEN and STOPF (R21, R27). -/
def latches : Instr → BitVec 2 × BitVec 16 × Bool
  | .cfg => (0b00#2, 0#16, false)
  | .wr len stop => (0b01#2, len, stop)
  | .rd len => (0b10#2, len, false)

/-- A word in the row of a command has that command's latches for its fields (R68, R70 to R72). -/
theorem decode_latches {w : Word} {i : Instr} (h : decode w = .command i) :
    latches i = (fieldOp w, fieldLen w, fieldStop w) := by
  unfold decode at h
  split at h
  · cases h
  · split at h
    · split at h
      · cases h
      · split at h <;> cases h
        simp_all [latches]
    · split at h
      · cases h; simp_all [latches]
      · split at h
        · split at h <;> cases h
          simp_all [latches]
        · cases h

/-- Acceptance of a ready command: its latches loaded and its program left to do (R27). -/
theorem postCommand_latches {i : Instr} {s : State} (hr : Ready i s) :
    postCommand i s = .next ((s.accept (latches i).1 (latches i).2.1 (latches i).2.2).setProg (programOf i)) := by
  cases i with
  | cfg => simp only [postCommand, postCfg, post, (cfgGuard_none s).2 hr]; rfl
  | wr len stop => simp only [postCommand, postWr, post, (wrGuard_none len stop s).2 hr]; rfl
  | rd len => simp only [postCommand, postRd, post, (rdGuard_none len s).2 hr]; rfl

/-- Settles O37: an accepted word is its command's latches loaded, which are the word's fields. -/
theorem commandWriteOnlyAccepts : Obligations.CommandWriteOnlyAccepts := by
  intro s w i ts hread hr hts
  refine ⟨programOf i, ?_⟩
  rw [step_write s ts 4 0 w hts, hostWrite_quiet (s.setTurns ts) 0 w rfl hr.1, if_pos rfl, State.setTurns_params, hread]
  refine (postCommand_latches (s := s.setTurns ts) hr).trans ?_
  rw [decode_latches (readCommand_eq_command.1 hread).1]
  rfl

/-! ### The frame of each operation (R37) -/

/-- What steps 4 and 5 of CFG can change: the record and the mirror on Success only, and the end, never a Failure (R107). -/
theorem State.divide_spec (s : State) : ∃ dh dl dv res tr,
    s.divide = { s with
      divh := dh, divl := dl, divvalid := dv, result := res, busy := false, done := true, trace := tr } ∧
    (res ≠ .success → dh = s.divh ∧ dl = s.divl ∧ dv = s.divvalid) ∧ res ≠ .failure := by
  unfold State.divide
  cases divCalc s.params.divw s.inclk s.freq with
  | success h l => exact ⟨_, _, _, _, _, rfl, fun hne => absurd rfl hne, nofun⟩
  | wrongFrequency => exact ⟨_, _, _, _, _, rfl, fun _ => ⟨rfl, rfl, rfl⟩, nofun⟩
  | siliconAnomaly => exact ⟨_, _, _, _, _, rfl, fun _ => ⟨rfl, rfl, rfl⟩, nofun⟩

/-- CFG makes the pin event and waits at W1: on OK the disable, Idle and the division, else Failure (R108). -/
theorem run_cfgProgram (s : State) : run cfgProgram s =
    match (s.emit (.pin s.pincfg)).wait .w1 with
    | (.ok, u) => ((u.emit (.write .masen 0#32)).setPhase .idle).divide
    | (.timeout, u) => (u.raise .tcomp).finish .failure := rfl

/-- A CFG that ends changed no register but those named; the mirror on Success only, PHASE unless it failed (R110). -/
theorem exec_cfg_frame {s t : State} (h : exec .cfg s = .next t) : ∃ ph dh dl dv res ft c tr as d,
    t = { s with
      opc := 0b00#2, len := 0#16, stopf := false, busy := false, done := true, phase := ph, divh := dh, divl := dl,
      divvalid := dv, result := res, tofByte := false, tofStop := false, tofFree := false, tofTcomp := ft, tocnt := c,
      trace := tr, answers := as, draws := d } ∧
    (res ≠ .success → dh = s.divh ∧ dl = s.divl ∧ dv = s.divvalid) ∧ (res = .failure → ph = s.phase) := by
  obtain ⟨-, rfl⟩ := (operate_next _ _ _ _).1 h
  obtain ⟨r, c, evs, as, d, hw, -⟩ := ((cfgAccept s).emit (.pin (cfgAccept s).pincfg)).wait_spec .w1
  rw [run_cfgProgram, hw]
  cases r with
  | timeout => exact ⟨_, _, _, _, _, _, _, _, _, _, rfl, fun _ => ⟨rfl, rfl, rfl⟩, fun _ => rfl⟩
  | ok =>
    simp only [cfgAccept, State.accept, State.clearFlags, State.emit, State.setPhase]
    obtain ⟨dh, dl, dv, res, tr, hdiv, hmirror, hres⟩ := State.divide_spec _
    rw [hdiv]
    exact ⟨_, dh, dl, dv, res, _, _, tr, _, _, rfl, hmirror, fun hf => absurd hf hres⟩

/-- Settles O15: the registers `exec_cfg_frame` does not name are those of the statement. -/
theorem cfgFrame : Obligations.CfgFrame := by
  intro s t h
  obtain ⟨ph, dh, dl, dv, res, ft, c, tr, as, d, rfl, hmirror, hphase⟩ := exec_cfg_frame h
  exact ⟨rfl, rfl, rfl, rfl, rfl, rfl, rfl, rfl, rfl, rfl, rfl, rfl, rfl, rfl, rfl, rfl, fun _ => rfl, fun _ => rfl,
    hmirror, hphase⟩

/-- A WR that ends changed no register but those named; TOF_STOP and TOF_FREE only with STOP, TOCNT only where there is a
wait (R124). -/
theorem exec_wr_frame {s t : State} {len : BitVec 16} {stop : Bool} (h : exec (.wr len stop) s = .next t) :
    ∃ ph ix fb fs ff c res tr as d,
    t = { s with
      opc := 0b01#2, len := len, stopf := stop, busy := false, done := true, phase := ph, idx := ix, result := res,
      tofByte := fb, tofStop := fs, tofFree := ff, tofTcomp := false, tocnt := c, trace := tr, answers := as,
      draws := d } ∧
    (stop = false → fs = false ∧ ff = false) ∧ (len.toNat = 1 → stop = false → c = s.tocnt) := by
  obtain ⟨hguard, rfl⟩ := (operate_next _ _ _ _).1 h
  obtain ⟨-, hwf, hwritten⟩ := (wrGuard_none len stop s).1 hguard
  simp only [WellFormed, lenInRange, Bool.and_eq_true, decide_eq_true_eq] at hwf
  obtain ⟨u, hhead, hu⟩ := run_wrHead (wrLoop 1 (len.toNat - 1) ++ wrTail stop) (wrAccept len stop s)
    (hwritten 0 (by omega))
  obtain ⟨late, c, evs, as, d, v, hloop, hv, hevs⟩ := run_wrLoop 1 (len.toNat - 1) (wrTail stop) u
    (fun j _ hj => by rw [hu]; exact hwritten j (by omega))
  rw [wrProgram, hhead, hloop]
  cases stop with
  | true =>
    obtain ⟨r1, l1, e1, r2, c2, e2, as2, d2, htail, -⟩ := run_wrTail_stop v
    rw [htail, hv, hu]
    exact ⟨_, _, _, _, _, _, _, _, _, _, rfl, nofun, nofun⟩
  | false =>
    rw [run_wrTail_hold, hv, hu]
    refine ⟨_, _, _, _, _, _, _, _, _, _, rfl, fun _ => ⟨rfl, rfl⟩, fun hone _ => ?_⟩
    rw [hone] at hevs
    obtain ⟨-, hc, -⟩ := hevs
    rw [hu] at hc
    exact BitVec.eq_of_toNat_eq hc

/-- Settles O22: the registers `exec_wr_frame` does not name are those of the statement. -/
theorem wrFrame : Obligations.WrFrame := by
  intro s t len stop h
  obtain ⟨ph, ix, fb, fs, ff, c, res, tr, as, d, rfl, hflags, htocnt⟩ := exec_wr_frame h
  exact ⟨rfl, rfl, rfl, rfl, rfl, rfl, rfl, rfl, rfl, rfl, rfl, rfl, rfl, rfl, rfl, rfl, hflags, htocnt, fun _ => rfl,
    fun _ => rfl⟩

/-- An RD that ends changed no register but those named, and no RBUF entry at or above its count (R138). -/
theorem exec_rd_frame {s t : State} {len : BitVec 16} (h : exec (.rd len) s = .next t) :
    ∃ ix fb ff c res tr as d m,
    t = { s with
      opc := 0b10#2, len := len, stopf := false, busy := false, done := true, phase := .idle, idx := ix, result := res,
      tofByte := fb, tofStop := false, tofFree := ff, tofTcomp := false, tocnt := c, trace := tr, answers := as,
      draws := d, rbuf := m } ∧
    ∀ j, len.toNat ≤ j → m.read j = s.rbuf.read j := by
  obtain ⟨-, rfl⟩ := (operate_next _ _ _ _).1 h
  obtain ⟨u, hhead, hu⟩ := run_rdHead (rdLoop 0 len.toNat ++ rdTail) (rdAccept len s)
  obtain ⟨late, bytes, c, evs, as, d, m, v, hloop, hv, -, -, hm, -⟩ := run_rdLoop 0 len.toNat rdTail u
  obtain ⟨r, c', e, as', d', htail, -⟩ := run_rdTail v
  rw [rdProgram, hhead, hloop, htail, hv, hu]
  refine ⟨_, _, _, _, _, _, _, _, _, rfl, fun j hj => ?_⟩
  rw [hm j, if_neg (by omega), hu]
  rfl

/-- Settles O30: the registers `exec_rd_frame` does not name are those of the statement. -/
theorem rdFrame : Obligations.RdFrame := by
  intro s t len h
  obtain ⟨ix, fb, ff, c, res, tr, as, d, m, rfl, hm⟩ := exec_rd_frame h
  exact ⟨rfl, rfl, rfl, rfl, rfl, rfl, rfl, rfl, rfl, rfl, rfl, rfl, rfl, rfl, rfl, rfl, rfl, fun _ => rfl, hm⟩

/-! ### Registers in mid-operation (R45, R155; log 9) -/

/-- The word of a ready command reads back. -/
theorem readCommand_encode_of_ready {i : Instr} {s : State} (hr : Ready i s) :
    readCommand s.params.nbuf (encode i) = .command i := by
  obtain ⟨-, hwf, -⟩ := hr
  exact readCommand_eq_command.2 ⟨decode_encode i, hwf⟩

/-- What PHASE, IDX, RBUF and RESULT are in every state reached from an accepted command whose program passes the check. -/
theorem inFlight_shown {pf : Nat → PortEvent → Phase} {xf : Nat → PortEvent → BitVec 16} {dr : Bool} {i : Instr}
    {s u : State} (h : InFlight i s u) (hs : Shows pf xf dr (programOf i) s.phase s.idx 0 0 []) :
    ∃ evs, Track dr s u evs ∧ Shown pf xf s u evs := by
  obtain ⟨evs, htrack, -, hshown⟩ := inFlight_running h (readCommand_encode_of_ready h.1) hs
  exact ⟨evs, htrack, hshown⟩

/-- Where the program only stages, RBUF is as before. -/
theorem Track.rbuf_kept {s u : State} {evs : List PortEvent} (h : Track false s u evs) (j : Nat) :
    u.rbuf.read j = s.rbuf.read j := by
  have hnone : drained evs = [] := h.drains
  simpa [hnone] using h.rbuf j

/-- Where the program only drains, the octets moved are those read from RX, in their order in RBUF. -/
theorem Track.rbuf_drained {s u : State} {evs : List PortEvent} (h : Track true s u evs) (j : Nat) :
    u.rbuf.read j = if j < octets evs then (evs.filterMap rxValue)[j]? else s.rbuf.read j := by
  have hall : octets evs = (drained evs).length := h.drains
  rw [hall]
  exact h.rbuf j

section Programs

variable (before : BitVec 16) (ph : Phase)

/-- The byte loop of WR waits for and stages the bytes from `i` on, the byte before it being the last one staged. -/
theorem shows_wrLoop {rest : List Micro} (i k : Nat) (hi : 1 ≤ i)
    (hrest : Shows wrPhaseAt (wrIdxAt before) false rest .byteTransferLoop (BitVec.ofNat 16 (i + k - 1)) (i + k) 0 []) :
    Shows wrPhaseAt (wrIdxAt before) false (wrLoop i k ++ rest) .byteTransferLoop (BitVec.ofNat 16 (i - 1)) i 0 [] := by
  induction k generalizing i with
  | zero => exact hrest
  | succ k ih =>
    have hnext := ih (i + 1) (by omega) (by rwa [Nat.add_right_comm i 1 k])
    refine ⟨by simp, fun v => ⟨rfl, rfl⟩, rfl, fun v => ⟨?_, ?_⟩, hnext⟩
    · rw [wrPhaseAt, if_neg (by omega)]
    · simp [wrIdxAt]

/-- After its loop WR shows the last byte staged as IDX, and the phases of the stop sequence (R120, R121). -/
theorem shows_wrTail (stop : Bool) (n : Nat) (hn : 1 ≤ n) :
    Shows wrPhaseAt (wrIdxAt before) false (wrTail stop) .byteTransferLoop (BitVec.ofNat 16 (n - 1)) n 0 [] := by
  have hidx : (if n = 0 then before else BitVec.ofNat 16 (n - 1)) = BitVec.ofNat 16 (n - 1) := if_neg (by omega)
  cases stop with
  | false => exact trivial
  | true =>
    refine ⟨by simp, fun v => ⟨rfl, hidx⟩, ?_, fun v => ⟨rfl, hidx⟩, ⟨rfl, hidx⟩, trivial⟩
    simp [Site.field]

/-- The program of WR passes the check with the phases of R115 and the index of R23. -/
theorem shows_wrProgram (len : Nat) (stop : Bool) :
    Shows wrPhaseAt (wrIdxAt before) false (wrProgram len stop) ph before 0 0 [] := by
  have hloop := shows_wrLoop before 1 (len - 1) (Nat.le_refl 1)
    (shows_wrTail before stop (1 + (len - 1)) (by omega))
  exact ⟨⟨rfl, rfl⟩, ⟨rfl, rfl⟩, ⟨rfl, rfl⟩, rfl, fun _ => ⟨rfl, rfl⟩, fun _ => ⟨rfl, rfl⟩, fun _ => ⟨rfl, rfl⟩, hloop⟩

/-- The byte loop of RD waits for and drains the octets from `i` on. -/
theorem shows_rdLoop {rest : List Micro} (i k : Nat)
    (hrest : ∀ ix, ix = (if i + k = 0 then before else BitVec.ofNat 16 (i + k - 1)) →
      Shows (fun _ => rdPhaseAt) (rdIdxAt before) true rest .byteTransferLoop ix (i + k) (i + k) [])
    (ix : BitVec 16) (hix : ix = if i = 0 then before else BitVec.ofNat 16 (i - 1)) :
    Shows (fun _ => rdPhaseAt) (rdIdxAt before) true (rdLoop i k ++ rest) .byteTransferLoop ix i i [] := by
  induction k generalizing i ix with
  | zero => exact hrest ix hix
  | succ k ih =>
    have hnext := ih (i + 1) (by rwa [Nat.add_right_comm i 1 k]) (BitVec.ofNat 16 i) (if_neg (by omega)).symm
    exact ⟨by simp, fun v => ⟨rfl, rfl⟩, ⟨rfl, rfl⟩, fun v => ⟨rfl, by simp [rdIdxAt]⟩, hnext⟩

/-- The program of RD passes the check with the phases of R130 and the index of R23. -/
theorem shows_rdProgram (c : Nat) :
    Shows (fun _ => rdPhaseAt) (rdIdxAt before) true (rdProgram c) ph before 0 0 [] := by
  have htail : ∀ n ix, ix = (if n = 0 then before else BitVec.ofNat 16 (n - 1)) →
      Shows (fun _ => rdPhaseAt) (rdIdxAt before) true rdTail .byteTransferLoop ix n n [] := by
    rintro n ix rfl
    exact ⟨by simp, fun v => ⟨rfl, rfl⟩, ⟨rfl, rfl⟩, trivial⟩
  have hloop := shows_rdLoop before 0 c (htail (0 + c)) before rfl
  exact ⟨fun _ => ⟨rfl, rfl⟩, fun _ => ⟨rfl, rfl⟩, fun _ => ⟨rfl, rfl⟩, hloop⟩

/-- The program of CFG passes the check with PHASE as before until DIV is written, and IDX as before (R108). -/
theorem shows_cfgProgram : Shows (fun _ => cfgPhaseAt ph) (fun _ _ => before) false cfgProgram ph before 0 0 [] :=
  ⟨fun _ => ⟨rfl, rfl⟩, by simp, fun _ => ⟨rfl, rfl⟩, ⟨rfl, rfl⟩, fun _ => ⟨rfl, rfl⟩⟩

end Programs

/-- Settles O48: the program of WR passes the check, so every state on its way shows what the tables say. -/
theorem wrShowsPhaseAndIndex : Obligations.WrShowsPhaseAndIndex := by
  intro s u len stop h
  obtain ⟨evs, htrack, hshown⟩ := inFlight_shown h (shows_wrProgram s.idx s.phase len.toNat stop)
  refine ⟨evs, htrack.record, htrack.rbuf_kept, htrack.result, ?_⟩
  cases hlast : evs.getLast? with
  | none => exact hshown.start (List.getLast?_eq_none_iff.1 hlast)
  | some e => exact hshown.last e hlast

/-- Settles O49: the program of RD passes the check, and drains the octets in index order. -/
theorem rdShowsPhaseIndexAndBuffer : Obligations.RdShowsPhaseIndexAndBuffer := by
  intro s u len h
  obtain ⟨evs, htrack, hshown⟩ := inFlight_shown h (shows_rdProgram s.idx s.phase len.toNat)
  refine ⟨evs, htrack.record, htrack.result, htrack.rbuf_drained, ?_⟩
  cases hlast : evs.getLast? with
  | none => exact hshown.start (List.getLast?_eq_none_iff.1 hlast)
  | some e => exact hshown.last e hlast

/-- Settles O50: the program of CFG passes the check, with IDX as before at every event. -/
theorem cfgShowsPhaseAndIndex : Obligations.CfgShowsPhaseAndIndex := by
  intro s u h
  obtain ⟨evs, htrack, hshown⟩ := inFlight_shown h (shows_cfgProgram s.idx s.phase)
  refine ⟨evs, htrack.record, htrack.rbuf_kept, htrack.result, ?_⟩
  cases hlast : evs.getLast? with
  | none =>
    obtain ⟨hphase, hidx⟩ := hshown.start (List.getLast?_eq_none_iff.1 hlast)
    exact ⟨hidx, hphase⟩
  | some e =>
    obtain ⟨hphase, hidx⟩ := hshown.last e hlast
    exact ⟨hidx, hphase⟩

/-- Settles O51: each of the three programs passes the check, which counts the polls of the wait last begun. -/
theorem countdownShowsPollsLeft : Obligations.CountdownShowsPollsLeft := by
  intro i s u h
  have hshown : ∃ pf xf dr evs, Track dr s u evs ∧ Shown pf xf s u evs := by
    cases i with
    | cfg => exact ⟨_, _, _, inFlight_shown h (shows_cfgProgram s.idx s.phase)⟩
    | wr len stop =>
      exact ⟨_, _, _, inFlight_shown h (shows_wrProgram s.idx s.phase len.toNat stop)⟩
    | rd len => exact ⟨_, _, _, inFlight_shown h (shows_rdProgram s.idx s.phase len.toNat)⟩
  obtain ⟨pf, xf, dr, evs, htrack, hcount⟩ := hshown
  exact ⟨evs, htrack.record, hcount.count⟩

/-! ### What no step changes, and the divider mirror (R19, R20, R62) -/

/-- A move that extends the record, keeps the parameters, and writes the mirror only with a write of DIV, and with its
pair (R20). -/
structure Recorded (s t : State) : Prop where
  params : t.params = s.params
  record : ∃ evs, t.trace = s.trace ++ evs ∧
    (evs.filterMap divWritten = [] → t.divh = s.divh ∧ t.divl = s.divl ∧ t.divvalid = s.divvalid) ∧
    (∀ v ∈ evs.filterMap divWritten, t.divvalid = true ∧ v = divValue s.params t.divh t.divl)

theorem Whole.recorded {s t : State} (h : Whole s t) : Recorded s t := by
  obtain ⟨evs, hev, -, hnone, hpair⟩ := h.record
  exact ⟨h.host.1, evs, hev, hnone, hpair⟩

/-- A move that makes no event and leaves the mirror alone. -/
theorem Recorded.silent {s t : State} (hp : t.params = s.params) (hr : t.trace = s.trace)
    (hm : t.divh = s.divh ∧ t.divl = s.divl ∧ t.divvalid = s.divvalid) : Recorded s t :=
  ⟨hp, [], by simp [hr], fun _ => hm, by simp⟩

theorem recorded_coreTurn {s t : State} (h : coreTurn s = .next t) : Recorded s t := by
  cases hb : s.busy with
  | true => rw [coreTurn_next hb h]; exact (whole_tick s.prog s).recorded
  | false =>
    rw [coreTurn, hb] at h
    cases h
    exact .silent rfl rfl ⟨rfl, rfl, rfl⟩

theorem recorded_hostRead {s t : State} {size off : Nat} (h : hostRead size off s = .next t) : Recorded s t := by
  rcases hostRead_spec size off s with ⟨-, d, e⟩ | ⟨-, e⟩ <;> rw [e] at h <;> cases h
  exact .silent rfl rfl ⟨rfl, rfl, rfl⟩

theorem recorded_exec {s t : State} {i : Instr} (h : exec i s = .next t) : Recorded s t := by
  obtain ⟨g, o, l, st, hexec, -, -⟩ := exec_postCommand_spec i s
  obtain ⟨-, rfl⟩ := (operate_next _ _ _ _).1 (hexec ▸ h)
  exact ((quiet_accept s o l st).then (whole_run _ _)).recorded

theorem recorded_postCommand {s t : State} {i : Instr} (h : postCommand i s = .next t) : Recorded s t := by
  obtain ⟨g, o, l, st, -, hpost, -⟩ := exec_postCommand_spec i s
  obtain ⟨-, rfl⟩ := (post_next _ _ _ _).1 (hpost ▸ h)
  exact .silent rfl rfl ⟨rfl, rfl, rfl⟩

theorem recorded_hostWrite {s t : State} {size off : Nat} {v : Word} (h : hostWrite size off v s = .next t) :
    Recorded s t := by
  rcases hostWrite_spec size off v s with ⟨r, e⟩ | ⟨-, -, i, -, e⟩ | ⟨-, -, e⟩ <;> rw [e] at h
  · cases h
  · exact recorded_postCommand h
  · cases h
    obtain ⟨ic, fr, sa, pc, tb, ts, tf, tt, m, hreg, -⟩ := s.writeReg_spec (regAt off) v
    rw [hreg]
    exact .silent rfl rfl ⟨rfl, rfl, rfl⟩

/-- The moves still to come are no part of it. -/
theorem Recorded.of_setTurns {s t : State} {ts : List Turn} (h : Recorded (s.setTurns ts) t) : Recorded s t :=
  ⟨h.params, h.record⟩

/-- Every move but a reset is one of these. -/
theorem step_recorded {s t : State} (h : step s = .next t) (hreset : s.turns.head? ≠ some .reset) : Recorded s t := by
  match hts : s.turns with
  | [] => exact recorded_coreTurn (step_idle s hts ▸ h)
  | .core :: ts => exact (recorded_coreTurn (step_core s ts hts ▸ h)).of_setTurns
  | .reset :: ts => rw [hts] at hreset; exact absurd rfl hreset
  | .read size off :: ts => exact (recorded_hostRead (step_read s ts size off hts ▸ h)).of_setTurns
  | .write size off v :: ts => exact (recorded_hostWrite (step_write s ts size off v hts ▸ h)).of_setTurns
  | .call w :: ts =>
    cases hf : fetch w (s.setTurns ts) with
    | error r => rw [step_call_refused s ts w r hts hf] at h; cases h
    | ok i => exact (recorded_exec (step_call s ts w i hts hf ▸ h)).of_setTurns

/-- Settles O53: a step other than a reset writes the mirror as it writes DIV. -/
theorem mirrorFollowsDividerPort : Obligations.MirrorFollowsDividerPort := by
  intro s t evs h hreset hev
  obtain ⟨-, evs', hev', hnone, hpair⟩ := step_recorded h hreset
  obtain rfl : evs = evs' := List.append_cancel_left (hev.symm.trans hev')
  exact ⟨hnone, hpair⟩

/-- Settles O54: a reset keeps the parameters and the record too (log 18). -/
theorem stepKeepsParametersAndRecord : Obligations.StepKeepsParametersAndRecord := by
  intro s t h
  by_cases hreset : s.turns.head? = some .reset
  · obtain ⟨ts, hts⟩ := List.head?_eq_some_iff.1 hreset
    rw [step_reset s ts hts] at h
    cases h
    exact ⟨rfl, [], List.append_nil _⟩
  · obtain ⟨hparams, evs, hev, -⟩ := step_recorded h hreset
    exact ⟨hparams, evs, hev.symm⟩

/-! ### After reset (R36, R159) -/

/-- Settles O43: each entry of the table is the field's value in `State.reset`. -/
theorem resetStateAsTabled : Obligations.ResetStateAsTabled := by
  refine ⟨rfl, rfl, rfl, rfl, rfl, rfl, rfl, rfl, rfl, rfl, rfl, rfl, rfl, rfl, rfl, rfl, rfl, rfl, rfl, rfl, rfl, rfl,
    rfl, rfl, fun _ => rfl, fun _ => rfl, rfl, ?_⟩
  decide

/-- Settles O56: no program, no event, no written entry and a mirror of 0 with DIVVALID = 0. -/
theorem resetMeetsInvariant : Obligations.ResetMeetsInvariant := by
  have hlegal : State.reset.params.Legal := by decide
  have hmirror : MirrorSound State.reset := ⟨rfl, rfl⟩
  have hbuffers : BuffersSound State.reset := ⟨rfl, rfl, rfl, rfl⟩
  have hsequencer : SequencerSound State.reset := ⟨rfl, rfl⟩
  have htrace : TraceSound State.reset := fun _ he => nomatch he
  exact ⟨hlegal, hmirror, hbuffers, hsequencer, htrace⟩

end Sys2Proof.Machine
end

section
/-! PROOFS. The statements about the host's view of the memory map (20_memory.md): what a read of each offset answers, what a
write changes, which accesses are refused, a command called, and the byte order of the two buffers (R42 to R47). -/

namespace Sys2Proof.Machine

open Sys2Proof.Safety

/-! ### The shape of an access (R43) -/

theorem accessShape_aligned {off : Nat} (ha : off % 4 = 0) : accessShape 4 off = true := by simp [accessShape, ha]

theorem accessShape_misshapen {size off : Nat} (h : size ≠ 4 ∨ off % 4 ≠ 0) : accessShape size off = false := by
  rcases h with hsize | halign
  · simp [accessShape, hsize]
  · simp [accessShape, halign]

theorem hostWrite_misshapen {size off : Nat} (v : Word) (s : State) (h : accessShape size off = false) :
    hostWrite size off v s = .refused .hostAccessShape := by simp [hostWrite, h]

/-- Settles O42: such an access fails the shape check, which comes before all others. -/
theorem misshapenHostAccessRefused : Obligations.MisshapenHostAccessRefused := by
  intro s size off v ts hshape hts
  have hbad : accessShape size off = false := accessShape_misshapen hshape
  rcases hts with hread | hwrite
  · rw [step_read s ts size off hread]
    rcases hostRead_spec size off (s.setTurns ts) with ⟨hgood, -⟩ | ⟨-, hrefused⟩
    · exact absurd hgood (by simp [hbad])
    · exact hrefused
  · rw [step_write s ts size off v hwrite, hostWrite_misshapen v _ hbad]

/-! ### Where the buffer entries lie (R42) -/

/-- The last WBUF entry of a legal CORE lies below the RBUF window. -/
theorem wbufOffset_lt {p : Params} {i : Nat} (hl : p.Legal) (hi : i < p.nbuf) : 0x40000 + 4 * i < 0x80000 := by
  obtain ⟨-, -, -, hmax⟩ := hl
  have hlen : p.nbuf ≤ 2 ^ 16 - 1 := hmax.trans (Nat.min_le_left _ _)
  omega

theorem regAt_wbufOffset {i : Nat} (h : 0x40000 + 4 * i < 0x80000) : regAt (0x40000 + 4 * i) = .wbuf i := by
  rw [regAt_wbuf _ (by omega) h, show (0x40000 + 4 * i - 0x40000) / 4 = i by omega]

theorem regAt_rbufOffset (i : Nat) : regAt (0x80000 + 4 * i) = .rbuf i := by
  rw [regAt_rbuf _ (by omega), show (0x80000 + 4 * i - 0x80000) / 4 = i by omega]

/-! ### Host reads (R42, R44 to R46) -/

/-- A host read of a written entry in range answers with that byte. -/
theorem State.readEntry_written {s : State} {m : Memory} {i : Nat} {b : Byte} (hi : i < s.params.nbuf)
    (hb : m.read i = some b) : (s.readEntry m i).1 = b.setWidth 32 := by
  rw [s.readEntry_value, if_pos hi, hb, Option.getD_some]

/-- A host read past the buffer answers with 0. -/
theorem State.readEntry_past {s : State} (m : Memory) {i : Nat} (hi : s.params.nbuf ≤ i) : (s.readEntry m i).1 = 0#32 := by
  rw [s.readEntry_value, if_neg (by omega)]

/-- The fields of STAT, each at its place (R42). -/
theorem State.statWord_fields (s : State) :
    s.statWord.getLsbD 0 = s.busy ∧ s.statWord.getLsbD 1 = s.done ∧ s.statWord.getLsbD 2 = false ∧
    s.statWord.getLsbD 3 = s.divvalid ∧ s.statWord.extractLsb' 4 3 = s.phase.code ∧ s.statWord.getLsbD 7 = false ∧
    s.statWord.extractLsb' 8 2 = s.result.code ∧ s.statWord.extractLsb' 10 2 = 0#2 ∧
    s.statWord.getLsbD 12 = s.tofByte ∧ s.statWord.getLsbD 13 = s.tofStop ∧ s.statWord.getLsbD 14 = s.tofFree ∧
    s.statWord.getLsbD 15 = s.tofTcomp ∧ s.statWord.extractLsb' 16 16 = s.idx := by
  simp (disch := decide) only [State.statWord, BitVec.getLsbD_append, ↓reduceIte, Nat.reduceLT, Nat.reduceSub,
    BitVec.extractLsb'_append_eq_of_le, BitVec.extractLsb'_append_eq_of_add_le]
  simp

/-- The halves of DIV as the host reads it (R42). -/
theorem State.divWord_halves (s : State) : s.divWord.extractLsb' 16 16 = s.divh ∧ s.divWord.extractLsb' 0 16 = s.divl :=
  ⟨BitVec.extractLsb'_append_eq_left, BitVec.extractLsb'_append_eq_right⟩

/-- An aligned read is answered with the register's value and changes no register (R42, R46). -/
theorem step_read_aligned {s : State} {ts : List Turn} {off : Nat} (hts : s.turns = .read 4 off :: ts)
    (ha : off % 4 = 0) :
    ∃ d, step s = .next { s with turns := ts, readData := (s.readReg (regAt off)).1, draws := d } := by
  rw [step_read s ts 4 off hts]
  rcases hostRead_spec 4 off (s.setTurns ts) with ⟨-, d, hanswer⟩ | ⟨hbad, -⟩
  · exact ⟨d, by rw [hanswer, s.readReg_setTurns]; rfl⟩
  · exact absurd (accessShape_aligned ha) (by simp [hbad])

/-- Settles O38: the value answered is the register's at the offset; the clauses not named are one whole register each. -/
theorem hostReadReturnsRegister : Obligations.HostReadReturnsRegister := by
  intro s off ts hts ha
  obtain ⟨d, hstep⟩ := step_read_aligned hts ha
  refine ⟨_, hstep, ?cmd, ?stat, ?inclk, ?freq, ?saddr, ?pincfg, ?div, ?tocnt, ?toByte, ?toStop, ?toFree, ?toTcomp,
    ?reserved, ?wbuf, ?rbuf, ?past⟩
  case stat => rintro rfl; exact s.statWord_fields
  case div => rintro rfl; exact s.divWord_halves
  case reserved => intro hlo hhi; simp only [regAt_reserved off hlo hhi]; rfl
  case wbuf =>
    rintro i b hl hi rfl hb
    simp only [regAt_wbufOffset (wbufOffset_lt hl hi)]
    exact State.readEntry_written hi hb
  case rbuf =>
    rintro i b hi rfl hb
    simp only [regAt_rbufOffset]
    exact State.readEntry_written hi hb
  case past =>
    rintro i hi (⟨rfl, hoff⟩ | rfl)
    · simp only [regAt_wbufOffset hoff]
      exact State.readEntry_past _ hi
    · simp only [regAt_rbufOffset]
      exact State.readEntry_past _ hi
  all_goals rintro rfl; rfl

/-- Settles O39: a read that is not refused is one of `hostRead_spec`'s answers. -/
theorem hostReadHasNoSideEffect : Obligations.HostReadHasNoSideEffect := by
  intro s t size off ts hts hstep
  rw [step_read s ts size off hts] at hstep
  rcases hostRead_spec size off (s.setTurns ts) with ⟨-, d, hanswer⟩ | ⟨-, hrefused⟩
  · exact ⟨_, d, (Host.Outcome.next.inj (hanswer.symm.trans hstep)).symm⟩
  · exact nomatch hrefused.symm.trans hstep

/-! ### Host writes (R42, R44, R45) -/

/-- While BUSY = 1 an aligned write is refused, wherever it goes (R45; log 12). -/
theorem hostWrite_busy {off : Nat} (v : Word) {s : State} (ha : off % 4 = 0) (hb : s.busy = true) :
    hostWrite 4 off v s = .refused .hostWriteWhileBusy := by simp [hostWrite, accessShape_aligned ha, hb]

/-- While BUSY = 1 no command word is taken (R45). -/
theorem fetch_busy (w : Word) {s : State} (hb : s.busy = true) : fetch w s = .error .hostWriteWhileBusy := by
  simp [fetch, hb]

/-- Settles O41: reads do not look at BUSY, and a write and a call look at nothing before it but the shape. -/
theorem busyAllowsReadsRefusesWrites : Obligations.BusyAllowsReadsRefusesWrites := by
  intro s ts hb
  refine ⟨fun off ha hts => step_read_aligned hts ha, fun off v ha hts => ?_, fun w hts => ?_⟩
  · rw [step_write s ts 4 off v hts, hostWrite_busy (s := s.setTurns ts) v ha hb]
  · exact step_call_refused s ts w _ hts (fetch_busy w hb)

/-- While BUSY = 0 an aligned write at an offset other than CMD's is the register's write (R42). -/
theorem step_write_aligned {s : State} {ts : List Turn} {off : Nat} {v : Word} (hts : s.turns = .write 4 off v :: ts)
    (ha : off % 4 = 0) (hb : s.busy = false) (h0 : off ≠ 0) :
    step s = .next ((s.setTurns ts).writeReg (regAt off) v) := by
  rw [step_write s ts 4 off v hts, hostWrite_quiet (s.setTurns ts) off v ha hb, if_neg h0]

/-- A write of a WBUF entry in range replaces that entry. -/
theorem State.writeReg_wbuf_in {s : State} {i : Nat} (hi : i < s.params.nbuf) (v : Word) :
    s.writeReg (.wbuf i) v = { s with wbuf := s.wbuf.write i (v.setWidth 8) } := if_pos hi

/-- A write past WBUF is ignored (R44). -/
theorem State.writeReg_wbuf_past {s : State} {i : Nat} (hi : s.params.nbuf ≤ i) (v : Word) :
    s.writeReg (.wbuf i) v = s := if_neg (by omega)

/-- Settles O40: the register's write at the offset; the clauses not named replace one whole register each. -/
theorem hostWriteChangesOneRegister : Obligations.HostWriteChangesOneRegister := by
  intro s off v ts hts ha hb hl u
  have hstep : off ≠ 0 → step s = .next (u.writeReg (regAt off) v) := step_write_aligned hts ha hb
  refine ⟨?inclk, ?freq, ?saddr, ?pincfg, ?toByte, ?toStop, ?toFree, ?toTcomp, ?wbuf, ?ignored⟩
  case saddr => rintro rfl; rw [hstep (by decide), ← BitVec.setWidth_eq_extractLsb' (by decide)]; rfl
  case wbuf =>
    rintro i hi rfl
    refine ⟨s.wbuf.write i (v.setWidth 8), ?_, fun j => ?_⟩
    · rw [hstep (by omega), regAt_wbufOffset (wbufOffset_lt hl hi), State.writeReg_wbuf_in (s := u) hi]
    · rw [Memory.read_write, ← BitVec.setWidth_eq_extractLsb' (by decide)]
  case ignored =>
    rintro (rfl | rfl | rfl | ⟨hlo, hhi⟩ | ⟨i, hi, rfl, hoff⟩ | hlo)
    · exact hstep (by decide)
    · exact hstep (by decide)
    · exact hstep (by decide)
    · rw [hstep (by omega), regAt_reserved off hlo hhi]; rfl
    · rw [hstep (by omega), regAt_wbufOffset hoff, State.writeReg_wbuf_past (s := u) hi]
    · rw [hstep (by omega), regAt_rbuf off hlo]; rfl
  all_goals rintro rfl; exact hstep (by decide)

/-! ### A command called (R64, R84) -/

/-- Settles O45: the fetch of a word that reads as a command gives that command. -/
theorem stepRunsCommandRead : Obligations.StepRunsCommandRead := by
  intro s w i ts hts hb hread
  exact step_call s ts w i hts ((fetch_ok _ w i).2 ⟨hb, hread⟩)

/-! ### The order of the bytes (R47) -/

/-- The tail of WR writes no octet to TX (R120). -/
theorem run_wrTail_txValues (stop : Bool) (s : State) :
    ∃ evs, (run (wrTail stop) s).trace = s.trace ++ evs ∧ evs.filterMap txValue = [] := by
  cases stop with
  | true =>
    obtain ⟨r1, l1, stopPolls, r2, c, freePolls, as, d, htail, hstop, hfree⟩ := run_wrTail_stop s
    refine ⟨stopPolls ++ freePolls ++ [.write .masen 0#32], by simp [htail], ?_⟩
    simp [hstop.filterMap_nil txValue (fun _ => rfl), hfree.filterMap_nil txValue (fun _ => rfl), txValue]
  | false => exact ⟨[], (List.append_nil _).symm, rfl⟩

/-- A WR that ends had every entry it needed, and wrote them to TX from entry 0 on (R47, R114, R123). -/
theorem exec_wr_txValues {s t : State} {len : BitVec 16} {stop : Bool} (h : exec (.wr len stop) s = .next t) :
    (∀ j < len.toNat, (s.wbuf.read j).isSome = true) ∧
      ∃ evs, t.trace = s.trace ++ evs ∧ evs.filterMap txValue = (List.range len.toNat).map (wbufWord s.wbuf) := by
  obtain ⟨hguard, rfl⟩ := (operate_next _ _ _ _).1 h
  obtain ⟨-, hwf, hwritten⟩ := (wrGuard_none len stop s).1 hguard
  simp only [WellFormed, lenInRange, Bool.and_eq_true, decide_eq_true_eq] at hwf
  obtain ⟨hpos, -⟩ := hwf
  obtain ⟨u, hhead, hu⟩ := run_wrHead (wrLoop 1 (len.toNat - 1) ++ wrTail stop) (wrAccept len stop s)
    (hwritten 0 hpos)
  have hwbuf : u.wbuf = s.wbuf := by rw [hu]; rfl
  obtain ⟨head, htrace, hfirst⟩ : ∃ head, u.trace = s.trace ++ head ∧
      head.filterMap txValue = [wbufWord s.wbuf 0] := by rw [hu]; exact ⟨_, rfl, rfl⟩
  obtain ⟨late, c, loop, as, d, v, hloop, hv, hbytes⟩ := run_wrLoop 1 (len.toNat - 1) (wrTail stop) u
    (fun j _ hj => by rw [hwbuf]; exact hwritten j (by omega))
  obtain ⟨tail, htail, hnone⟩ := run_wrTail_txValues stop v
  have hrange : List.range len.toNat = 0 :: List.range' 1 (len.toNat - 1) := by
    obtain ⟨n, hn⟩ := Nat.exists_eq_add_of_le' hpos
    rw [hn, List.range_eq_range', List.range'_succ]
    rfl
  refine ⟨hwritten, head ++ (loop ++ tail), ?_, ?_⟩
  · rw [wrProgram, hhead, hloop, htail, hv, htrace]
    simp only [List.append_assoc]
  · rw [List.filterMap_append, List.filterMap_append, hbytes.txValues, hfirst, hnone, hwbuf, hrange, List.append_nil]
    rfl

/-- The tail of RD reads no octet from RX, and leaves RBUF as it is (R135). -/
theorem run_rdTail_rxValues (s : State) : (run rdTail s).rbuf = s.rbuf ∧
    ∃ evs, (run rdTail s).trace = s.trace ++ evs ∧ evs.filterMap rxValue = [] := by
  obtain ⟨r, c, polls, as, d, htail, hpolls⟩ := run_rdTail s
  refine ⟨by rw [htail], polls ++ [.write .masen 0#32], by simp [htail], ?_⟩
  simp [hpolls.filterMap_nil rxValue (fun _ => rfl), rxValue]

/-- An RD that ends left in RBUF the octets it read from RX, from entry 0 on (R47, R136). -/
theorem exec_rd_rxValues {s t : State} {len : BitVec 16} (h : exec (.rd len) s = .next t) :
    ∃ evs, t.trace = s.trace ++ evs ∧ ∀ j < len.toNat, t.rbuf.read j = (evs.filterMap rxValue)[j]? := by
  obtain ⟨-, rfl⟩ := (operate_next _ _ _ _).1 h
  obtain ⟨u, hhead, hu⟩ := run_rdHead (rdLoop 0 len.toNat ++ rdTail) (rdAccept len s)
  obtain ⟨head, htrace, hnohead⟩ : ∃ head, u.trace = s.trace ++ head ∧ head.filterMap rxValue = [] := by
    rw [hu]; exact ⟨_, rfl, rfl⟩
  obtain ⟨late, bytes, c, loop, as, d, m, v, hloop, hv, hrx, -, hm, -⟩ := run_rdLoop 0 len.toNat rdTail u
  obtain ⟨hrbuf, tail, htail, hnone⟩ := run_rdTail_rxValues v
  rw [rdProgram, hhead, hloop]
  refine ⟨head ++ (loop ++ tail), ?_, fun j hj => ?_⟩
  · rw [htail, hv, htrace]
    simp only [List.append_assoc]
  · have hread : v.rbuf.read j = bytes[j]? := by rw [hv, hm j, if_pos (by omega), Nat.sub_zero]
    rw [hrbuf, hread, List.filterMap_append, List.filterMap_append, hnohead, hrx.rxValues, hnone, List.nil_append,
      List.append_nil]

/-- An octet is recovered from its port value. -/
theorem byte_eq_of_portValue_eq {a b : Byte} (h : a.setWidth 32 = b.setWidth 32) : a = b := by
  simpa using congrArg (BitVec.setWidth 8) h

/-- Settles O33: entry `j` of RBUF is the `j`-th octet of RX, hence the `j`-th value of TX, which is entry `j` of WBUF. That
the RD succeeded is not needed: a failed RD stores what it was answered too (log 16). -/
theorem echoedTransferKeepsByteOrder : Obligations.EchoedTransferKeepsByteOrder := by
  intro s t u len stop evs1 evs2 hwr hrd _ hev1 hev2 hecho j hj
  obtain ⟨hwritten, evs, hev, htx⟩ := exec_wr_txValues hwr
  obtain rfl : evs1 = evs := List.append_cancel_left (hev1.symm.trans hev)
  obtain ⟨evs, hev, hrx⟩ := exec_rd_rxValues hrd
  obtain rfl : evs2 = evs := List.append_cancel_left (hev2.symm.trans hev)
  obtain ⟨b, hb⟩ := Option.isSome_iff_exists.1 (hwritten j hj)
  have hport : ((evs2.filterMap rxValue)[j]?).map (fun b => b.setWidth 32) = some (b.setWidth 32) := by
    rw [← List.getElem?_map, ← hecho, htx]
    simp [hj, wbufWord, hb]
  obtain ⟨b', hb', heq⟩ := Option.map_eq_some_iff.1 hport
  rw [hrx j hj, hb', hb, byte_eq_of_portValue_eq heq]

end Sys2Proof.Machine
end

section
/-! PROOFS. The statements about the command word (30_encoding.md): the encoder and the decoder agree, which words are legal
and what a refused one does, the operand values, and when an operation executes. -/

namespace Sys2Proof.Machine

open Sys2Proof.Safety

/-! ### The word of a command (R67 to R73) -/

/-- Settles O2: the word is in the command's row, and its LEN passes the range check. -/
theorem encodedCommandReadsBack : Obligations.EncodedCommandReadsBack := fun _ i hwf =>
  ⟨decode_encode i, readCommand_eq_command.2 ⟨decode_encode i, hwf⟩⟩

/-- A word is its four fields, the highest first (R68). -/
theorem word_eq_fields (w : Word) : w = fieldLen w ++ fieldZero w ++ BitVec.ofBool (fieldStop w) ++ fieldOp w := by
  apply BitVec.eq_of_getLsbD_eq
  intro k hk
  simp only [fieldLen, fieldZero, fieldStop, fieldOp, BitVec.getLsbD_append, BitVec.getLsbD_extractLsb']
  interval_cases k <;> simp

/-- The encoder lays a command's latches around zero bits (R68, R70 to R72). -/
theorem encode_eq_latches (i : Instr) :
    encode i = (latches i).2.1 ++ 0#13 ++ BitVec.ofBool (latches i).2.2 ++ (latches i).1 := by
  cases i <;> rfl

/-- A word in the row of a command has zeros in bits 15:3. -/
theorem decode_fieldZero {w : Word} {i : Instr} (h : decode w = .command i) : fieldZero w = 0#13 := by
  by_contra hz
  rw [decode, if_pos hz] at h
  cases h

/-- Settles O3: the zero bits and the latches are all of the word. -/
theorem commandHasOneWord : Obligations.CommandHasOneWord := by
  intro w i h
  calc encode i = fieldLen w ++ 0#13 ++ BitVec.ofBool (fieldStop w) ++ fieldOp w := by
        rw [encode_eq_latches, decode_latches h]
    _ = w := by rw [← decode_fieldZero h, ← word_eq_fields]

/-! ### Legal and illegal words (R74) -/

theorem readCommand_iff_encode {nbuf : Nat} {w : Word} {i : Instr} :
    readCommand nbuf w = .command i ↔ WellFormed nbuf i = true ∧ w = encode i := by
  rw [readCommand_eq_command, and_comm]
  exact and_congr_right fun _ => ⟨fun h => (commandHasOneWord w i h).symm, fun h => h ▸ decode_encode i⟩

/-- A word is a command's exactly when bits 15:3 are zero and the other fields are its latches. -/
theorem decode_iff_latches {w : Word} {i : Instr} :
    decode w = .command i ↔ fieldZero w = 0#13 ∧ latches i = (fieldOp w, fieldLen w, fieldStop w) := by
  refine ⟨fun h => ⟨decode_fieldZero h, decode_latches h⟩, fun ⟨hz, hl⟩ => ?_⟩
  have hw : w = encode i := by rw [encode_eq_latches, hl, ← hz, ← word_eq_fields]
  rw [hw, decode_encode]

theorem exists_instr {P : Instr → Prop} :
    (∃ i, P i) ↔ P .cfg ∨ (∃ len stop, P (.wr len stop)) ∨ ∃ len, P (.rd len) := by
  constructor
  · rintro ⟨i, h⟩
    cases i with
    | cfg => exact .inl h
    | wr len stop => exact .inr (.inl ⟨len, stop, h⟩)
    | rd len => exact .inr (.inr ⟨len, h⟩)
  · rintro (h | ⟨len, stop, h⟩ | ⟨len, h⟩) <;> exact ⟨_, h⟩

/-- The LEN check in the terms of R71 and R72. -/
theorem lenInRange_iff {nbuf : Nat} {len : BitVec 16} :
    lenInRange nbuf len = true ↔ 1 ≤ len.toNat ∧ len.toNat ≤ nbuf := by
  simp [lenInRange]

/-- The two violations of the LEN range, as R74 names them. -/
theorem lenInRange_eq_false {nbuf : Nat} {len : BitVec 16} :
    lenInRange nbuf len = false ↔ len = 0#16 ∨ nbuf < len.toNat := by
  rw [← Bool.not_eq_true, lenInRange_iff, len_eq_zero]
  omega

theorem encode_wr_eq_shifts (n : BitVec 16) (st : Bool) :
    encode (.wr n st) = (n.setWidth 32 <<< 16) ||| ((BitVec.ofBool st).setWidth 32 <<< 2) ||| 1#32 := by
  apply BitVec.eq_of_getLsbD_eq
  intro k hk
  simp only [encode, BitVec.getLsbD_append, BitVec.getLsbD_or, BitVec.getLsbD_shiftLeft, BitVec.getLsbD_setWidth]
  interval_cases k <;> simp

theorem encode_rd_eq_shift (c : BitVec 16) : encode (.rd c) = (c.setWidth 32 <<< 16) ||| 2#32 := by
  apply BitVec.eq_of_getLsbD_eq
  intro k hk
  simp only [encode, BitVec.getLsbD_append, BitVec.getLsbD_or, BitVec.getLsbD_shiftLeft, BitVec.getLsbD_setWidth]
  interval_cases k <;> simp

theorem readCommand_legal_iff (nbuf : Nat) (w : Word) : (∃ i, readCommand nbuf w = .command i) ↔
    w = 0x00000000#32 ∨
    (∃ (n : BitVec 16) (st : Bool), 1 ≤ n.toNat ∧ n.toNat ≤ nbuf ∧
      w = (n.setWidth 32 <<< 16) ||| ((BitVec.ofBool st).setWidth 32 <<< 2) ||| 1#32) ∨
    (∃ c : BitVec 16, 1 ≤ c.toNat ∧ c.toNat ≤ nbuf ∧ w = (c.setWidth 32 <<< 16) ||| 2#32) := by
  have hcfg : encode .cfg = 0x00000000#32 := rfl
  simp only [readCommand_iff_encode, exists_instr, WellFormed, lenInRange_iff, encode_wr_eq_shifts, encode_rd_eq_shift,
    hcfg, true_and, and_assoc]

/-- A legal word by its fields: a row of the opcode table, and for WR and RD a LEN in range. -/
theorem readCommand_legal_iff_fields (nbuf : Nat) (w : Word) : (∃ i, readCommand nbuf w = .command i) ↔
    fieldZero w = 0#13 ∧
      ((fieldOp w = 0b00#2 ∧ fieldStop w = false ∧ fieldLen w = 0#16) ∨
        (fieldOp w = 0b01#2 ∧ lenInRange nbuf (fieldLen w) = true) ∨
        (fieldOp w = 0b10#2 ∧ fieldStop w = false ∧ lenInRange nbuf (fieldLen w) = true)) := by
  simp only [readCommand_eq_command, decode_iff_latches, exists_instr, latches, WellFormed, Prod.mk.injEq]
  constructor
  · rintro (⟨⟨hz, hop, hlen, hst⟩, -⟩ | ⟨_, _, ⟨hz, hop, rfl, rfl⟩, hr⟩ | ⟨_, ⟨hz, hop, rfl, hst⟩, hr⟩)
    · exact ⟨hz, .inl ⟨hop.symm, hst.symm, hlen.symm⟩⟩
    · exact ⟨hz, .inr (.inl ⟨hop.symm, hr⟩)⟩
    · exact ⟨hz, .inr (.inr ⟨hop.symm, hst.symm, hr⟩)⟩
  · rintro ⟨hz, ⟨hop, hst, hlen⟩ | ⟨hop, hr⟩ | ⟨hop, hst, hr⟩⟩
    · exact .inl ⟨⟨hz, hop.symm, hlen.symm, hst.symm⟩, trivial⟩
    · exact .inr (.inl ⟨_, _, ⟨hz, hop.symm, rfl, rfl⟩, hr⟩)
    · exact .inr (.inr ⟨_, ⟨hz, hop.symm, rfl, hst.symm⟩, hr⟩)

theorem readCommand_illegal_iff_not (nbuf : Nat) (w : Word) :
    (∃ e, readCommand nbuf w = .illegal e) ↔ ¬ ∃ i, readCommand nbuf w = .command i := by
  cases readCommand nbuf w <;> simp

theorem opcode_cases : ∀ op : BitVec 2, op = 0b00#2 ∨ op = 0b01#2 ∨ op = 0b10#2 ∨ op = 0b11#2 := by decide

/-- The illegal words by their fields: the negation of the legal ones, one value of OP at a time. -/
theorem readCommand_illegal_iff (nbuf : Nat) (w : Word) : (∃ e, readCommand nbuf w = .illegal e) ↔
    fieldOp w = 0b11#2 ∨ fieldZero w ≠ 0#13 ∨
    (fieldOp w = 0b00#2 ∧ (fieldStop w = true ∨ fieldLen w ≠ 0#16)) ∨
    (fieldOp w = 0b10#2 ∧ fieldStop w = true) ∨
    ((fieldOp w = 0b01#2 ∨ fieldOp w = 0b10#2) ∧ (fieldLen w = 0#16 ∨ nbuf < (fieldLen w).toNat)) := by
  rw [readCommand_illegal_iff_not, readCommand_legal_iff_fields, ← lenInRange_eq_false]
  obtain hop | hop | hop | hop := opcode_cases (fieldOp w)
  · simp [hop, imp_iff_not_or]
  · simp [hop, imp_iff_not_or]
  · simp [hop, imp_iff_not_or]
  · simp [hop]

/-! ### Words and commands refused (R74) -/

/-- A command word issued while BUSY = 0, by a blocking call or by a write to CMD, is refused for what it reads as. -/
theorem step_illegal {s : State} {w : Word} {e : DecodeError} {ts : List Turn} (hb : s.busy = false)
    (hread : readCommand s.params.nbuf w = .illegal e) (hts : s.turns = .call w :: ts ∨ s.turns = .write 4 0 w :: ts) :
    step s = .refused (.illegalCommand e) := by
  have hb' : (s.setTurns ts).busy = false := hb
  have hread' : readCommand (s.setTurns ts).params.nbuf w = .illegal e := hread
  obtain hts | hts := hts
  · exact step_call_refused s ts w _ hts (by simp only [fetch, hb', hread', Bool.false_eq_true, if_false])
  · rw [step_write s ts 4 0 w hts, hostWrite_quiet _ 0 w rfl hb', if_pos rfl, hread']

/-- A word that reads as a command is run by a blocking call, and accepted by a write to CMD. -/
theorem step_command {s : State} {w : Word} {i : Instr} {ts : List Turn} (hb : s.busy = false)
    (hread : readCommand s.params.nbuf w = .command i) (hts : s.turns = .call w :: ts ∨ s.turns = .write 4 0 w :: ts) :
    step s = exec i (s.setTurns ts) ∨ step s = postCommand i (s.setTurns ts) := by
  have hb' : (s.setTurns ts).busy = false := hb
  have hread' : readCommand (s.setTurns ts).params.nbuf w = .command i := hread
  obtain hts | hts := hts
  · exact .inl (step_call s ts w i hts ((fetch_ok _ w i).2 ⟨hb', hread'⟩))
  · right
    rw [step_write s ts 4 0 w hts, hostWrite_quiet _ 0 w rfl hb', if_pos rfl, hread']

/-- The guard of WR names an unwritten entry when nothing else is amiss (R74, R114). -/
theorem wrGuard_unwritten {s : State} {len : BitVec 16} {j : Nat} (hb : s.busy = false)
    (hwf : lenInRange s.params.nbuf len = true) (hj : j < len.toNat) (hnone : s.wbuf.read j = none) :
    wrGuard len s = some .wbufUnwritten := by
  obtain ⟨hpos, hle⟩ := lenInRange_iff.1 hwf
  have hw : s.wbuf.written len.toNat ≠ true := fun h => by simpa [hnone] using (Memory.written_iff ..).1 h j hj
  rw [wrGuard, if_neg (by simp [hb]), if_neg (by rw [len_eq_zero]; omega), if_neg (by omega), if_neg hw]

theorem step_wr_unwritten {s : State} {w : Word} {len : BitVec 16} {stop : Bool} {j : Nat} {ts : List Turn}
    (hb : s.busy = false) (hread : readCommand s.params.nbuf w = .command (.wr len stop)) (hj : j < len.toNat)
    (hnone : s.wbuf.read j = none) (hts : s.turns = .call w :: ts ∨ s.turns = .write 4 0 w :: ts) :
    step s = .refused .wbufUnwritten := by
  have hguard : wrGuard len (s.setTurns ts) = some .wbufUnwritten :=
    wrGuard_unwritten hb (readCommand_eq_command.1 hread).2 hj hnone
  obtain h | h := step_command hb hread hts
  · simp only [h, exec, execWr, operate, hguard]
  · simp only [h, postCommand, postWr, post, hguard]

/-- No command word is taken while BUSY = 1, whatever it reads as. -/
theorem step_command_busy {s : State} {w : Word} {ts : List Turn} (hb : s.busy = true)
    (hts : s.turns = .call w :: ts ∨ s.turns = .write 4 0 w :: ts) : step s = .refused .hostWriteWhileBusy := by
  obtain hts | hts := hts
  · exact step_call_refused s ts w _ hts (fetch_busy w hb)
  · rw [step_write s ts 4 0 w hts]
    exact hostWrite_busy w rfl hb

/-- Settles O4: legal words are the encodings, illegal words all others, and each refusal is the guard's or the fetch's. -/
theorem commandWordsLegalOrRefused : Obligations.CommandWordsLegalOrRefused :=
  ⟨fun nbuf w => ⟨readCommand_legal_iff nbuf w, readCommand_illegal_iff nbuf w⟩, fun _ _ _ _ => step_illegal,
    fun _ _ _ _ _ _ => step_wr_unwritten, fun _ _ _ => step_command_busy⟩

/-- Settles O1: each word of the table, read. -/
theorem sampleCommandWordsRead : Obligations.SampleCommandWordsRead := by
  unfold Obligations.SampleCommandWordsRead
  decide

/-! ### Operand values (R77 to R79) -/

/-- ADDR1 is the seven address bits above the direction bit. -/
theorem addr1Value_eq_append (saddr : BitVec 7) (d : Bool) : addr1Value saddr d = saddr ++ BitVec.ofBool d := by
  apply BitVec.eq_of_getLsbD_eq
  intro k hk
  simp only [addr1Value, BitVec.getLsbD_append, BitVec.getLsbD_or, BitVec.getLsbD_shiftLeft, BitVec.getLsbD_setWidth]
  interval_cases k <;> simp

/-- Settles O5: the parts of ADDR1 as a concatenation. -/
theorem addressValuesCarrySaddr : Obligations.AddressValuesCarrySaddr := by
  intro saddr d
  rw [addr1Value_eq_append]
  refine ⟨?_, ?_, ?_, rfl⟩
  · exact BitVec.extractLsb'_append_eq_left
  · rw [BitVec.getLsbD_append]
    simp
  · rw [BitVec.toNat_append, ← Nat.shiftLeft_add_eq_or_of_lt (BitVec.isLt _), BitVec.toNat_ofBool]
    omega

/-- Settles O6: R7 bounds NBUF by 2^RXCNTW, so LEN - 1 is below 2^RXCNTW. -/
theorem receiveCounterIsCountLessOne : Obligations.ReceiveCounterIsCountLessOne := by
  rintro p len ⟨-, -, -, hnbuf⟩ hwf
  obtain ⟨hpos, hle⟩ := lenInRange_iff.1 hwf
  have hfits : len.toNat - 1 < 2 ^ p.rxcntw := by omega
  refine ⟨?_, hfits⟩
  rw [rxcntValue, BitVec.toNat_ofNat, Nat.mod_eq_of_lt hfits, Nat.mod_eq_of_lt (by omega)]

/-- The DIV value of two halves is not truncated: it is below 2^(2 DIVW), and DIVW is at most 16 (R7). -/
theorem divValue_toNat {p : Params} {h l : BitVec 16} (hp : p.Legal) (hh : h.toNat < 2 ^ p.divw)
    (hl : l.toNat < 2 ^ p.divw) :
    (divValue p h l).toNat = l.toNat + 2 ^ p.divw * h.toNat ∧ (divValue p h l).toNat < 2 ^ (2 * p.divw) := by
  obtain ⟨-, hw, -⟩ := hp
  have hlt : l.toNat + 2 ^ p.divw * h.toNat < 2 ^ (2 * p.divw) := by
    rw [two_mul, pow_add]
    calc l.toNat + 2 ^ p.divw * h.toNat < 2 ^ p.divw * (h.toNat + 1) := by rw [mul_add_one]; omega
      _ ≤ 2 ^ p.divw * 2 ^ p.divw := Nat.mul_le_mul_left _ hh
  have hword : 2 ^ (2 * p.divw) ≤ 2 ^ 32 := Nat.pow_le_pow_right (by omega) (by omega)
  rw [divValue, BitVec.toNat_ofNat, mul_comm, add_comm, Nat.mod_eq_of_lt (by omega)]
  exact ⟨rfl, hlt⟩

/-- Settles O7: quotient and remainder of LOW + 2^DIVW * HIGH. -/
theorem dividerValueHoldsBothHalves : Obligations.DividerValueHoldsBothHalves := by
  intro p h l hp hh hl
  obtain ⟨hval, hlt⟩ := divValue_toNat hp hh hl
  refine ⟨?_, ?_, hlt⟩
  · rw [hval, Nat.add_mul_div_left _ _ (by positivity), Nat.div_eq_of_lt hl, zero_add]
  · rw [hval, Nat.add_mul_mod_self_left, Nat.mod_eq_of_lt hl]

/-! ### When an operation executes (R10, R74, R102, R114, R128) -/

/-- Settles O36: an operation ends in a next state iff its guard passes, and the guard passes iff it is ready. -/
theorem executesExactlyWhenReady : Obligations.ExecutesExactlyWhenReady := by
  intro i s
  obtain ⟨g, opc, len, stop, hexec, -, hready⟩ := exec_postCommand_spec i s
  simp only [hexec, operate_next, exists_and_left, exists_eq', and_true, hready]

end Sys2Proof.Machine
end

section
/-! PROOFS. The statements about the timeout countdown (40_timeout_countdown.md): what a wait does for given answers, that it
depends on nothing else, and how many polls an operation can make. -/

namespace Sys2Proof.Machine

open Sys2Proof.Safety

/-! ### One poll (R52, R88) -/

/-- The loop of `Wait` with polls left: one poll, and on a miss the rest of the loop after DEC. -/
theorem State.pollLoop_succ (w : Site) (n : Nat) (s : State) : State.pollLoop w (n + 1) s =
    if (s.preadBit w.field).1 = w.want then (.ok, (s.preadBit w.field).2)
    else State.pollLoop w n ((s.preadBit w.field).2.setTocnt ((s.preadBit w.field).2.tocnt - 1#32)) := rfl

theorem State.preadBit_trace (s : State) (f : PortField) :
    (s.preadBit f).2.trace = s.trace ++ [.read f (bitValue (s.preadBit f).1)] := by
  obtain ⟨as, d, h⟩ := s.preadBit_spec f
  rw [h]

theorem State.preadBit_tocnt (s : State) (f : PortField) : (s.preadBit f).2.tocnt = s.tocnt := by
  obtain ⟨as, d, h⟩ := s.preadBit_spec f
  rw [h]

/-- A status read answered from the list takes its first entry. -/
theorem State.preadBit_cons {s : State} {a : Byte} {rest : List Byte} (f : PortField) (h : s.answers = a :: rest) :
    s.preadBit f =
      (answerBit a, { s with trace := s.trace ++ [.read f (bitValue (answerBit a))], answers := rest }) := by
  simp only [State.preadBit, State.answer, h]
  rfl

/-! ### A wait by the environment's answers (R89) -/

/-- The loop after `misses`: as many polls fewer, TOCNT less by as much, and one missed poll each in the record. -/
theorem State.pollLoop_misses {w : Site} {misses rest : List Byte} (n : Nat) {s : State}
    (hs : s.answers = misses ++ rest) (hmiss : ∀ a ∈ misses, answerBit a ≠ w.want) :
    State.pollLoop w (n + misses.length) s = State.pollLoop w n { s with
      tocnt := s.tocnt - BitVec.ofNat 32 misses.length
      trace := s.trace ++ List.replicate misses.length (pollOf w (!w.want))
      answers := rest } := by
  induction misses generalizing s with
  | nil =>
    rw [List.nil_append] at hs
    simp [← hs]
  | cons a misses ih =>
    obtain ⟨ha, hmiss⟩ := List.forall_mem_cons.1 hmiss
    rw [List.length_cons, ← Nat.add_assoc, State.pollLoop_succ, State.preadBit_cons w.field hs, if_neg ha,
      ih rfl hmiss, Bool.eq_not.2 ha, Nat.add_comm misses.length 1, BitVec.ofNat_add, ← BitVec.sub_sub]
    simp [State.setTocnt, pollOf, List.replicate_add]

/-- A match at the next poll ends the loop; TOCNT keeps what it holds. -/
theorem State.pollLoop_match {w : Site} {hit : Byte} {rest : List Byte} (n : Nat) {s : State}
    (hs : s.answers = hit :: rest) (hhit : answerBit hit = w.want) :
    State.pollLoop w (n + 1) s =
      (.ok, { s with trace := s.trace ++ [pollOf w w.want], answers := rest }) := by
  rw [State.pollLoop_succ, State.preadBit_cons w.field hs, if_pos hhit, hhit]
  rfl

/-- Fewer misses than the budget and then a match: OK, and TOCNT less by the misses (R89 b). -/
theorem State.wait_match {w : Site} {misses rest : List Byte} {hit : Byte} {s : State}
    (hs : s.answers = misses ++ hit :: rest) (hmiss : ∀ a ∈ misses, answerBit a ≠ w.want)
    (hhit : answerBit hit = w.want) (hlt : misses.length < (w.budget s).toNat) :
    s.wait w = (.ok, { s with
      tocnt := BitVec.ofNat 32 ((w.budget s).toNat - (misses.length + 1) + 1)
      trace := s.trace ++ List.replicate misses.length (pollOf w (!w.want)) ++ [pollOf w w.want]
      answers := rest }) := by
  obtain ⟨k, hk⟩ : ∃ k, (w.budget s).toNat = k + 1 + misses.length :=
    ⟨(w.budget s).toNat - (misses.length + 1), by omega⟩
  have hleft : w.budget s - BitVec.ofNat 32 misses.length = BitVec.ofNat 32 (k + 1) := by bv_omega
  have hcount : k + 1 + misses.length - (misses.length + 1) + 1 = k + 1 := by omega
  rw [State.wait, hk, State.pollLoop_misses (s := s.setTocnt (w.budget s)) _ hs hmiss,
    State.pollLoop_match _ rfl hhit]
  simp [State.setTocnt, hleft, hcount]

/-- As many misses as the budget: TIMEOUT, and no further answer asked for (R89 c). -/
theorem State.wait_exhausted {w : Site} {misses rest : List Byte} {s : State} (hs : s.answers = misses ++ rest)
    (hmiss : ∀ a ∈ misses, answerBit a ≠ w.want) (hlen : misses.length = (w.budget s).toNat) :
    s.wait w = (.timeout, { s with
      tocnt := 0#32
      trace := s.trace ++ List.replicate misses.length (pollOf w (!w.want))
      answers := rest }) := by
  rw [State.wait, ← hlen, ← Nat.zero_add misses.length,
    State.pollLoop_misses (s := s.setTocnt (w.budget s)) 0 hs hmiss]
  simp [State.pollLoop, State.setTocnt, hlen]

/-- A match leaves TOCNT above 0, since it is one of the budget's polls (R89). -/
theorem polls_left_eq_zero_iff {w : Site} {n : Nat} {r : WaitResult} {left : Nat} {evs : List PortEvent}
    (h : Polls w n r left evs) : left = 0 ↔ r = .timeout := by
  cases r with
  | ok =>
    obtain ⟨k, hk, hleft, -⟩ := h
    simp only [reduceCtorEq, iff_false]
    omega
  | timeout => simp [h.1]

/-- Settles O8: `State.wait_spec` in every state, and by the answers the misses and then the match or the end. -/
theorem waitCountsPolls : Obligations.WaitCountsPolls := by
  intro s w
  obtain ⟨r, c, evs, as, d, h, hp⟩ := s.wait_spec w
  refine ⟨?_, ?_, fun _ _ _ => State.wait_match, fun _ _ => State.wait_exhausted⟩
  · rw [h]
    exact ⟨c.toNat, evs, hp, hp.length_le, rfl, rfl⟩
  · rw [h, ← polls_left_eq_zero_iff hp, ← BitVec.toNat_inj]
    rfl

/-! ### A wait depends on its own answers only (R92) -/

/-- From one TOCNT, the loop makes some polls, and any state whose answers agree on those polls makes the same. -/
theorem State.pollLoop_agree (w : Site) (n : Nat) (s u : State) (hc : s.tocnt = u.tocnt) :
    ∃ evs, (State.pollLoop w n s).2.trace = s.trace ++ evs ∧
      ((∀ j < evs.length, answerBit (upcoming s j) = answerBit (upcoming u j)) →
        (State.pollLoop w n u).1 = (State.pollLoop w n s).1 ∧
        (State.pollLoop w n u).2.tocnt = (State.pollLoop w n s).2.tocnt ∧
        (State.pollLoop w n u).2.trace = u.trace ++ evs) := by
  induction n generalizing s u with
  | zero => exact ⟨[], by simp [State.pollLoop], fun _ => ⟨rfl, hc.symm, by simp [State.pollLoop]⟩⟩
  | succ n ih =>
    rw [State.pollLoop_succ, State.pollLoop_succ]
    have hbit : answerBit (upcoming s 0) = answerBit (upcoming u 0) →
        (u.preadBit w.field).1 = (s.preadBit w.field).1 := fun h => by
      rw [State.preadBit_upcoming, State.preadBit_upcoming, h]
    by_cases hv : (s.preadBit w.field).1 = w.want
    · refine ⟨[.read w.field (bitValue (s.preadBit w.field).1)], ?_, fun hagree => ?_⟩
      · rw [if_pos hv, State.preadBit_trace]
      · have hu := hbit (hagree 0 (by simp))
        rw [hu, if_pos hv, if_pos hv, ← hu]
        exact ⟨rfl, by rw [State.preadBit_tocnt, State.preadBit_tocnt, hc], State.preadBit_trace u w.field⟩
    · obtain ⟨evs, htrace, hsame⟩ := ih
        ((s.preadBit w.field).2.setTocnt ((s.preadBit w.field).2.tocnt - 1#32))
        ((u.preadBit w.field).2.setTocnt ((u.preadBit w.field).2.tocnt - 1#32))
        (by simp only [State.setTocnt_tocnt, State.preadBit_tocnt, hc])
      refine ⟨.read w.field (bitValue (s.preadBit w.field).1) :: evs, ?_, fun hagree => ?_⟩
      · rw [if_neg hv, htrace, State.setTocnt_trace, State.preadBit_trace, List.append_assoc, List.singleton_append]
      · have hu := hbit (hagree 0 (by simp))
        have htail : ∀ j < evs.length, answerBit (upcoming (s.preadBit w.field).2 j) =
            answerBit (upcoming (u.preadBit w.field).2 j) := fun j hj => by
          rw [State.upcoming_preadBit, State.upcoming_preadBit]
          exact hagree (j + 1) (Nat.succ_lt_succ hj)
        obtain ⟨hres, htocnt, htrace'⟩ := hsame htail
        rw [hu, if_neg hv, if_neg hv]
        refine ⟨hres, htocnt, ?_⟩
        rw [htrace', State.setTocnt_trace, State.preadBit_trace, hu, List.append_assoc, List.singleton_append]

/-- Settles O9: with one budget both waits load the same TOCNT, and the loop's polls are those of the record. -/
theorem waitIndependentOfEarlierWaits : Obligations.WaitIndependentOfEarlierWaits := by
  intro s u w evs hbudget htrace hagree
  obtain ⟨evs', htrace', hsame⟩ := State.pollLoop_agree w (w.budget s).toNat (s.setTocnt (w.budget s))
    (u.setTocnt (w.budget u)) hbudget
  obtain rfl : evs' = evs := List.append_cancel_left (htrace'.symm.trans htrace)
  rw [State.wait, State.wait, ← hbudget]
  rw [← hbudget] at hsame
  exact hsame hagree

/-! ### The polls of an operation (R93) -/

/-- How many polls a step of a program can make: for a wait its budget; a wait under way has fewer than 2^32 left. -/
def maxPolls (s : State) : Micro → Nat
  | .prim _ => 0
  | .wait w => (w.budget s).toNat
  | .poll _ => 2 ^ 32
  | .divide => 0
  | .finish _ => 0
  | .conclude => 0

/-- The reload registers are the host's, so no step of an operation changes the bound. -/
theorem maxPolls_sameHost {s t : State} (h : SameHost s t) : maxPolls t = maxPolls s := by
  obtain ⟨-, -, -, -, -, -, -, -, hbyte, hstop, hfree, htcomp⟩ := h
  funext m
  cases m with
  | wait w => cases w <;> simp only [maxPolls, Site.budget, hbyte, hstop, hfree, htcomp]
  | _ => rfl

theorem pollCount_prim (s : State) (p : Prim) : pollCount (s.prim p).trace = pollCount s.trace := by
  cases p with
  | stage i =>
    obtain ⟨d, hd⟩ := s.entry_spec s.wbuf i
    simp only [State.prim, State.pwrite, State.emit, hd, pollCount_append]
    rfl
  | drain i =>
    obtain ⟨b, as, d, hd⟩ := prim_drain s i
    rw [hd, pollCount_append]
    rfl
  | phase p => rfl
  | idx i => rfl
  | _ => exact pollCount_append ..

theorem pollCount_divide (s : State) : pollCount s.divide.trace = pollCount s.trace := by
  rw [State.divide]
  cases divCalc s.params.divw s.inclk s.freq with
  | success h l => exact pollCount_append ..
  | wrongFrequency => rfl
  | siliconAnomaly => rfl

/-- What a wait under way can do in a program: at most TOCNT polls, and then the program ends (W1) or goes on. -/
theorem run_poll_cases (w : Site) (rest : List Micro) (s : State) :
    ∃ t, SameHost s t ∧ pollCount t.trace ≤ pollCount s.trace + s.tocnt.toNat ∧
      (run (.poll w :: rest) s = t ∨ run (.poll w :: rest) s = run rest t) := by
  obtain ⟨r, c, evs, as, d, h, hp⟩ := State.pollLoop_spec w s.tocnt.toNat s rfl
  generalize hu : ({ s with tocnt := c, trace := s.trace ++ evs, answers := as, draws := d } : State) = u at h
  have hhost : SameHost s u := by
    rw [← hu]
    exact SameHost.refl s
  have hcount : pollCount u.trace ≤ pollCount s.trace + s.tocnt.toNat := by
    rw [← hu, pollCount_append]
    exact Nat.add_le_add_left hp.pollCount_le _
  have hraised : SameHost s (u.raise w.flag) := hhost.trans (quiet_raise u w.flag).host
  cases r with
  | ok => exact ⟨u, hhost, hcount, .inr (by rw [run, h])⟩
  | timeout =>
    cases hw : w.aborts with
    | true =>
      refine ⟨(u.raise w.flag).finish .failure, hraised.trans (quiet_finish _ _).host, ?_, .inl ?_⟩
      · rw [State.finish_trace, State.raise_trace]
        exact hcount
      · simp only [run, h, hw, if_true]
    | false =>
      refine ⟨u.raise w.flag, hraised, ?_, .inr ?_⟩
      · rw [State.raise_trace]
        exact hcount
      · simp only [run, h, hw, Bool.false_eq_true, if_false]

/-- A program makes at most the polls its steps allow. -/
theorem pollCount_run_le (prog : List Micro) (s : State) :
    pollCount (run prog s).trace ≤ pollCount s.trace + (prog.map (maxPolls s)).sum := by
  induction prog generalizing s with
  | nil => exact Nat.le_refl _
  | cons m rest ih =>
    have ih' : ∀ {t : State}, SameHost s t →
        pollCount (run rest t).trace ≤ pollCount t.trace + (rest.map (maxPolls s)).sum := fun h =>
      maxPolls_sameHost h ▸ ih _
    have poll : ∀ (w : Site) (u : State), SameHost s u → pollCount (run (.poll w :: rest) u).trace ≤
        pollCount u.trace + u.tocnt.toNat + (rest.map (maxPolls s)).sum := by
      intro w u hu
      obtain ⟨t, ht, hcount, hrun | hrun⟩ := run_poll_cases w rest u
      · rw [hrun]
        exact hcount.trans (Nat.le_add_right ..)
      · rw [hrun]
        exact (ih' (hu.trans ht)).trans (Nat.add_le_add_right hcount _)
    rw [List.map_cons, List.sum_cons, ← Nat.add_assoc]
    cases m with
    | prim p =>
      rw [run_prim, ← pollCount_prim s p]
      exact ih' (quiet_prim s p).host
    | wait w =>
      rw [run_wait_poll]
      exact poll w (s.setTocnt (w.budget s)) (quiet_setTocnt s _).host
    | poll w =>
      have hlt : s.tocnt.toNat ≤ maxPolls s (.poll w) := s.tocnt.isLt.le
      exact (poll w s (SameHost.refl s)).trans (Nat.add_le_add_right (Nat.add_le_add_left hlt _) _)
    | divide =>
      rw [run_divide, pollCount_divide, Nat.add_assoc]
      exact Nat.le_add_right ..
    | finish r =>
      rw [run_finish, State.finish_trace, Nat.add_assoc]
      exact Nat.le_add_right ..
    | conclude =>
      rw [run_conclude, State.finish_trace, Nat.add_assoc]
      exact Nat.le_add_right ..

/-- The byte loop of WR has one wait at W2 an iteration (R119). -/
theorem sum_maxPolls_wrLoop (s : State) (i k : Nat) : ((wrLoop i k).map (maxPolls s)).sum = k * s.toByte.toNat := by
  induction k generalizing i with
  | zero => simp [wrLoop]
  | succ k ih => simp [wrLoop, ih, maxPolls, Site.budget, Nat.succ_mul, Nat.add_comm]

/-- The byte loop of RD has one wait at W5 an iteration (R133). -/
theorem sum_maxPolls_rdLoop (s : State) (i k : Nat) : ((rdLoop i k).map (maxPolls s)).sum = k * s.toByte.toNat := by
  induction k generalizing i with
  | zero => simp [rdLoop]
  | succ k ih => simp [rdLoop, ih, maxPolls, Site.budget, Nat.succ_mul, Nat.add_comm]

/-- CFG waits once, at W1 (R108). -/
theorem sum_maxPolls_cfgProgram (s : State) : (cfgProgram.map (maxPolls s)).sum = s.toTcomp.toNat := by
  simp [cfgProgram, maxPolls, Site.budget]

/-- WR waits once for each byte but the first, and with STOP at W3 and W4 (R121). -/
theorem sum_maxPolls_wrProgram (s : State) (n : Nat) (stop : Bool) : ((wrProgram n stop).map (maxPolls s)).sum =
    (n - 1) * s.toByte.toNat + (if stop then s.toStop.toNat + s.toFree.toNat else 0) := by
  rw [wrProgram, List.map_append, List.map_append, List.sum_append, List.sum_append, sum_maxPolls_wrLoop]
  cases stop <;> simp [wrHead, wrTail, maxPolls, Site.budget]

/-- RD waits once for each byte, and at W6 (R134). -/
theorem sum_maxPolls_rdProgram (s : State) (n : Nat) :
    ((rdProgram n).map (maxPolls s)).sum = n * s.toByte.toNat + s.toFree.toNat := by
  rw [rdProgram, List.map_append, List.map_append, List.sum_append, List.sum_append, sum_maxPolls_rdLoop]
  simp [rdHead, rdTail, maxPolls, Site.budget]

/-- An operation that ends leaves BUSY = 0 and DONE = 1 (R24, R25). -/
theorem exec_ends {i : Instr} {s t : State} (h : exec i s = .next t) : t.busy = false ∧ t.done = true := by
  cases i with
  | cfg =>
    obtain ⟨_, _, _, _, _, _, _, _, _, _, rfl, -⟩ := exec_cfg_frame h
    exact ⟨rfl, rfl⟩
  | wr len stop =>
    obtain ⟨_, _, _, _, _, _, _, _, _, _, rfl, -⟩ := exec_wr_frame h
    exact ⟨rfl, rfl⟩
  | rd len =>
    obtain ⟨_, _, _, _, _, _, _, _, _, rfl, -⟩ := exec_rd_frame h
    exact ⟨rfl, rfl⟩

/-- A ready operation runs its program to the end, within the polls the program's waits allow (R93). -/
theorem exec_ready_pollCount_le {i : Instr} {s : State} (h : Ready i s) :
    ∃ t, exec i s = .next t ∧ t.busy = false ∧ t.done = true ∧
      pollCount t.trace ≤ pollCount s.trace + ((programOf i).map (maxPolls s)).sum := by
  obtain ⟨g, opc, len, stop, hexec, -, hready⟩ := exec_postCommand_spec i s
  have hnext : exec i s = .next (run (programOf i) (s.accept opc len stop)) :=
    hexec.trans ((operate_next _ _ _ _).2 ⟨hready.2 h, rfl⟩)
  obtain ⟨hbusy, hdone⟩ := exec_ends hnext
  refine ⟨_, hnext, hbusy, hdone, ?_⟩
  rw [← maxPolls_sameHost (quiet_accept s opc len stop).host, ← State.accept_trace s opc len stop]
  exact pollCount_run_le _ _

/-- Settles O10: the bound on a program's polls, summed for each of the three programs. -/
theorem operationPollsBounded : Obligations.OperationPollsBounded := by
  refine fun s => ⟨fun h => ?_, fun len stop h => ?_, fun len h => ?_⟩
  · simpa only [programOf, sum_maxPolls_cfgProgram] using exec_ready_pollCount_le h
  · simpa only [programOf, sum_maxPolls_wrProgram, Nat.add_assoc] using exec_ready_pollCount_le h
  · simpa only [programOf, sum_maxPolls_rdProgram, Nat.add_assoc] using exec_ready_pollCount_le h

end Sys2Proof.Machine
end

section
/-! PROOFS. The statements about the divider calculator (41_configure_divider.md): its verdict by the quotient and by
the ratio of the inputs, the pair it accepts, and the corner cases. -/

namespace Sys2Proof.Machine

open Sys2Proof.Safety

/-! ### The calculator by its quotient (R96 to R99) -/

/-- The verdict as R99 has it: the sum of the pair is `2 q - 3`, so its test is one on the quotient. -/
theorem divCalc_eq (divw : Nat) (c f : Word) : divCalc divw c f =
    if roundedQuotient c f ≤ 1 then .wrongFrequency
    else if roundedQuotient c f ≤ 9 then .siliconAnomaly
    else if 2 ^ divw < roundedQuotient c f then .wrongFrequency
    else .success (BitVec.ofNat 16 (roundedQuotient c f - 2)) (BitVec.ofNat 16 (roundedQuotient c f - 1)) := by
  have hsum : roundedQuotient c f - 2 + (roundedQuotient c f - 1) ≤ Config.erratumThreshold ↔
      roundedQuotient c f ≤ 9 := by
    rw [Config.erratumThreshold]
    omega
  simp only [divCalc, hsum]

section Calculator

variable {divw : Nat} {c f : Word}

theorem divCalc_of_le_one (h : roundedQuotient c f ≤ 1) : divCalc divw c f = .wrongFrequency := by
  rw [divCalc_eq, if_pos h]

theorem divCalc_of_le_nine (h2 : 2 ≤ roundedQuotient c f) (h9 : roundedQuotient c f ≤ 9) :
    divCalc divw c f = .siliconAnomaly := by
  rw [divCalc_eq, if_neg (by omega), if_pos h9]

theorem divCalc_of_pow_lt (h10 : 10 ≤ roundedQuotient c f) (h : 2 ^ divw < roundedQuotient c f) :
    divCalc divw c f = .wrongFrequency := by
  rw [divCalc_eq, if_neg (by omega), if_neg (by omega), if_pos h]

theorem divCalc_of_le_pow (h10 : 10 ≤ roundedQuotient c f) (h : roundedQuotient c f ≤ 2 ^ divw) :
    divCalc divw c f =
      .success (BitVec.ofNat 16 (roundedQuotient c f - 2)) (BitVec.ofNat 16 (roundedQuotient c f - 1)) := by
  rw [divCalc_eq, if_neg (by omega), if_neg (by omega), if_neg (by omega)]

/-- The pair of an accepted quotient fits in 16 bits, so nothing is cut off (R7, R97). -/
theorem divCalc_pair_of_le_pow (hd : divw ≤ 16) (h10 : 10 ≤ roundedQuotient c f)
    (h : roundedQuotient c f ≤ 2 ^ divw) : ∃ hi lo, divCalc divw c f = .success hi lo ∧
      hi.toNat = roundedQuotient c f - 2 ∧ lo.toNat = roundedQuotient c f - 1 := by
  have hpow : 2 ^ divw ≤ 2 ^ 16 := Nat.pow_le_pow_right (by omega) hd
  exact ⟨_, _, divCalc_of_le_pow h10 h, Nat.mod_eq_of_lt (by omega), Nat.mod_eq_of_lt (by omega)⟩

theorem divCalc_success_iff : (∃ hi lo, divCalc divw c f = .success hi lo) ↔
    10 ≤ roundedQuotient c f ∧ roundedQuotient c f ≤ 2 ^ divw := by
  refine ⟨fun ⟨hi, lo, h⟩ => ?_, fun ⟨h10, hle⟩ => ⟨_, _, divCalc_of_le_pow h10 hle⟩⟩
  by_contra hq
  obtain h1 | h9 | hlt : roundedQuotient c f ≤ 1 ∨ (2 ≤ roundedQuotient c f ∧ roundedQuotient c f ≤ 9) ∨
      (10 ≤ roundedQuotient c f ∧ 2 ^ divw < roundedQuotient c f) := by omega
  · cases h.symm.trans (divCalc_of_le_one h1)
  · cases h.symm.trans (divCalc_of_le_nine h9.1 h9.2)
  · cases h.symm.trans (divCalc_of_pow_lt hlt.1 hlt.2)

/-! ### The quotient by the ratio of the inputs (R96, R99) -/

/-- A half rounds up, so the quotient passes from `k` to `k + 1` where `c / (2 f)` reaches `k + 1/2` (R96). -/
theorem roundedQuotient_le_iff (hf : f ≠ 0#32) (k : Nat) :
    roundedQuotient c f ≤ k ↔ c.toNat < (2 * k + 1) * f.toNat := by
  have hpos : 0 < 2 * f.toNat := Nat.mul_pos Nat.two_pos (BitVec.toNat_pos_of_ne_zero hf)
  have hsplit : (k + 1) * (2 * f.toNat) = (2 * k + 1) * f.toNat + f.toNat := by ring
  rw [← Nat.lt_succ_iff, roundedQuotient, Nat.div_lt_iff_lt_mul hpos, hsplit, Nat.add_lt_add_iff_right]

theorem roundedQuotient_eq_succ (hf : f ≠ 0#32) (k : Nat) (hlo : (2 * k + 1) * f.toNat ≤ c.toNat)
    (hhi : c.toNat < (2 * (k + 1) + 1) * f.toNat) : roundedQuotient c f = k + 1 :=
  Nat.le_antisymm ((roundedQuotient_le_iff hf _).2 hhi)
    (not_le.1 fun h => absurd ((roundedQuotient_le_iff hf k).1 h) (not_lt.2 hlo))

theorem pow_lt_roundedQuotient_iff (hf : f ≠ 0#32) :
    2 ^ divw < roundedQuotient c f ↔ (2 ^ (divw + 1) + 1) * f.toNat ≤ c.toNat := by
  rw [← not_le, roundedQuotient_le_iff hf, not_lt, Nat.pow_succ']

/-- A target above the input clock rounds to 0 (R101 a, b). -/
theorem divCalc_of_lt (h : c.toNat < f.toNat) :
    roundedQuotient c f = 0 ∧ divCalc divw c f = .wrongFrequency := by
  have hq : roundedQuotient c f = 0 := Nat.div_eq_of_lt (by omega)
  exact ⟨hq, divCalc_of_le_one (by omega)⟩

end Calculator

/-! ### The statements about the calculator (R99 to R101) -/

/-- Settles O11: the branches by the quotient, and each bound on the quotient as one on the ratio. -/
theorem dividerVerdictByRatio : Obligations.DividerVerdictByRatio := by
  intro divw c f _ hd hf
  refine ⟨divCalc_of_le_one, divCalc_of_le_nine, divCalc_of_pow_lt, divCalc_pair_of_le_pow hd,
    roundedQuotient_le_iff hf 1, roundedQuotient_le_iff hf 9, pow_lt_roundedQuotient_iff hf, ?_⟩
  rw [divCalc_success_iff, ← Nat.not_lt (a := 2 ^ divw), pow_lt_roundedQuotient_iff hf, Nat.not_le]
  have h10 := not_congr (roundedQuotient_le_iff (c := c) hf 9)
  omega

/-- Settles O12: an accepted pair is `(h, h + 1)` with `8 ≤ h`, below `2^divw`. -/
theorem acceptedPairClearsErratum : Obligations.AcceptedPairClearsErratum := by
  intro divw c f h l _ hd hs
  obtain ⟨hl, hh, hlt⟩ := divCalc_success hd hs
  omega

/-- Settles O13: in each case the quotient from the ratio, and the branch of R99 it takes. -/
theorem dividerCornerCases : Obligations.DividerCornerCases := by
  refine ⟨fun divw f hf => divCalc_of_lt (BitVec.toNat_pos_of_ne_zero hf), fun _ _ _ => divCalc_of_lt,
    fun divw c f hf hlo hhi => ?caseC, fun divw c f hf hc => ?caseD, fun divw c f hf hc => ?caseE,
    fun divw c f hd hf hc => ?caseF, fun divw c f h l hd hs => ?noEvenSum, by decide, fun c f hq => ?fits,
    fun c f hq => ?tooWide⟩
  case caseC =>
    have hq : roundedQuotient c f = 1 := roundedQuotient_eq_succ hf 0 (by omega) (by omega)
    exact ⟨hq, divCalc_of_le_one (by omega)⟩
  case caseD =>
    have hpos := BitVec.toNat_pos_of_ne_zero hf
    have hq : roundedQuotient c f = 2 := roundedQuotient_eq_succ hf 1 (by omega) (by omega)
    exact ⟨hq, by omega, by omega, divCalc_of_le_nine (by omega) (by omega)⟩
  case caseE =>
    have hpos := BitVec.toNat_pos_of_ne_zero hf
    have hq : roundedQuotient c f = 9 := roundedQuotient_eq_succ hf 8 (by omega) (by omega)
    exact ⟨hq, by omega, by omega, by omega, divCalc_of_le_nine (by omega) (by omega)⟩
  case caseF =>
    have hpos := BitVec.toNat_pos_of_ne_zero hf
    have hq : roundedQuotient c f = 10 := roundedQuotient_eq_succ hf 9 (by omega) (by omega)
    have hpow : 2 ^ 4 ≤ 2 ^ divw := Nat.pow_le_pow_right (by omega) hd
    refine ⟨hq, by omega, ?_⟩
    rw [divCalc_of_le_pow (by omega) (by omega), hq]
  case noEvenSum =>
    obtain ⟨hl, hh, -⟩ := divCalc_success hd hs
    omega
  case fits => rw [divCalc_of_le_pow (by omega) (by omega), hq]
  case tooWide => exact divCalc_of_pow_lt (by omega) (by omega)

end Sys2Proof.Machine
end

section
/-! PROOFS. CFG as a whole (R103 to R111): what it does after its wait, by the verdict of the calculator. -/

namespace Sys2Proof.Machine

open Sys2Proof.Safety

/-! ### Steps 4 and 5 by the verdict (R107) -/

/-- Steps 4 and 5 of CFG for a given verdict: on Success the pair programmed, and then the end (R107). -/
def State.endWith (s : State) : Verdict → State
  | .success h l => (s.programDivider h l).finish .success
  | .wrongFrequency => s.finish .wrongFrequency
  | .siliconAnomaly => s.finish .siliconAnomaly

theorem State.divide_eq_endWith (s : State) : s.divide = s.endWith (divCalc s.params.divw s.inclk s.freq) := by
  rw [State.divide]
  cases divCalc s.params.divw s.inclk s.freq <;> rfl

/-! ### CFG by the outcome of its wait (R105, R108) -/

/-- CFG accepted and its pin event made: the state its wait begins in (R104). -/
def cfgWaiting (s : State) : State := (cfgAccept s).emit (.pin (cfgAccept s).pincfg)

theorem exec_cfg_ready {s : State} (hr : Ready .cfg s) : exec .cfg s = .next (run cfgProgram (cfgAccept s)) :=
  (operate_next _ _ _ _).2 ⟨(cfgGuard_none s).2 hr, rfl⟩

/-- After a match: the disable, Idle, and the verdict on the inputs as they were before CFG (R106, R107). -/
theorem exec_cfg_of_ok {s u : State} (hr : Ready .cfg s) (hw : (cfgWaiting s).wait .w1 = (.ok, u)) : exec .cfg s =
    .next (((u.emit (.write .masen 0#32)).setPhase .idle).endWith (divCalc s.params.divw s.inclk s.freq)) := by
  obtain ⟨r, c, evs, as, d, hspec, -⟩ := (cfgWaiting s).wait_spec .w1
  obtain ⟨-, rfl⟩ := Prod.mk.inj (hw.symm.trans hspec)
  rw [cfgWaiting] at hw
  rw [exec_cfg_ready hr, run_cfgProgram, hw]
  exact congrArg Host.Outcome.next (State.divide_eq_endWith _)

theorem exec_cfg_of_timeout {s u : State} (hr : Ready .cfg s) (hw : (cfgWaiting s).wait .w1 = (.timeout, u)) :
    exec .cfg s = .next ((u.raise .tcomp).finish .failure) := by
  rw [cfgWaiting] at hw
  rw [exec_cfg_ready hr, run_cfgProgram, hw]

/-- Settles O14: the wait by its outcome, and after a match the division by its verdict. -/
theorem cfgRunsItsStepList : Obligations.CfgRunsItsStepList := by
  intro s hr
  obtain ⟨r, c, polls, as, d, hw, hp⟩ := (cfgWaiting s).wait_spec .w1
  refine ⟨r, c, polls, as, d, hp, ?_⟩
  cases r with
  | timeout => exact exec_cfg_of_timeout hr hw
  | ok =>
    rw [exec_cfg_of_ok hr hw]
    cases divCalc s.params.divw s.inclk s.freq with
    | success h l =>
      simp [State.endWith, State.programDivider, State.finish, State.emit, State.setPhase, cfgWaiting, cfgAccept,
        State.accept, State.clearFlags]
    | wrongFrequency => rfl
    | siliconAnomaly => rfl

theorem exec_cfg_mirror {s t : State} (h : exec .cfg s = .next t) (hne : t.result ≠ .success) :
    t.divh = s.divh ∧ t.divl = s.divl ∧ t.divvalid = s.divvalid := by
  obtain ⟨_, _, _, _, _, _, _, _, _, _, rfl, hmirror, -⟩ := exec_cfg_frame h
  exact hmirror hne

/-! ### CFG on given answers (R105, R111) -/

/-- A match at the first poll: OK with TOCNT still at the budget. -/
theorem State.wait_first {s : State} {w : Site} {hit : Byte} {rest : List Byte} (hs : s.answers = hit :: rest)
    (hhit : answerBit hit = w.want) (hb : w.budget s ≠ 0#32) : s.wait w = (.ok, { s with
      tocnt := w.budget s
      trace := s.trace ++ [pollOf w w.want]
      answers := rest }) := by
  obtain ⟨k, hk⟩ := Nat.exists_eq_add_one.2 (BitVec.toNat_pos_of_ne_zero hb)
  rw [State.wait, hk]
  exact State.pollLoop_match (s := s.setTocnt (w.budget s)) k hs hhit

/-- CFG whose first poll finds TCOMP clear: pin event, that poll, the disable, and then the verdict (R108). -/
theorem exec_cfg_of_first_answer {s : State} {a : Byte} {rest : List Byte} (hr : Ready .cfg s)
    (hs : s.answers = a :: rest) (ha : answerBit a = false) (hto : s.toTcomp ≠ 0#32) :
    ∃ u : State, exec .cfg s = .next (u.endWith (divCalc s.params.divw s.inclk s.freq)) ∧
      u.trace = s.trace ++ [.pin s.pincfg, .read .tcomp 0#32, .write .masen 0#32] ∧
      u.params = s.params ∧ u.tocnt = s.toTcomp := by
  refine ⟨_, exec_cfg_of_ok hr (State.wait_first (s := cfgWaiting s) (w := .w1) hs ha hto), ?_, rfl, rfl⟩
  simp [cfgWaiting, cfgAccept, pollOf, Site.field, Site.want, bitValue]

/-- Settles O16: the wait ends at its first poll, and the verdicts are those of the two quotients. -/
theorem cfgWorkedExamples : Obligations.CfgWorkedExamples := by
  intro s a rest hb hd hc hto hans ha
  refine ⟨fun hf => ?_, fun hf => ⟨by rw [hc, hf]; decide, ?_⟩⟩
  · obtain ⟨u, hexec, htrace, hparams, htocnt⟩ :=
      exec_cfg_of_first_answer ⟨hb, rfl, show s.freq ≠ 0#32 by rw [hf]; decide⟩ hans ha hto
    have hv : divCalc s.params.divw s.inclk s.freq = .success 31#16 32#16 := by
      rw [hd, hc, hf]
      decide
    have hdiv : divValue u.params 31#16 32#16 = 0x1F20#32 := by
      rw [divValue, hparams, hd]
      rfl
    rw [hv] at hexec
    refine ⟨_, hexec, ?_, rfl, rfl, rfl, rfl, htocnt⟩
    simp [State.endWith, htrace, hdiv]
  · obtain ⟨u, hexec, htrace, -, -⟩ :=
      exec_cfg_of_first_answer ⟨hb, rfl, show s.freq ≠ 0#32 by rw [hf]; decide⟩ hans ha hto
    have hv : divCalc s.params.divw s.inclk s.freq = .siliconAnomaly := by
      rw [hd, hc, hf]
      decide
    rw [hv] at hexec
    obtain ⟨hh, hl, hvalid⟩ := exec_cfg_mirror hexec nofun
    exact ⟨_, hexec, htrace, hh, hl, hvalid, rfl⟩

/-- Settles O18: every answer is a miss, so the wait is exhausted and the operation ends there. -/
theorem cfgOnWedgedControllerFails : Obligations.CfgOnWedgedControllerFails := by
  intro s misses rest hr hans hmiss hlen
  have hmiss' : ∀ a ∈ misses, answerBit a ≠ Site.w1.want := fun a ha => by
    rw [hmiss a ha]
    decide
  exact ⟨_, exec_cfg_of_timeout hr (State.wait_exhausted (s := cfgWaiting s) hans hmiss' hlen), rfl, rfl, rfl,
    (List.append_cons ..).symm, rfl, rfl, rfl, rfl, rfl⟩

/-! ### CFG twice (R100, R110) -/

theorem exec_cfg_inputs {s t : State} (h : exec .cfg s = .next t) :
    t.params = s.params ∧ t.inclk = s.inclk ∧ t.freq = s.freq := by
  obtain ⟨_, _, _, _, _, _, _, _, _, _, rfl, -⟩ := exec_cfg_frame h
  exact ⟨rfl, rfl, rfl⟩

/-- The port writes of a CFG that reaches its verdict: the disable, and the pair on Success (R106, R107). -/
def verdictWrites (p : Params) : Verdict → List PortEvent
  | .success h l => [.write .masen 0#32, .write .div (divValue p h l)]
  | .wrongFrequency => [.write .masen 0#32]
  | .siliconAnomaly => [.write .masen 0#32]

/-- What a CFG without a Failure leaves is fixed by the verdict, which the environment has no part in. -/
theorem exec_cfg_verdict {s t : State} (h : exec .cfg s = .next t) (hne : t.result ≠ .failure) :
    t.result = (divCalc s.params.divw s.inclk s.freq).result ∧
    writes t.trace = writes s.trace ++ verdictWrites s.params (divCalc s.params.divw s.inclk s.freq) ∧
    (t.result = .success →
      divCalc s.params.divw s.inclk s.freq = .success t.divh t.divl ∧ t.divvalid = true) := by
  obtain ⟨r, c, polls, as, d, hp, ht⟩ := cfgRunsItsStepList s ((cfgGuard_none s).1 ((operate_next _ _ _ _).1 h).1)
  obtain rfl := Host.Outcome.next.inj (h.symm.trans ht)
  cases r with
  | timeout => exact absurd rfl hne
  | ok =>
    have hpin : writes [.pin s.pincfg] = [] := rfl
    have hwrites : ∀ evs, writes (s.trace ++ [.pin s.pincfg] ++ polls ++ evs) = writes s.trace ++ writes evs :=
      fun evs => by simp only [writes_append, hp.writes, hpin, List.append_nil]
    cases hv : divCalc s.params.divw s.inclk s.freq with
    | success h l => exact ⟨rfl, hwrites _, fun _ => ⟨rfl, rfl⟩⟩
    | wrongFrequency => exact ⟨rfl, hwrites _, nofun⟩
    | siliconAnomaly => exact ⟨rfl, hwrites _, nofun⟩

/-- Settles O17: CFG keeps its inputs, so both verdicts are one; without Success the second keeps the mirror. -/
theorem cfgTwiceGivesSamePair : Obligations.CfgTwiceGivesSamePair := by
  intro s t u hst htu ht hu
  obtain ⟨hparams, hinclk, hfreq⟩ := exec_cfg_inputs hst
  obtain ⟨hres, hwrites, hpair⟩ := exec_cfg_verdict hst ht
  obtain ⟨hres', hwrites', hpair'⟩ := exec_cfg_verdict htu hu
  rw [hparams, hinclk, hfreq] at hres' hwrites' hpair'
  have hsame : u.result = t.result := hres'.trans hres.symm
  have hmirror : u.divh = t.divh ∧ u.divl = t.divl ∧ u.divvalid = t.divvalid := by
    by_cases hsucc : t.result = .success
    · obtain ⟨hv, hvalid⟩ := hpair hsucc
      obtain ⟨hv', hvalid'⟩ := hpair' (hsame.trans hsucc)
      obtain ⟨hh, hl⟩ := Verdict.success.inj (hv'.symm.trans hv)
      exact ⟨hh, hl, hvalid'.trans hvalid.symm⟩
    · exact exec_cfg_mirror htu (hsame ▸ hsucc)
  obtain ⟨hh, hl, hvalid⟩ := hmirror
  exact ⟨hsame, hh, hl, hvalid, _, hwrites, hwrites'⟩

/-! ### CFG while FREQ = 0 (R102) -/

theorem cfgGuard_freqZero {s : State} (hb : s.busy = false) (hf : s.freq = 0#32) : cfgGuard s = some .freqZero := by
  simp [cfgGuard, hb, hf]

/-- Settles O19: a call and a write of the word 0 both come to the guard of CFG. -/
theorem cfgWithZeroFrequencyRefused : Obligations.CfgWithZeroFrequencyRefused := by
  have hexec : ∀ s : State, s.busy = false → s.freq = 0#32 → exec .cfg s = .refused .freqZero :=
    fun s hb hf => by simp only [exec, execCfg, operate, cfgGuard_freqZero hb hf]
  refine ⟨hexec, fun s ts hb hf hts => ?_, rfl⟩
  have hread : readCommand s.params.nbuf 0x00000000#32 = .command .cfg :=
    readCommand_eq_command.2 ⟨decode_encode .cfg, rfl⟩
  obtain h | h := step_command hb hread hts
  · exact h.trans (hexec (s.setTurns ts) hb hf)
  · have hguard : cfgGuard (s.setTurns ts) = some .freqZero := cfgGuard_freqZero hb hf
    simp only [h, postCommand, postCfg, post, hguard]

end Sys2Proof.Machine
end

section
/-! PROOFS. The statements about WR (42_write_engine.md): the whole next state, the port writes in order, WR on a device
that is always or never ready, the one-byte hold, and the refusals. -/

namespace Sys2Proof.Machine

open Sys2Proof.Safety

/-! ### WR as a whole (R121, R123) -/

theorem exec_wr_ready {s : State} {len : BitVec 16} {stop : Bool} (hr : Ready (.wr len stop) s) :
    exec (.wr len stop) s = .next (run (wrProgram len.toNat stop) (wrAccept len stop s)) :=
  (operate_next _ _ _ _).2 ⟨(wrGuard_none len stop s).2 hr, rfl⟩

/-- A ready WR has a byte to send, and all its bytes (R71, R114). -/
theorem len_pos_and_written_of_ready {s : State} {len : BitVec 16} {stop : Bool} (hr : Ready (.wr len stop) s) :
    1 ≤ len.toNat ∧ ∀ j < len.toNat, (s.wbuf.read j).isSome = true := by
  obtain ⟨-, hwf, hwritten⟩ := hr
  exact ⟨(lenInRange_iff.1 hwf).1, hwritten⟩

/-- The port writes of steps 1 to 3 of WR, in order (R116 to R118). -/
def wrHeadWrites (s : State) : List PortEvent :=
  [.write .masen 1#32, .write .txflush 1#32, .write .txflush 0#32, .write .tx (wbufWord s.wbuf 0),
    .write .addr1 ((addr1Value s.saddr false).setWidth 32), .write .addr2 0#32]

/-- WR accepted and its first byte and address sent: the state its byte loop begins in (R27, R116 to R118). -/
def wrLooping (len : BitVec 16) (stop : Bool) (s : State) : State :=
  { wrAccept len stop s with phase := .byteTransferLoop, idx := 0#16, trace := s.trace ++ wrHeadWrites s }

/-- A ready WR comes to its byte loop whatever the environment answers. -/
theorem exec_wr_loop {s : State} {len : BitVec 16} {stop : Bool} (hr : Ready (.wr len stop) s) :
    exec (.wr len stop) s = .next (run (wrLoop 1 (len.toNat - 1) ++ wrTail stop) (wrLooping len stop s)) := by
  obtain ⟨hpos, hwritten⟩ := len_pos_and_written_of_ready hr
  obtain ⟨u, hhead, rfl⟩ := run_wrHead (wrLoop 1 (len.toNat - 1) ++ wrTail stop) (wrAccept len stop s)
    (hwritten 0 hpos)
  rw [exec_wr_ready hr, wrProgram, hhead]
  rfl

/-- Settles O20: head, byte loop and tail one after the other, the tail by STOP. -/
theorem wrRunsItsStepList : Obligations.WrRunsItsStepList := by
  intro s len stop hr
  obtain ⟨hpos, hwritten⟩ := len_pos_and_written_of_ready hr
  obtain ⟨late, c, loop, as, d, u, hloop, hu, htrace⟩ := run_wrLoop 1 (len.toNat - 1) (wrTail stop)
    (wrLooping len stop s) (fun j _ hj => hwritten j (by omega))
  have hidx : (if len.toNat - 1 = 0 then 0#16 else BitVec.ofNat 16 (len.toNat - 1)) = BitVec.ofNat 16 (len.toNat - 1) :=
    ite_eq_right_iff.2 fun h => by rw [h]
  rw [exec_wr_loop hr, hloop]
  cases stop with
  | true =>
    obtain ⟨r3, left3, polls3, r4, c4, polls4, as4, d4, htail, hp3, hp4⟩ := run_wrTail_stop u
    refine ⟨late, c.toNat, loop, r3, r4, left3, c4.toNat, polls3, polls4, c4, as4, d4, htrace, fun _ => ?_, rfl, ?_⟩
    · rw [hu] at hp3 hp4
      exact ⟨hp3, hp4⟩
    · rw [htail, hu]
      simp [wrLooping, wrHeadWrites, wrAccept, State.accept, State.clearFlags, hidx, Bool.or_assoc]
  | false =>
    refine ⟨late, c.toNat, loop, .ok, .ok, 0, 0, [], [], c, as, d, htrace, nofun, rfl, ?_⟩
    rw [run_wrTail_hold, hu]
    simp [wrLooping, wrHeadWrites, wrAccept, State.accept, State.clearFlags, State.setPhase, State.finish,
      State.transferResult, hidx]

/-- Settles O21: of the whole next state's record the writes are kept, and waits make none. -/
theorem wrPortWritesInOrder : Obligations.WrPortWritesInOrder := by
  intro s t len stop h
  obtain ⟨late, after, loop, r3, r4, left3, left4, polls3, polls4, c, as, d, hloop, hpolls, -, ht⟩ :=
    wrRunsItsStepList s len stop ((wrGuard_none len stop s).1 ((operate_next _ _ _ _).1 h).1)
  obtain rfl := Host.Outcome.next.inj (h.symm.trans ht)
  cases stop with
  | true =>
    obtain ⟨hp3, hp4⟩ := hpolls rfl
    simp only [writes_append, hloop.writes, if_true, hp3.writes, hp4.writes]
    rfl
  | false =>
    simp only [writes_append, hloop.writes, Bool.false_eq_true, if_false]
    rfl

/-- Settles O25: with one byte the loop is empty, and the hold makes no wait. -/
theorem wrOneByteHoldMakesNoPoll : Obligations.WrOneByteHoldMakesNoPoll := fun _ hr =>
  ⟨_, exec_wr_loop hr, rfl, rfl, rfl, rfl, rfl, rfl, rfl⟩

/-! ### WR on a device whose status fields do not change (R124, R126) -/

/-- The first `n` of the answers read `v` as a status, and `rest` are the others. -/
def Steady (v : Bool) (n : Nat) (answers rest : List Byte) : Prop :=
  ∃ first, answers = first ++ rest ∧ first.length = n ∧ ∀ a ∈ first, answerBit a = v

/-- Steady answers for two waits are steady for each. -/
theorem Steady.split {v : Bool} {m n : Nat} {answers rest : List Byte} (h : Steady v (m + n) answers rest) :
    ∃ mid, Steady v m answers mid ∧ Steady v n mid rest := by
  obtain ⟨first, rfl, hlen, hv⟩ := h
  refine ⟨first.drop m ++ rest, ⟨first.take m, ?_, ?_, fun a ha => hv a (List.mem_of_mem_take ha)⟩,
    first.drop m, rfl, ?_, fun a ha => hv a (List.mem_of_mem_drop ha)⟩
  · rw [← List.append_assoc, List.take_append_drop]
  · rw [List.length_take]; omega
  · rw [List.length_drop]; omega

/-- The polls of a wait for 1 with budget `b` where every poll reads `v`: the first matches, or all miss (R88). -/
def steadyPolls (v : Bool) (b : Word) : Nat := if v then 1 else b.toNat

/-- What such a wait leaves in TOCNT (R88). -/
def steadyLeft (v : Bool) (b : Word) : Word := if v then b else 0#32

/-- The state after a wait for 1 on steady answers: the site's flag is set where no poll matched (R88, R91). -/
def State.afterSteady (s : State) (w : Site) (v : Bool) (rest : List Byte) : State :=
  { s with
    tofByte := s.tofByte || (!v && decide (w.flag = .byte))
    tofStop := s.tofStop || (!v && decide (w.flag = .stop))
    tofFree := s.tofFree || (!v && decide (w.flag = .free))
    tocnt := steadyLeft v (w.budget s)
    trace := s.trace ++ List.replicate (steadyPolls v (w.budget s)) (pollOf w v)
    answers := rest }

/-- A wait for 1 on steady answers polls until the match or the end, and the program goes on (R88, R91). -/
theorem run_wait_steady {w : Site} {v : Bool} {rest : List Byte} {s : State} (prog : List Micro) (hw : w ≠ .w1)
    (hs : Steady v (steadyPolls v (w.budget s)) s.answers rest) (hpos : v = true → w.budget s ≠ 0#32) :
    run (.wait w :: prog) s = run prog (s.afterSteady w v rest) := by
  have hsite : w.want = true ∧ w.aborts = false ∧ w.flag ≠ .tcomp := by
    cases w with
    | w1 => exact absurd rfl hw
    | _ => exact ⟨rfl, rfl, nofun⟩
  obtain ⟨hwant, hgoes, hflag⟩ := hsite
  obtain ⟨first, hans, hlen, hv⟩ := hs
  cases v with
  | true =>
    obtain ⟨a, rfl⟩ := List.length_eq_one_iff.1 hlen
    have hhit : answerBit a = w.want := by rw [hwant]; exact hv a (List.mem_singleton_self a)
    simp [run, State.wait_first hans hhit (hpos rfl), hwant, State.afterSteady, steadyLeft, steadyPolls]
  | false =>
    have hmiss : ∀ a ∈ first, answerBit a ≠ w.want := fun a ha => by rw [hv a ha, hwant]; decide
    simp only [run, State.wait_exhausted hans hmiss hlen, hgoes, hwant, hlen, Bool.false_eq_true, if_false]
    cases hf : w.flag with
    | tcomp => exact absurd hf hflag
    | _ => simp [State.raise, State.afterSteady, steadyLeft, hf]

/-- The state after one iteration of WR's byte loop, for entry `i`, on steady answers (R119). -/
def State.afterSteadyByte (s : State) (i : Nat) (v : Bool) (rest : List Byte) : State :=
  { s with
    idx := BitVec.ofNat 16 i
    tofByte := s.tofByte || !v
    tocnt := steadyLeft v s.toByte
    trace := s.trace ++ (List.replicate (steadyPolls v s.toByte) (pollOf .w2 v) ++ [.write .tx (wbufWord s.wbuf i)])
    answers := rest }

/-- One iteration of WR's byte loop, over a written entry, on steady answers (R119). -/
theorem run_wrByte_steady {v : Bool} {i : Nat} {rest : List Byte} {s : State} (prog : List Micro)
    (hb : (s.wbuf.read i).isSome = true) (hs : Steady v (steadyPolls v s.toByte) s.answers rest)
    (hpos : v = true → s.toByte ≠ 0#32) :
    run (.prim (.idx i) :: .wait .w2 :: .prim (.stage i) :: prog) s =
      run prog (s.afterSteadyByte i v rest) := by
  rw [run_prim, prim_idx, run_wait_steady (w := .w2) (s := s.setIdx i) _ nofun hs hpos, run_prim,
    prim_stage ((s.setIdx i).afterSteady .w2 v rest) i hb]
  simp [State.afterSteadyByte, State.afterSteady, State.emit, State.setIdx, Site.budget, Site.flag]

/-- The events of `k` iterations of WR's byte loop from index `i` on, where every poll of TXREQ reads `v` (R119). -/
def steadyLoopEvents (v : Bool) (s : State) (i k : Nat) : List PortEvent :=
  (List.range' i k).flatMap fun j =>
    List.replicate (steadyPolls v s.toByte) (pollOf .w2 v) ++ [.write .tx (wbufWord s.wbuf j)]

/-- The byte loop of WR over written entries on steady answers; IDX names the byte staged last (R119). -/
theorem run_wrLoop_steady {v : Bool} (i k : Nat) {rest : List Byte} {s : State} (prog : List Micro)
    (hb : ∀ j, i < j → j ≤ i + k → (s.wbuf.read j).isSome = true) (hidx : s.idx = BitVec.ofNat 16 i)
    (hs : Steady v (k * steadyPolls v s.toByte) s.answers rest) (hpos : v = true → s.toByte ≠ 0#32) :
    ∃ c u, run (wrLoop (i + 1) k ++ prog) s = run prog u ∧ u = { s with
      idx := BitVec.ofNat 16 (i + k)
      tofByte := s.tofByte || (!v && decide (0 < k))
      tocnt := c
      trace := s.trace ++ steadyLoopEvents v s (i + 1) k
      answers := rest } := by
  induction k generalizing i s with
  | zero =>
    obtain ⟨first, hans, hlen, -⟩ := hs
    obtain rfl : first = [] := List.length_eq_zero_iff.1 (hlen.trans (Nat.zero_mul _))
    rw [List.nil_append] at hans
    exact ⟨s.tocnt, s, rfl, by simp [steadyLoopEvents, ← hidx, ← hans]⟩
  | succ k ih =>
    rw [Nat.succ_mul, Nat.add_comm] at hs
    obtain ⟨mid, hwait, hrest⟩ := hs.split
    have hstep := run_wrByte_steady (wrLoop (i + 1 + 1) k ++ prog) (hb (i + 1) (by omega) (by omega)) hwait hpos
    obtain ⟨c, u, hloop, hu⟩ := ih (i + 1) (s := s.afterSteadyByte (i + 1) v mid)
      (fun j _ _ => hb j (by omega) (by omega)) rfl hrest hpos
    refine ⟨c, u, hstep.trans hloop, hu.trans ?_⟩
    cases v <;> simp [State.afterSteadyByte, steadyLoopEvents, List.range'_succ, Nat.add_right_comm, Nat.add_assoc]

/-- The tail of WR with STOP on steady answers (R120, R122). -/
theorem run_wrTail_steady {v : Bool} {rest : List Byte} {s : State}
    (hs : Steady v (steadyPolls v s.toStop + steadyPolls v s.toFree) s.answers rest)
    (hpos : v = true → s.toStop ≠ 0#32 ∧ s.toFree ≠ 0#32) :
    run (wrTail true) s = ({ s with
      tofStop := s.tofStop || !v
      tofFree := s.tofFree || !v
      tocnt := steadyLeft v s.toFree
      phase := .idle
      busy := false
      done := true
      result := if s.tofByte || (s.tofStop || !v) || (s.tofFree || !v) then .failure else .success
      trace := s.trace ++ (List.replicate (steadyPolls v s.toStop) (pollOf .w3 v) ++
        List.replicate (steadyPolls v s.toFree) (pollOf .w4 v) ++ [.write .masen 0#32])
      answers := rest } : State) := by
  obtain ⟨mid, hstop, hfree⟩ := hs.split
  simp only [wrTail, if_true, run_prim, prim_phase]
  rw [run_wait_steady (w := .w3) (s := s.setPhase .stopPhase) _ nofun hstop fun h => (hpos h).1, run_prim, prim_phase,
    run_wait_steady (w := .w4) (s := ((s.setPhase .stopPhase).afterSteady .w3 v mid).setPhase .busFreeWait) _ nofun
      hfree fun h => (hpos h).2]
  simp [State.afterSteady, State.emit, State.setPhase, State.finish, State.transferResult, Site.budget, Site.flag,
    bitValue]

/-- A ready WR with STOP where every status the CORE reads is `v`: the whole next state (R121). -/
theorem exec_wr_steady {v : Bool} {len : BitVec 16} {rest : List Byte} {s : State} (hr : Ready (.wr len true) s)
    (hs : Steady v ((len.toNat - 1) * steadyPolls v s.toByte + (steadyPolls v s.toStop + steadyPolls v s.toFree))
      s.answers rest)
    (hpos : v = true → s.toByte ≠ 0#32 ∧ s.toStop ≠ 0#32 ∧ s.toFree ≠ 0#32) :
    exec (.wr len true) s = .next { s with
      opc := 0b01#2
      len := len
      stopf := true
      busy := false
      done := true
      phase := .idle
      idx := BitVec.ofNat 16 (len.toNat - 1)
      result := if v then .success else .failure
      tofByte := !v && decide (1 < len.toNat)
      tofStop := !v
      tofFree := !v
      tofTcomp := false
      tocnt := steadyLeft v s.toFree
      answers := rest
      trace := s.trace ++ wrHeadWrites s ++ steadyLoopEvents v s 1 (len.toNat - 1) ++
        (List.replicate (steadyPolls v s.toStop) (pollOf .w3 v) ++
          List.replicate (steadyPolls v s.toFree) (pollOf .w4 v) ++ [.write .masen 0#32]) } := by
  obtain ⟨hlen, hwritten⟩ := len_pos_and_written_of_ready hr
  obtain ⟨mid, hloop, htail⟩ := hs.split
  obtain ⟨c, u, hrun, hu⟩ := run_wrLoop_steady 0 (len.toNat - 1) (wrTail true) (s := wrLooping len true s)
    (fun j _ hj => hwritten j (by omega)) rfl hloop fun h => (hpos h).1
  have hend := run_wrTail_steady (v := v) (rest := rest) (s := u) (by rw [hu]; exact htail)
    (by rw [hu]; exact fun h => (hpos h).2)
  rw [exec_wr_loop hr, hrun, hend, hu]
  cases v <;> simp [wrLooping, wrAccept, State.accept, State.clearFlags, steadyLoopEvents]

/-- Settles O23: every wait ends at its first poll. -/
theorem wrToReadyDeviceSucceeds : Obligations.WrToReadyDeviceSucceeds := by
  intro s len ones rest hr hans hones hlen hbyte hstop hfree
  obtain ⟨hpos, -⟩ := len_pos_and_written_of_ready hr
  have hsteady : Steady true ((len.toNat - 1) * 1 + (1 + 1)) s.answers rest := ⟨ones, hans, by omega, hones⟩
  exact ⟨_, exec_wr_steady hr hsteady fun _ => ⟨hbyte, hstop, hfree⟩,
    rfl, rfl, rfl, rfl, rfl, rfl, rfl, rfl, rfl, rfl, rfl, rfl⟩

/-- Settles O24: every wait is exhausted, the byte waits if there are any. -/
theorem wrToDeadDeviceFailsAfterBudget : Obligations.WrToDeadDeviceFailsAfterBudget := by
  intro s len zeros rest hr hans hzeros hlen
  have hsteady : Steady false ((len.toNat - 1) * s.toByte.toNat + (s.toStop.toNat + s.toFree.toNat)) s.answers rest :=
    ⟨zeros, hans, by omega, hzeros⟩
  refine ⟨_, exec_wr_steady hr hsteady nofun, rfl, rfl, rfl, rfl, rfl, rfl, rfl, rfl, rfl, ?_⟩
  simp only [List.append_assoc]
  rfl

/-! ### Refusals (R74, R114; log 23) -/

theorem exec_wr_refused {s : State} {len : BitVec 16} {r : Refusal} (stop : Bool) (h : wrGuard len s = some r) :
    exec (.wr len stop) s = .refused r := by
  simp only [exec, execWr, operate, h]

/-- Settles O26: each refusal is the guard's, which tests BUSY, then the length, then the entries. -/
theorem wrBrokenPreconditionsRefused : Obligations.WrBrokenPreconditionsRefused := by
  intro s len stop
  refine ⟨fun hb => exec_wr_refused stop ?_, fun hb hzero => exec_wr_refused stop ?_,
    fun hb hne hlt => exec_wr_refused stop ?_, ?_⟩
  · simp [wrGuard, hb]
  · simp [wrGuard, hb, hzero]
  · simp [wrGuard, hb, hne, hlt]
  · rintro hb hne hle ⟨j, hj, hnone⟩
    exact exec_wr_refused stop (wrGuard_unwritten hb (lenInRange_iff.2 ⟨by omega, hle⟩) hj hnone)

end Sys2Proof.Machine
end

section
/-! PROOFS. The statements about RD (43_read_engine.md): the whole next state, the four port writes, the octets in RBUF, RD
on a device that is ready at every poll, and the refusals. -/

namespace Sys2Proof.Machine

open Sys2Proof.Safety

/-! ### RD as a whole (R134, R137) -/

/-- The port writes of steps 1 and 2 of RD, in order (R131, R132). -/
def rdHeadWrites (len : BitVec 16) (s : State) : List PortEvent :=
  [.write .rxcnt (rxcntValue s.params len), .write .addr1 ((addr1Value s.saddr true).setWidth 32), .write .addr2 0#32]

/-- RD accepted and its count and address sent: the state its byte loop begins in (R27, R131, R132). -/
def rdLooping (len : BitVec 16) (s : State) : State :=
  { rdAccept len s with phase := .byteTransferLoop, trace := s.trace ++ rdHeadWrites len s }

/-- The head reads no octet from RX (R131, R132). -/
theorem rdHeadWrites_rxValues (len : BitVec 16) (s : State) : (rdHeadWrites len s).filterMap rxValue = [] := rfl

/-- A ready RD comes to its byte loop whatever the environment answers. -/
theorem exec_rd_loop {s : State} {len : BitVec 16} (hr : Ready (.rd len) s) :
    exec (.rd len) s = .next (run (rdLoop 0 len.toNat ++ rdTail) (rdLooping len s)) := by
  obtain ⟨u, hhead, rfl⟩ := run_rdHead (rdLoop 0 len.toNat ++ rdTail) (rdAccept len s)
  exact (operate_next _ _ _ _).2 ⟨(rdGuard_none len s).2 hr, hhead⟩

theorem len_pos_of_rd_ready {s : State} {len : BitVec 16} (hr : Ready (.rd len) s) : 1 ≤ len.toNat := by
  obtain ⟨-, hwf, -⟩ := hr
  exact (lenInRange_iff.1 hwf).1

/-- Settles O27: head, byte loop and tail one after the other. -/
theorem rdRunsItsStepList : Obligations.RdRunsItsStepList := by
  intro s len hr
  have hpos : len.toNat ≠ 0 := Nat.one_le_iff_ne_zero.1 (len_pos_of_rd_ready hr)
  obtain ⟨late, bytes, c, loop, as, d, m, u, hloop, hu, htrace, hlen, hm, -⟩ :=
    run_rdLoop 0 len.toNat rdTail (rdLooping len s)
  obtain ⟨r6, c6, polls6, as6, d6, htail, hp6⟩ := run_rdTail u
  rw [hu] at hp6
  refine ⟨late, bytes, loop, r6, polls6, c6, as6, d6, m, htrace, hp6, hlen, fun j => ?_, ?_⟩
  · have hrbuf : (rdLooping len s).rbuf = s.rbuf := rfl
    simpa [hrbuf] using hm j
  · rw [exec_rd_loop hr, hloop, htail, hu]
    simp [rdLooping, rdHeadWrites, rdAccept, State.accept, State.clearFlags, hpos]

/-- An RD that ends was ready, so its end is that of the step list (R134). -/
theorem exec_rd_ended {s t : State} {len : BitVec 16} (h : exec (.rd len) s = .next t) :
    ∃ late bytes loop r6 polls6 c,
      RdLoopTrace s.toByte.toNat len.toNat late bytes loop ∧ Polls .w6 s.toFree.toNat r6 c polls6 ∧
      bytes.length = len.toNat ∧ (∀ j, t.rbuf.read j = if j < len.toNat then bytes[j]? else s.rbuf.read j) ∧
      t.idx = BitVec.ofNat 16 (len.toNat - 1) ∧
      t.trace = s.trace ++ (rdHeadWrites len s ++ loop ++ polls6 ++ [.write .masen 0#32]) := by
  obtain ⟨late, bytes, loop, r6, polls6, c, as, d, m, hloop, hp6, hlen, hm, ht⟩ :=
    rdRunsItsStepList s len ((executesExactlyWhenReady (.rd len) s).1 ⟨t, h⟩)
  obtain rfl := Host.Outcome.next.inj (h.symm.trans ht)
  exact ⟨late, bytes, loop, r6, polls6, c.toNat, hloop, hp6, hlen, hm, rfl, by simp [rdHeadWrites]⟩

/-- Settles O28: waits and drains write nothing, so the record's writes are those of the head and the disable. -/
theorem rdMakesFourPortWrites : Obligations.RdMakesFourPortWrites := by
  intro s t len h
  obtain ⟨late, bytes, loop, r6, polls6, c, hloop, hp6, -, -, -, htrace⟩ := exec_rd_ended h
  have hwrites : writes (rdHeadWrites len s ++ loop ++ polls6 ++ [.write .masen 0#32]) =
      rdHeadWrites len s ++ [.write .masen 0#32] := by
    simp only [writes_append, hloop.writes, hp6.writes]
    rfl
  refine ⟨_, htrace, hwrites, fun hmem => ?_⟩
  have henable : PortEvent.write .masen 1#32 ∈ rdHeadWrites len s ++ [.write .masen 0#32] :=
    hwrites ▸ List.mem_filter.2 ⟨hmem, rfl⟩
  simp [rdHeadWrites] at henable

/-- Settles O29: of the record's events only the byte loop holds reads of RX. That the RD succeeded is not needed: a failed
RD stores what it was answered too (log 16). -/
theorem rdBufferHoldsDrainedOctets : Obligations.RdBufferHoldsDrainedOctets := by
  intro s t len h
  obtain ⟨late, bytes, loop, r6, polls6, c, hloop, hp6, hlen, hm, -, htrace⟩ := exec_rd_ended h
  have hrx : (rdHeadWrites len s ++ loop ++ polls6 ++ [PortEvent.write .masen 0#32]).filterMap rxValue = bytes := by
    simp [rdHeadWrites_rxValues, rxValue, hloop.rxValues, hp6.filterMap_nil rxValue fun _ => rfl]
  refine ⟨fun j hj => (hm j).trans (if_neg (by omega)), fun _ => ⟨_, htrace, ?_, fun j hj => ?_⟩⟩
  · rw [hrx, hlen]
  · rw [hrx, hm j, if_pos hj]

/-! ### RD from a device that is ready at every poll (R139) -/

/-- A wait whose first poll matches: one answer taken, TOCNT at the budget, no flag, and the program goes on (R88). -/
theorem run_wait_first {w : Site} {hit : Byte} {rest : List Byte} {s : State} (prog : List Micro)
    (hs : s.answers = hit :: rest) (hhit : answerBit hit = w.want) (hb : w.budget s ≠ 0#32) :
    run (.wait w :: prog) s = run prog { s with
      tocnt := w.budget s
      trace := s.trace ++ [pollOf w w.want]
      answers := rest } := by
  simp only [run, State.wait_first hs hhit hb]

/-- Draining takes the next listed answer as the octet (R133). -/
theorem prim_drain_cons {b : Byte} {rest : List Byte} {s : State} (i : Nat) (hs : s.answers = b :: rest) :
    s.prim (.drain i) = { s with
      trace := s.trace ++ [.read .rx (b.setWidth 32)]
      rbuf := s.rbuf.write i b
      answers := rest } := by
  simp [State.prim, State.preadRx, State.answer, hs, State.emit, State.setRbuf]

/-- The environment's answers for pairs of a status and an octet. -/
def pairAnswers (pairs : List (Byte × Byte)) : List Byte := pairs.flatMap fun p => [p.1, p.2]

/-- The events of RD's byte loop where each byte's first poll of RXREQ reads 1 and its octet follows (R139). -/
def readyLoopEvents (pairs : List (Byte × Byte)) : List PortEvent :=
  pairs.flatMap fun p => [.read .rxreq 1#32, .read .rx (p.2.setWidth 32)]

/-- The octets of those events, read off the record (R133). -/
theorem readyLoopEvents_rxValues (pairs : List (Byte × Byte)) :
    (readyLoopEvents pairs).filterMap rxValue = pairs.map Prod.snd := by
  induction pairs with
  | nil => rfl
  | cons p pairs ih =>
    rw [List.map_cons, ← ih]
    simp [readyLoopEvents, rxValue, List.filterMap_cons]

/-- The byte loop of RD on such answers: no flag is set, and the answers after the pairs are left (R133). -/
theorem run_rdLoop_ready (pairs : List (Byte × Byte)) (i : Nat) {rest : List Byte} {s : State} (prog : List Micro)
    (hs : s.answers = pairAnswers pairs ++ rest) (hready : ∀ p ∈ pairs, answerBit p.1 = true)
    (hb : s.toByte ≠ 0#32) :
    ∃ ix c m u, run (rdLoop i pairs.length ++ prog) s = run prog u ∧ u = { s with
      idx := ix
      tocnt := c
      rbuf := m
      trace := s.trace ++ readyLoopEvents pairs
      answers := rest } := by
  induction pairs generalizing i s with
  | nil => exact ⟨s.idx, s.tocnt, s.rbuf, s, rfl, by simp [readyLoopEvents, ← show s.answers = rest from hs]⟩
  | cons p pairs ih =>
    obtain ⟨hp, hready⟩ := List.forall_mem_cons.1 hready
    have hwait := run_wait_first (w := .w5) (s := s.setIdx i) (.prim (.drain i) :: (rdLoop (i + 1) pairs.length ++ prog))
      hs hp hb
    rw [run_prim, prim_drain_cons (rest := pairAnswers pairs ++ rest) i rfl] at hwait
    obtain ⟨ix, c, m, u, hloop, rfl⟩ := ih (i + 1) (s := { s with
      idx := BitVec.ofNat 16 i
      tocnt := s.toByte
      trace := s.trace ++ [.read .rxreq 1#32] ++ [.read .rx (p.2.setWidth 32)]
      rbuf := s.rbuf.write i p.2
      answers := pairAnswers pairs ++ rest }) rfl hready hb
    exact ⟨ix, c, m, _, hwait.trans hloop, by simp [readyLoopEvents]⟩

/-- The tail of RD where the first poll of BUSFREE matches: no flag is set (R135, R136). -/
theorem run_rdTail_ready {free : Byte} {rest : List Byte} {s : State} (hs : s.answers = free :: rest)
    (hfree : answerBit free = true) (hb : s.toFree ≠ 0#32) :
    run rdTail s = ({ s with
      tocnt := s.toFree
      phase := .idle
      busy := false
      done := true
      result := s.transferResult
      trace := s.trace ++ [.read .busfree 1#32, .write .masen 0#32]
      answers := rest } : State) := by
  rw [rdTail, run_prim, prim_phase, run_wait_first (w := .w6) (s := s.setPhase .busFreeWait) _ hs hfree hb]
  simp [State.emit, State.setPhase, State.finish, State.transferResult, bitValue, pollOf, Site.want, Site.field,
    Site.budget]

/-- A ready RD where every status the CORE reads is 1: the end, with IDX and RBUF left open, since every RD gives them
(R134, R139). -/
theorem exec_rd_ready_device {s : State} {len : BitVec 16} {pairs : List (Byte × Byte)} {free : Byte} {rest : List Byte}
    (hr : Ready (.rd len) s) (hlen : pairs.length = len.toNat) (hready : ∀ p ∈ pairs, answerBit p.1 = true)
    (hfree : answerBit free = true) (hans : s.answers = pairAnswers pairs ++ free :: rest) (hbyte : s.toByte ≠ 0#32)
    (htoFree : s.toFree ≠ 0#32) :
    ∃ ix m, exec (.rd len) s = .next { s with
      opc := 0b10#2
      len := len
      stopf := false
      busy := false
      done := true
      phase := .idle
      idx := ix
      result := .success
      tofByte := false
      tofStop := false
      tofFree := false
      tofTcomp := false
      tocnt := s.toFree
      rbuf := m
      answers := rest
      trace := s.trace ++ rdHeadWrites len s ++ readyLoopEvents pairs ++
        [.read .busfree 1#32, .write .masen 0#32] } := by
  obtain ⟨ix, c, m, u, hloop, hu⟩ := run_rdLoop_ready pairs 0 (s := rdLooping len s) rdTail hans hready hbyte
  have htail := run_rdTail_ready (s := u) (by rw [hu]) hfree (by rw [hu]; exact htoFree)
  refine ⟨ix, m, ?_⟩
  rw [exec_rd_loop hr, ← hlen, hloop, htail, hu]
  rfl

/-- Settles O31: every wait ends at its first poll; IDX and RBUF are those of every RD with this record. -/
theorem rdFromReadyDeviceSucceeds : Obligations.RdFromReadyDeviceSucceeds := by
  intro s len pairs free rest hr hlen hready hfree hans hbyte htoFree
  obtain ⟨ix, m, hexec⟩ := exec_rd_ready_device hr hlen hready hfree hans hbyte htoFree
  obtain ⟨-, -, -, -, -, -, -, -, -, -, hidx, -⟩ := exec_rd_ended hexec
  obtain ⟨evs, htrace, hread⟩ := exec_rd_rxValues hexec
  have hevs : rdHeadWrites len s ++ (readyLoopEvents pairs ++ [.read .busfree 1#32, .write .masen 0#32]) = evs := by
    simpa using htrace
  refine ⟨_, hexec, rfl, rfl, rfl, rfl, rfl, rfl, rfl, rfl, hidx, rfl, rfl, fun j hj => ?_, rfl⟩
  rw [hread j hj, ← hevs]
  simp [rdHeadWrites_rxValues, readyLoopEvents_rxValues, rxValue, List.filterMap_cons]

/-! ### Refusals (R74, R128; log 23) -/

theorem exec_rd_refused {s : State} {len : BitVec 16} {r : Refusal} (h : rdGuard len s = some r) :
    exec (.rd len) s = .refused r := by
  simp only [exec, execRd, operate, h]

/-- Settles O32: each refusal is the guard's, which tests BUSY and then the length. -/
theorem rdBrokenPreconditionsRefused : Obligations.RdBrokenPreconditionsRefused := by
  intro s len
  refine ⟨fun hb => exec_rd_refused ?_, fun hb hzero => exec_rd_refused ?_, fun hb hne hlt => exec_rd_refused ?_⟩
  · simp [rdGuard, hb]
  · simp [rdGuard, hb, hzero]
  · simp [rdGuard, hb, hne, hlt]

end Sys2Proof.Machine
end

section
/-! PROOFS. The statements about results and what an operation leaves (60_exceptions.md): the result by the flags, the master
enable and PHASE after each operation, and that the model's one fault is not reached. -/

namespace Sys2Proof.Safety

open Sys2Proof.Machine

/-! ### The master enable as last written (R150; log 19) -/

/-- Events that write no master enable leave it as last written. -/
theorem masterEnable_append_of_nil (t : List PortEvent) {evs : List PortEvent} (h : evs.filterMap masenValue = []) :
    masterEnable (t ++ evs) = masterEnable t := by
  simp [masterEnable, h]

/-- A write of the master enable that no other follows is the last one. -/
theorem masterEnable_write (t : List PortEvent) (v : Word) {evs : List PortEvent} (h : evs.filterMap masenValue = []) :
    masterEnable (t ++ .write .masen v :: evs) = some v := by
  simp [masterEnable, masenValue, h]

/-- A wait writes no master enable (R88). -/
theorem Polls.masenValues {w : Site} {n : Nat} {r : WaitResult} {left : Nat} {evs : List PortEvent}
    (h : Polls w n r left evs) : evs.filterMap masenValue = [] :=
  h.filterMap_nil masenValue fun _ => rfl

/-- WR's byte loop writes no master enable (R119). -/
theorem WrLoopTrace.masenValues {m : Memory} {n i k : Nat} {late : Bool} {b a : Nat} {evs : List PortEvent}
    (h : WrLoopTrace m n i k late b a evs) : evs.filterMap masenValue = [] :=
  List.filterMap_eq_nil_iff.2 fun _ he => by obtain ⟨v, rfl⟩ | ⟨j, rfl⟩ := h.mem he <;> rfl

end Sys2Proof.Safety

namespace Sys2Proof.Machine

open Sys2Proof.Safety

/-! ### The result by the flags (R141, R142, R147) -/

theorem State.transferResult_eq_failure_iff (s : State) :
    s.transferResult = .failure ↔ s.tofByte = true ∨ s.tofStop = true ∨ s.tofFree = true := by
  rw [State.transferResult]
  split <;> simp_all [or_assoc]

theorem State.transferResult_success_or_failure (s : State) :
    s.transferResult = .success ∨ s.transferResult = .failure := by
  rw [State.transferResult]
  split
  · exact .inr rfl
  · exact .inl rfl

theorem Verdict.result_ne_failure (v : Verdict) : v.result ≠ .failure := by
  cases v <;> exact nofun

/-- The result of a WR is the one its flags, as it leaves them, give (R121, R122). -/
theorem exec_wr_result {s t : State} {len : BitVec 16} {stop : Bool} (h : exec (.wr len stop) s = .next t) :
    t.result = t.transferResult := by
  obtain ⟨late, after, loop, r3, r4, left3, left4, polls3, polls4, c, as, d, -, -, -, ht⟩ :=
    wrRunsItsStepList s len stop ((executesExactlyWhenReady (.wr len stop) s).1 ⟨t, h⟩)
  obtain rfl := Host.Outcome.next.inj (h.symm.trans ht)
  simp only [State.transferResult, Bool.and_or_distrib_left, Bool.or_assoc]

/-- The result of an RD is the one its flags, as it leaves them, give (R134, R136). -/
theorem exec_rd_result {s t : State} {len : BitVec 16} (h : exec (.rd len) s = .next t) :
    t.result = t.transferResult := by
  obtain ⟨late, bytes, loop, r6, polls6, c, as, d, m, -, -, -, -, ht⟩ :=
    rdRunsItsStepList s len ((executesExactlyWhenReady (.rd len) s).1 ⟨t, h⟩)
  obtain rfl := Host.Outcome.next.inj (h.symm.trans ht)
  simp only [State.transferResult, Bool.or_false]

/-- An RD has no stop wait, so TOF_STOP stays as acceptance left it (R27). -/
theorem exec_rd_tofStop {s t : State} {len : BitVec 16} (h : exec (.rd len) s = .next t) : t.tofStop = false := by
  obtain ⟨_, _, _, _, _, _, _, _, _, rfl, -⟩ := exec_rd_frame h
  rfl

/-- How a CFG that ends has ended, by its wait: on TIMEOUT the flag, Failure and PHASE as before; on OK no flag, the
calculator's verdict, the writes that go with it, and Idle (R105, R107, R109). -/
theorem exec_cfg_ended {s t : State} (h : exec .cfg s = .next t) : ∃ r left polls,
    Polls .w1 s.toTcomp.toNat r left polls ∧
    match r with
    | .timeout => t.tofTcomp = true ∧ t.result = .failure ∧ t.phase = s.phase ∧
        t.trace = s.trace ++ .pin s.pincfg :: polls
    | .ok => t.tofTcomp = false ∧ t.result = (divCalc s.params.divw s.inclk s.freq).result ∧ t.phase = .idle ∧
        t.trace = s.trace ++ .pin s.pincfg :: polls ++
          verdictWrites s.params (divCalc s.params.divw s.inclk s.freq) := by
  obtain ⟨r, c, polls, as, d, hp, ht⟩ := cfgRunsItsStepList s ((executesExactlyWhenReady .cfg s).1 ⟨t, h⟩)
  obtain rfl := Host.Outcome.next.inj (h.symm.trans ht)
  have htrace : s.trace ++ [.pin s.pincfg] ++ polls = s.trace ++ .pin s.pincfg :: polls := List.append_assoc ..
  refine ⟨r, c.toNat, polls, hp, ?_⟩
  cases r with
  | timeout => exact ⟨rfl, rfl, rfl, htrace⟩
  | ok =>
    cases divCalc s.params.divw s.inclk s.freq <;> exact ⟨rfl, rfl, rfl, congrArg (· ++ _) htrace⟩

/-- Settles O34: WR and RD end with the result of their flags, CFG with Failure or the verdict as its wait ended. -/
theorem resultsFollowFlags : Obligations.ResultsFollowFlags := by
  intro s t
  refine ⟨fun len stop h => ?_, fun len h => ?_, fun h => ?_⟩
  · rw [exec_wr_result h]
    exact ⟨t.transferResult_eq_failure_iff, t.transferResult_success_or_failure⟩
  · rw [exec_rd_result h]
    exact ⟨by simpa [exec_rd_tofStop h] using t.transferResult_eq_failure_iff, t.transferResult_success_or_failure⟩
  · obtain ⟨r, left, polls, -, hend⟩ := exec_cfg_ended h
    cases r with
    | timeout =>
      obtain ⟨hflag, hres, -⟩ := hend
      simp [hflag, hres]
    | ok =>
      obtain ⟨hflag, hres, -⟩ := hend
      simp [hflag, hres, Verdict.result_ne_failure]

/-! ### The master enable after each operation (R109, R121, R134, R150) -/

/-- The writes of a verdict begin with the disable, and no other write of the master enable follows it (R106, R107). -/
theorem masterEnable_verdictWrites (t : List PortEvent) (p : Params) (v : Verdict) :
    masterEnable (t ++ verdictWrites p v) = some 0#32 := by
  cases v <;> exact masterEnable_write t 0#32 rfl

/-- After a WR with STOP the master is disabled and PHASE is Idle, after one without it is enabled and PHASE is Held,
whatever the waits returned (R120, R121). -/
theorem exec_wr_masterEnable_phase {s t : State} {len : BitVec 16} {stop : Bool} (h : exec (.wr len stop) s = .next t) :
    masterEnable t.trace = some (if stop then 0#32 else 1#32) ∧ t.phase = if stop then .idle else .held := by
  obtain ⟨late, after, loop, r3, r4, left3, left4, polls3, polls4, c, as, d, hloop, -, -, ht⟩ :=
    wrRunsItsStepList s len stop ((executesExactlyWhenReady (.wr len stop) s).1 ⟨t, h⟩)
  obtain rfl := Host.Outcome.next.inj (h.symm.trans ht)
  refine ⟨?_, rfl⟩
  cases stop with
  | true =>
    simp only [if_true, ← List.append_assoc]
    exact masterEnable_write _ 0#32 rfl
  | false =>
    have hrest : loop.filterMap masenValue = [] := hloop.masenValues
    simp only [Bool.false_eq_true, if_false, List.append_nil, List.append_assoc, List.cons_append, List.nil_append]
    exact masterEnable_write s.trace 1#32 (by simpa [masenValue] using hrest)

/-- After an RD the last event is the disable, and PHASE is Idle, whatever the waits returned (R134, R135). -/
theorem exec_rd_masterEnable_phase {s t : State} {len : BitVec 16} (h : exec (.rd len) s = .next t) :
    masterEnable t.trace = some 0#32 ∧ t.phase = .idle := by
  obtain ⟨late, bytes, loop, r6, polls6, c, as, d, m, -, -, -, -, ht⟩ :=
    rdRunsItsStepList s len ((executesExactlyWhenReady (.rd len) s).1 ⟨t, h⟩)
  obtain rfl := Host.Outcome.next.inj (h.symm.trans ht)
  exact ⟨masterEnable_write _ 0#32 rfl, rfl⟩

/-- Settles O35: a failed CFG made its pin event and polls only, and every other operation's last write of the master enable
is at a fixed place in its step list. -/
theorem masterEnableAfterOperation : Obligations.MasterEnableAfterOperation := by
  intro s t
  refine ⟨fun h => ?_, fun len h => exec_wr_masterEnable_phase h, fun len h => exec_wr_masterEnable_phase h,
    fun len h => exec_rd_masterEnable_phase h⟩
  obtain ⟨r, left, polls, hp, hend⟩ := exec_cfg_ended h
  cases r with
  | timeout =>
    obtain ⟨-, hres, hphase, htrace⟩ := hend
    have hnone : (PortEvent.pin s.pincfg :: polls).filterMap masenValue = [] := hp.masenValues
    rw [if_pos hres, htrace]
    exact ⟨⟨_, rfl, hnone⟩, masterEnable_append_of_nil s.trace hnone, hphase⟩
  | ok =>
    obtain ⟨-, hres, hphase, htrace⟩ := hend
    rw [if_neg (hres ▸ Verdict.result_ne_failure _), htrace]
    exact ⟨masterEnable_verdictWrites _ _ _, hphase⟩

/-! ### The one fault (R140; log 14) -/

/-- An operation issued, whole or only accepted, is a next state or a refusal. -/
theorem exec_postCommand_ne_fault (i : Instr) (s : State) (f : Fault) :
    exec i s ≠ .fault f ∧ postCommand i s ≠ .fault f := by
  obtain ⟨g, opc, len, stop, hexec, hpost, -⟩ := exec_postCommand_spec i s
  rw [hexec, hpost]
  cases g <;> exact ⟨nofun, nofun⟩

theorem hostRead_ne_fault (size off : Nat) (s : State) (f : Fault) : hostRead size off s ≠ .fault f := by
  obtain ⟨-, d, h⟩ | ⟨-, h⟩ := hostRead_spec size off s <;> rw [h] <;> exact nofun

theorem hostWrite_ne_fault (size off : Nat) (v : Word) (s : State) (f : Fault) : hostWrite size off v s ≠ .fault f := by
  obtain ⟨r, h⟩ | ⟨-, -, i, -, h⟩ | ⟨-, -, h⟩ := hostWrite_spec size off v s <;> rw [h]
  · exact nofun
  · exact (exec_postCommand_ne_fault i s f).2
  · exact nofun

/-- Under the invariant BUSY = 1 comes with a program left, and BUSY = 0 makes a turn of the CORE do nothing (R177). -/
theorem coreTurn_ne_fault {s : State} (hi : Inv s) (f : Fault) : coreTurn s ≠ .fault f := by
  cases hb : s.busy with
  | true =>
    obtain ⟨-, hsettles, -⟩ := sequencerSound_busy (inv_sequencer hi) hb
    rw [coreTurn_settles hb hsettles]
    exact nofun
  | false => simp [coreTurn, hb]

/-- Settles O57: of the moves only a turn of the CORE can fault, and under the invariant it does not. -/
theorem stepNeverFaults : Obligations.StepNeverFaults := by
  intro s f hi
  match hts : s.turns with
  | [] => exact step_idle s hts ▸ coreTurn_ne_fault hi f
  | .core :: ts => exact step_core s ts hts ▸ coreTurn_ne_fault (inv_setTurns hi ts) f
  | .reset :: ts =>
    rw [step_reset s ts hts]
    exact nofun
  | .read size off :: ts => exact step_read s ts size off hts ▸ hostRead_ne_fault size off _ f
  | .write size off v :: ts => exact step_write s ts size off v hts ▸ hostWrite_ne_fault size off v _ f
  | .call w :: ts =>
    cases hf : fetch w (s.setTurns ts) with
    | error r =>
      rw [step_call_refused s ts w r hts hf]
      exact nofun
    | ok i => exact step_call s ts w i hts hf ▸ (exec_postCommand_ne_fault i _ f).1

end Sys2Proof.Machine
end

section
/-! PROOFS. The statements about reset and hazards (70_reset_and_hazards.md): a reset in the middle of an operation, and the
CORE between one operation's finish and the next command. -/

namespace Sys2Proof.Machine

/-- Settles O44: the equation of a reset turn asks nothing of `busy` and `prog`, so an operation in flight makes no
difference; its `coreReset`, on the state with the move taken, is the state the statement writes out. -/
theorem resetAbandonsOperation : Obligations.ResetAbandonsOperation := by
  intro s ts hts
  exact step_reset s ts hts

/-- With no operation in flight a turn of the CORE changes nothing (R177). -/
theorem coreTurn_of_not_busy {s : State} (hb : s.busy = false) : coreTurn s = .next s := by
  simp [coreTurn, hb]

/-- Settles O46: with no move of the host left a step is a turn of the CORE (log 22). -/
theorem quiescentCoreStaysPut : Obligations.QuiescentCoreStaysPut := by
  intro s hts hb
  rw [step_idle s hts, coreTurn_of_not_busy hb]

end Sys2Proof.Machine
end
